-- ==== Sys2Proof/Word.lean ====
section
/-!
DEFINITION. The three widths the block works in (spec/00_scope.md rule R9; spec/20_memory.md rule R79): bytes on the wire and in
MEM, 16-bit pixels, 32-bit registers and command words. They are abbreviations, so every lemma about bit vectors applies.
-/

namespace Sys2Proof

/-- One byte: a byte of MEM, of the scratch buffer, or of the wire (R9 `u8`). -/
abbrev Byte := BitVec 8

/-- One pixel: a 16-bit colour value, opaque to every rule but the default luminance (R9 `u16`, R120). -/
abbrev Pixel := BitVec 16

/-- One 32-bit register value or command word (R9 `u32`, R24, R100). -/
abbrev Word := BitVec 32

end Sys2Proof
end

