-- ==== Sys2Proof/Syntax.lean ====
section
/-!
DEFINITION. The nineteen operations of the block (spec/30_encoding.md rule R104), one constructor per row of
spec/opcode_table.json, with the immediate its format gives it (R101, R102). The operands that stand in `A0`..`A7` are read when the
operation is issued (R100) and are no part of the syntax.
-/

namespace Sys2Proof

/-- One host command. -/
inductive Instr where
  /-- WRCMD, format CB: `imm8` is the byte (R202). -/
  | wrcmd (b : Byte)
  /-- WRDAT, format CB: `imm8` is the byte (R203). -/
  | wrdat (b : Byte)
  /-- WRBULK, format C0 (R204). -/
  | wrbulk
  /-- WRBULKA, format C0 (R206). -/
  | wrbulka
  /-- WAIT, format CT: `ms` is the timeout in milliseconds (R208). -/
  | wait (ms : BitVec 24)
  /-- ABORT, format C0 (R210). -/
  | abort
  /-- TEINIT, format C0 (R212). -/
  | teinit
  /-- TEFREE, format C0 (R213). -/
  | tefree
  /-- SETWIN, format C0, `WindowedRam` only (R258). -/
  | setwin
  /-- DRAWIMG, format C0 (R264, R296). -/
  | drawimg
  /-- FILLRECT, format C0 (R266, R298). -/
  | fillrect
  /-- SETROT, format CR: `rot` is the rotation code (R270, R302). -/
  | setrot (rot : BitVec 2)
  /-- PUSHPIX, format C0, `WindowedRam` only (R268). -/
  | pushpix
  /-- CLEAR, format C0 (R272, R300). -/
  | clear
  /-- SURFINIT, format C0 (R274, R304). -/
  | surfinit
  /-- BUILDMAPS, format C0 (R141). -/
  | buildmaps
  /-- RESAMPLE, format C0 (R146). -/
  | resample
  /-- DITHB, format C0 (R166). -/
  | dithb
  /-- DITHFS, format C0 (R182). -/
  | dithfs
  deriving DecidableEq, Repr

end Sys2Proof
end

