-- ==== Sys2Proof/Decode.lean ====
section
/-!
DEFINITION. The command word (spec/30_encoding.md rules R100 to R105): its fields, the decoder, total on every word and rejecting by
name, and the encoder, written from the same table of formats.
-/

namespace Sys2Proof

/-- Why a word is no command (R105). Both reasons raise `ILLEGAL_CMD`. -/
inductive Illegal where
  /-- The opcode byte is not one of the nineteen of R104. -/
  | unknownOpcode (op : Byte)
  /-- A bit the format marks "zero" is 1. -/
  | reservedBitSet (op : Byte)
  deriving DecidableEq, Repr

/-- What decoding a word gives. -/
inductive Decoded where
  | command (i : Instr)
  | illegal (why : Illegal)
  deriving DecidableEq, Repr

/-- Bits [31:24], the opcode byte (R100). -/
def opField (w : Word) : Byte := w.extractLsb' 24 8

/-- Bits [23:0], the immediate field (R100). -/
def immField (w : Word) : BitVec 24 := w.extractLsb' 0 24

/-- Format C0: every immediate bit is zero (R101). -/
def decodeC0 (w : Word) (i : Instr) : Decoded :=
  if immField w = 0 then .command i else .illegal (.reservedBitSet (opField w))

/-- Format CB: bits [23:8] are zero and `imm8` is bits [7:0] (R101). -/
def decodeCB (w : Word) (mk : Byte → Instr) : Decoded :=
  if w.extractLsb' 8 16 = (0 : BitVec 16) then .command (mk (w.extractLsb' 0 8))
  else .illegal (.reservedBitSet (opField w))

/-- Format CT: `ms` is bits [23:0] (R101). -/
def decodeCT (w : Word) (mk : BitVec 24 → Instr) : Decoded := .command (mk (immField w))

/-- Format CR: bits [23:2] are zero and `rot` is bits [1:0] (R101). -/
def decodeCR (w : Word) (mk : BitVec 2 → Instr) : Decoded :=
  if w.extractLsb' 2 22 = (0 : BitVec 22) then .command (mk (w.extractLsb' 0 2))
  else .illegal (.reservedBitSet (opField w))

/-- The opcode map of R104; every other word is illegal (R105). -/
def decode (w : Word) : Decoded :=
  match (opField w).toNat with
  | 0x10 => decodeCB w .wrcmd
  | 0x11 => decodeCB w .wrdat
  | 0x12 => decodeC0 w .wrbulk
  | 0x13 => decodeC0 w .wrbulka
  | 0x14 => decodeCT w .wait
  | 0x15 => decodeC0 w .abort
  | 0x16 => decodeC0 w .teinit
  | 0x17 => decodeC0 w .tefree
  | 0x20 => decodeC0 w .setwin
  | 0x21 => decodeC0 w .drawimg
  | 0x22 => decodeC0 w .fillrect
  | 0x23 => decodeCR w .setrot
  | 0x24 => decodeC0 w .pushpix
  | 0x25 => decodeC0 w .clear
  | 0x26 => decodeC0 w .surfinit
  | 0x40 => decodeC0 w .buildmaps
  | 0x41 => decodeC0 w .resample
  | 0x50 => decodeC0 w .dithb
  | 0x51 => decodeC0 w .dithfs
  | _ => .illegal (.unknownOpcode (opField w))

/-- The opcode byte of each operation (R104). -/
def Instr.opcode : Instr → Byte
  | .wrcmd _ => 0x10
  | .wrdat _ => 0x11
  | .wrbulk => 0x12
  | .wrbulka => 0x13
  | .wait _ => 0x14
  | .abort => 0x15
  | .teinit => 0x16
  | .tefree => 0x17
  | .setwin => 0x20
  | .drawimg => 0x21
  | .fillrect => 0x22
  | .setrot _ => 0x23
  | .pushpix => 0x24
  | .clear => 0x25
  | .surfinit => 0x26
  | .buildmaps => 0x40
  | .resample => 0x41
  | .dithb => 0x50
  | .dithfs => 0x51

/-- The 24 immediate bits of each operation, zero where its format says zero (R101, R102). -/
def Instr.imm : Instr → BitVec 24
  | .wrcmd b => (0 : BitVec 16) ++ b
  | .wrdat b => (0 : BitVec 16) ++ b
  | .wait ms => ms
  | .setrot rot => (0 : BitVec 22) ++ rot
  | .wrbulk => 0
  | .wrbulka => 0
  | .abort => 0
  | .teinit => 0
  | .tefree => 0
  | .setwin => 0
  | .drawimg => 0
  | .fillrect => 0
  | .pushpix => 0
  | .clear => 0
  | .surfinit => 0
  | .buildmaps => 0
  | .resample => 0
  | .dithb => 0
  | .dithfs => 0

/-- The command word of an operation: the opcode above the immediate (R100). -/
def encode (i : Instr) : Word := i.opcode ++ i.imm

/-- The instruction the decoder reads from an instruction of `nbits` bits whose bits are `w`, numbered as spec/opcode_table.json
numbers them: one 32-bit word, written to `CMD` as it stands. Every bit at or above `nbits` is 0. -/
def decodeTableWord (nbits w : Nat) : Option Instr :=
  match decode (BitVec.ofNat 32 (w % 2 ^ min nbits 32)) with
  | .command i => some i
  | .illegal _ => none

end Sys2Proof
end

