-- ==== Sys2Proof/Config.lean ====
section
/-!
DEFINITION. The static parameters of the block (spec/00_scope.md rule R7) and the free values: the constants without a body that
stand for everything the spec leaves to the platform, to chance, or to another agent's timing.

The parameters are PLAIN DATA and every machine state carries its own copy, which no step changes, so a statement about every
state is a statement about every build of the block. `Config.build` is the ONE build the machine `Sys2Proof.core` is reset with:
the example build of spec/95_test_vectors.md (DESIGN CHOICE, log entry 1; unsafe for a claim that leans on one of its values).
-/

namespace Sys2Proof

/-- Which SURF addressing model is built (R7 `VARIANT`, R8). -/
inductive Variant where
  | windowedRam
  | pagedMono
  deriving DecidableEq, Repr

/-- Byte order of a pixel on the wire (R77, R78). -/
inductive PixOrder where
  | hiFirst
  | loFirst
  deriving DecidableEq, Repr

/-- A parameter of R7 that is a function: the spec's default, or any other function, number `k`, about which nothing is known
(a free value of `Config`). Held as data so that a state stays comparable. -/
inductive FnChoice where
  | default
  | other (k : Nat)
  deriving DecidableEq, Repr

/-- One item of the opaque initialization table `INIT_SEQ` (R7, R274). -/
inductive InitItem where
  | cmd (b : Byte)
  | data (bs : List Byte)
  deriving DecidableEq, Repr

/-- The orientation-control byte of each rotation code (R7 `ORIENT[0..3]`, R119). -/
structure Orient where
  r0 : Byte
  r1 : Byte
  r2 : Byte
  r3 : Byte
  deriving DecidableEq, Repr

/-- One step an agent may take (R12), as the order of the agents' steps is written down. `PANEL` has no step. -/
inductive Event where
  /-- `HOST` takes its next step: it goes on with the operation it is blocked in, or performs its next bus action. -/
  | host
  /-- `DMA` takes its step, a shift or the finish (R230, R231). -/
  | dma
  /-- `NOTIFY` delivers the pending completion at place `k`: R232's "choose any s". -/
  | notify (k : Nat)
  /-- `CLOCK` ticks (R233). -/
  | clock
  /-- `SOURCE` appends the sample word `w`, whose value the spec does not fix, to the FIFO (R310). -/
  | source (w : Word)
  /-- The platform's reset input (R370). -/
  | reset
  deriving DecidableEq, Repr, Inhabited

/-- The usual 8 × 8 ordered-dither matrix, the default of `BAYER`, row by row (R162). PRESUMED by the spec itself (general
knowledge). -/
def defaultBayer : List (BitVec 6) :=
  [ 0, 32,  8, 40,  2, 34, 10, 42] ++
  [48, 16, 56, 24, 50, 18, 58, 26] ++
  [12, 44,  4, 36, 14, 46,  6, 38] ++
  [60, 28, 52, 20, 62, 30, 54, 22] ++
  [ 3, 35, 11, 43,  1, 33,  9, 41] ++
  [51, 19, 59, 27, 49, 17, 57, 25] ++
  [15, 47,  7, 39, 13, 45,  5, 37] ++
  [63, 31, 55, 23, 61, 29, 53, 21]

/-- The static parameters of R7, Table 2, with the defaults that table gives. A parameter without a default here is OPEN in the
spec. (Table 1, the values the source fixes, stands in the rules that use them.) -/
structure Params where
  variant : Variant
  nativeW : BitVec 16
  nativeH : BitVec 16
  scratchBytes : Nat
  chunkPix : Nat := scratchBytes / 2
  xferTimeoutMs : BitVec 24
  dmaPresent : Bool
  memBytes : Nat
  mapMax : BitVec 16
  opCaset : Byte := 0x2A
  opRaset : Byte := 0x2B
  opRamwr : Byte := 0x2C
  opMadctl : Byte := 0x36
  orient : Orient
  opColLo : Byte := 0x00
  opColHi : Byte := 0x10
  colOffset : Byte := 0
  pixOrderDma : PixOrder := .hiFirst
  bayer : List (BitVec 6) := defaultBayer
  luma : FnChoice := .default
  fsShare : FnChoice := .default
  monoT : Int := 128
  initSeq : List InitItem
  regBase : Nat
  memBase : Nat
  deriving DecidableEq, Repr

namespace Config

/-- Free values drawn by the block: `chan_claim_ok`, `alloc_ok` (R212) and `panel_ack` (R274), one for each draw. -/
opaque draw : Nat → Bool

/-- The order in which the agents step, beyond what a state writes down: any interleaving (R12, R344). -/
opaque event : Nat → Event

/-- A luminance function other than the default (R161): any total function of the pixel into 0..255. -/
opaque lumaOther : Nat → Pixel → Byte

/-- A share function other than the default (R184): any function of the error and the weight. -/
opaque fsShareOther : Nat → Int → Nat → Int

/-- What the scratch buffer holds once a transfer has been aborted or has completed, and once TEFREE has given it back: any value
(R38, R213, spec/93_implementation_defined.md section 2; log entry 9). -/
opaque freeScratch : Nat → List Byte

/-- What MEM holds after the platform's reset (R60: unspecified). -/
opaque resetCells : Nat → List Host.Cell

/-- What the scratch buffer holds after the platform's reset (R60: unspecified). -/
opaque resetScratch : Nat → List Byte

/-- What `now_ms` holds after the platform's reset (R60: unspecified). -/
opaque resetNow : Nat → Word

/-- The build `Sys2Proof.core` is reset with: the example parameters of spec/95_test_vectors.md. DESIGN CHOICE (log entry 1): the
spec leaves these parameters OPEN; and three of them, `INIT_SEQ` empty, `REG_BASE` 0 and `MEM_BASE` 0x1000, are in no example of the
spec either but the model's own. No statement rests on any of them: statements are over every state, hence over every `Params`. -/
def build : Params :=
  { variant := .windowedRam
    nativeW := 240
    nativeH := 320
    scratchBytes := 8
    xferTimeoutMs := 100
    dmaPresent := true
    memBytes := 0x4000
    mapMax := 512
    orient := { r0 := 0xA0, r1 := 0xA1, r2 := 0xA2, r3 := 0xA3 }
    initSeq := []
    regBase := 0
    memBase := 0x1000 }

end Config

end Sys2Proof
end

