-- ==== Sys2Proof/Machine/State.lean ====
section
/-!
DEFINITION. The whole state of the machine (spec/10_state.md rules R20 to R52; spec/47_frame_sequence.md rules R310 to R316 for the
host's side), the reasons a step can stop, and reset (R60, R370). State is plain data. What the host and the other agents still
have to do stands in it as data too: the host's action list and position (R22, R109), the operation the host is blocked in (R12,
R13), and the order of the agents' steps.
-/

namespace Sys2Proof.Machine

/-! ## Host port -/

/-- The eight operand registers, 32 bits each, written by the host only (R21). -/
structure OperandRegs where
  a0 : Word
  a1 : Word
  a2 : Word
  a3 : Word
  a4 : Word
  a5 : Word
  a6 : Word
  a7 : Word
  deriving DecidableEq, Repr

/-- The palette registers `PAL0`..`PAL3` (R30). -/
structure Palette where
  p0 : Pixel
  p1 : Pixel
  p2 : Pixel
  p3 : Pixel
  deriving DecidableEq, Repr

/-- The registers the host reaches that belong to no unit (R21, R27, R28, R30, R33). -/
structure Port where
  /-- `A0`..`A7` (R21). -/
  a : OperandRegs
  /-- `RES[0]`, the result of the last operation that completed; bits [31:1] read 0 (R27). -/
  res : Bool
  /-- `FAULT`: `CODE` in bits [7:0], `OP` in bits [15:8] (R28). -/
  fault : Word
  /-- Set by the first fault, cleared by reset only (R340). -/
  faulted : Bool
  /-- `MAPSEL`: `IDX` in bits [15:0], `AXIS` in bit [16] (R33). -/
  mapSel : BitVec 17
  /-- `PAL0`..`PAL3` (R30). -/
  pal : Palette
  /-- `TONEL`, the source's `toneLight` (R30). -/
  toneL : Pixel
  /-- `TONED`, the source's `toneDark` (R30). -/
  toneD : Pixel
  deriving DecidableEq, Repr

/-! ## TE -/

/-- The five values of `te_state` (R35). -/
inductive TeState where
  | idle
  | selectedCommand
  | selectedData
  | dmaBusy
  | aborted
  deriving DecidableEq, Repr

/-- The in-flight record of the DMA channel (R39). -/
structure DmaRec where
  seq : Nat
  len : Nat
  pos : Nat
  deriving DecidableEq, Repr

/-- The transfer engine (R35 to R42). -/
structure Engine where
  /-- `te_state` (R35). -/
  st : TeState
  /-- `cs`: true when chip select is asserted (R36). -/
  cs : Bool
  /-- `dc`: the level of the data/command line, true high (data), false low (command) (R36). -/
  dc : Bool
  /-- `te_inited` (R37). -/
  inited : Bool
  /-- `dma_ok` (R37). -/
  dmaOk : Bool
  /-- The scratch buffer, `SCRATCH_BYTES` bytes (R38). -/
  scratch : List Byte
  /-- `dma` (R39). -/
  dma : Option DmaRec
  /-- `xfer_seq`, a natural number in the model (R40). -/
  xferSeq : Nat
  /-- `note_pending`, a set: a list with no repeats (R41). -/
  notePending : List Nat
  /-- `now_ms` (R42). -/
  nowMs : Word
  deriving DecidableEq, Repr

/-- One event on the SPI bus (R80). `byte d b`: `d` is the level of the data/command line. -/
inductive WireEvent where
  | sel
  | desel
  | byte (d : Bool) (b : Byte)
  deriving DecidableEq, Repr

/-! ## SURF -/

/-- The shadow of the panel's address window (R45). -/
structure Window where
  armed : Bool
  x0 : BitVec 16
  y0 : BitVec 16
  x1 : BitVec 16
  y1 : BitVec 16
  total : Word
  remaining : Word
  deriving DecidableEq, Repr

/-- The display surface (R44, R45). -/
structure Surface where
  width : BitVec 16
  height : BitVec 16
  rotation : BitVec 2
  win : Window
  deriving DecidableEq, Repr

/-! ## RSM -/

/-- The scale maps (R46, R47). `xmap` and `ymap` hold the entries a build has written; an entry beyond them holds no value and is
never read (R46). -/
structure MapUnit where
  valid : Bool
  sw : BitVec 16
  sh : BitVec 16
  dw : BitVec 16
  dh : BitVec 16
  xmap : List (BitVec 16)
  ymap : List (BitVec 16)
  deriving DecidableEq, Repr

/-! ## MEM -/

/-- The frame memory (R70), in canonical form: (address, byte) pairs, addresses strictly rising, no pair equal to what an unlisted
address reads as (`memUnlisted`). -/
abbrev Memory := List Host.Cell

/-! ## The operation the host is blocked in -/

/-- Where the pixels of a burst come from: the function `P` of R262, as data. -/
inductive PixSrc where
  /-- `P(i)` is pixel `i` of a run at byte address `a` (PUSHPIX, R268). -/
  | run (a : Nat)
  /-- `P(i)` is one colour (FILLRECT, R266; CLEAR, R272). -/
  | solid (c : Pixel)
  /-- `P(i)` is the pixel of column `dx + i mod cw`, row `dy + i / cw` of the image at `a` with rows of `w` pixels (DRAWIMG, R264). -/
  | image (a w dx dy cw : Nat)
  deriving DecidableEq, Repr

/-- Where a WAIT stands (R208): before its first pass, between two passes with the time it started at, or between the pass that saw
the timeout and the abort. -/
inductive WaitPhase where
  | start
  | poll (t0 : Word)
  | abort
  deriving DecidableEq, Repr

/-- An operation that has begun and not ended (R13 "it holds"): what it still has to do. -/
inductive PendingOp where
  /-- WAIT `ms` (R208). -/
  | wait (ms : Nat) (ph : WaitPhase)
  /-- WRBULKA holding until the transfer in flight has ended, with the pixels it will then send (R206). -/
  | bulkHold (pix : List Pixel)
  /-- A burst of `total` pixels whose chunk of `n` pixels from number `i` is in flight (R262). -/
  | burst (src : PixSrc) (total i n : Nat) (ph : WaitPhase)
  deriving DecidableEq, Repr

/-! ## The host -/

/-- The ditherer the frame loop uses (R316 `dither`). -/
inductive Dither where
  | none
  | bayer
  | fs
  deriving DecidableEq, Repr

/-- The host's configuration of the frame loop (R316). `bg` is the background colour CLEAR gets in `A4`, none on a paged panel (R318).
`pal` is the host's own palette, the four values it maps samples with (R317): the other copy of `PAL0`..`PAL3`, which nothing but the
host keeps equal (R387, D55; log entry 15). -/
structure FrameCfg where
  src : Word
  dst : Word
  offx : Word
  offy : Word
  dw : Word
  dh : Word
  dither : Dither
  bg : Option Pixel
  pal : Palette
  deriving DecidableEq, Repr

/-- Where the frame loop of R316 stands. `w` is the word that showed the edge, pixel 0 of the frame. -/
inductive LoopPhase where
  | poll
  | clear (w : Word)
  | first (w : Word)
  | capture (i : Nat)
  | resample
  | dither
  | draw
  | finish
  deriving DecidableEq, Repr

/-- The frame loop the host runs, if it runs it. -/
structure FrameLoop where
  cfg : FrameCfg
  phase : LoopPhase
  deriving DecidableEq, Repr

/-- One action of the host on its bus (R107, R109), or the host turning to its frame loop (R315, R316). -/
inductive HostAction where
  /-- `WR reg, value`: a write of number `0x00`, `CMD`, issues a command (R25). -/
  | wr (n : BitVec 6) (v : Word)
  /-- `RD reg`. -/
  | rd (n : BitVec 6)
  /-- `ST8 addr, value`. -/
  | st8 (a : Nat) (v : Byte)
  /-- `LD8 addr`. -/
  | ld8 (a : Nat)
  /-- `ST16 addr, value`. -/
  | st16 (a : Nat) (v : Pixel)
  /-- `LD16 addr`. -/
  | ld16 (a : Nat)
  /-- `FifoRead()` (R311). -/
  | fifoRead
  /-- The host starts its frame loop (R316). -/
  | runLoop (cfg : FrameCfg)
  deriving DecidableEq, Repr

/-- The host's own state (R22 `hpc`, R109, R310, R314). -/
structure HostSide where
  /-- The host's action list (R109). -/
  prog : List HostAction
  /-- `hpc`, the index of the next action (R22, R109). -/
  hpc : Nat
  /-- MODEL'S OWN: every value the host has read, oldest first (an observation, as `wire` is). -/
  reads : List Word
  /-- The frame loop, once started (R316). -/
  loop : Option FrameLoop
  /-- `prev_vsync` (R314). -/
  prevVsync : Bool
  /-- `edge` (R314). -/
  edge : Bool
  /-- `first_done` (R314). -/
  firstDone : Bool
  /-- The sample FIFO between SOURCE and the host, oldest word first (R310). -/
  fifo : List Word
  deriving DecidableEq, Repr

/-- MODEL'S OWN: what decides the free choices. `sched` is an interleaving written down in advance, as plain data; when it is used
up the next agent is the free value `Config.event turn`. `draws` numbers the free values drawn so far. -/
structure Env where
  sched : List Event
  turn : Nat
  draws : Nat
  deriving DecidableEq, Repr

/-! ## The state -/

/-- The machine: the static parameters (never written), the block, and what acts on it. -/
structure State where
  params : Params
  port : Port
  te : Engine
  wire : List WireEvent
  surf : Surface
  rsm : MapUnit
  mem : Memory
  pending : Option PendingOp
  host : HostSide
  env : Env
  deriving DecidableEq, Repr

/-! ## Faults of the block, and the ways a step of the model stops -/

/-- The fault codes of R341. A fault of the block is NOT a stop of the model: it is a next state with `FAULT` latched (R340). -/
inductive FaultCode where
  | illegalCmd
  | busConflict
  | buffer
  | align
  | winUnarmed
  | winOverrun
  | winUnderrun
  | param
  | mapInvalid
  | notPalette
  deriving DecidableEq, Repr

/-- Why a step stops with a fault of the model. -/
inductive Fault where
  /-- Raised by a host `LD8`, `ST8`, `LD16` or `ST16` at an address outside MEM, which the spec says does not exist and leaves to the
  platform (R70, R93). SAFE: nothing is claimed about what the platform then does. -/
  | hostOutsideMem (a : Nat)
  deriving DecidableEq, Repr

/-- Why a step is refused. -/
inductive Refusal where
  /-- An instruction that has no meaning yet; no arm of `exec` answers with it. SAFE. -/
  | notModelled (mnemonic : String)
  /-- Raised by a host `LD16` or `ST16` at an odd address, which "is the platform's to refuse" (R93). SAFE. -/
  | hostMisaligned (a : Nat)
  deriving DecidableEq, Repr

/-! ## Reset -/

/-- The values R60 calls unspecified: drawn once at reset. -/
structure Unspec where
  mem : Memory
  scratch : List Byte
  nowMs : Word
  deriving DecidableEq, Repr

/-- A scratch buffer of exactly `n` bytes with the content `bs`, as far as it goes. -/
def fitScratch (n : Nat) (bs : List Byte) : List Byte := (bs ++ List.replicate n 0).take n

/-- The host port after reset (R60). -/
def Port.atReset : Port :=
  { a := { a0 := 0, a1 := 0, a2 := 0, a3 := 0, a4 := 0, a5 := 0, a6 := 0, a7 := 0 }
    res := false, fault := 0, faulted := false, mapSel := 0
    pal := { p0 := 0, p1 := 0, p2 := 0, p3 := 0 }
    toneL := 0, toneD := 0 }

/-- The transfer engine after reset (R60). -/
def Engine.atReset (p : Params) (u : Unspec) : Engine :=
  { st := .idle, cs := false, dc := true, inited := false, dmaOk := false
    scratch := fitScratch p.scratchBytes u.scratch
    dma := none, xferSeq := 0, notePending := [], nowMs := u.nowMs }

/-- The surface after reset (R60): the native size, rotation 0, no window. -/
def Surface.atReset (p : Params) : Surface :=
  { width := p.nativeW, height := p.nativeH, rotation := 0
    win := { armed := false, x0 := 0, y0 := 0, x1 := 0, y1 := 0, total := 0, remaining := 0 } }

/-- The maps after reset (R60): none valid. -/
def MapUnit.atReset : MapUnit :=
  { valid := false, sw := 0, sh := 0, dw := 0, dh := 0, xmap := [], ymap := [] }

/-- The host at its startup: no action to take, and the values of R314. -/
def HostSide.atStartup : HostSide :=
  { prog := [], hpc := 0, reads := [], loop := none
    prevVsync := false, edge := false, firstDone := false, fifo := [] }

/-- The machine right after reset (R60, R370), for a build `p` and any values `u` of what R60 leaves unspecified. -/
def State.resetWith (p : Params) (u : Unspec) : State :=
  { params := p
    port := Port.atReset
    te := Engine.atReset p u
    wire := []
    surf := Surface.atReset p
    rsm := MapUnit.atReset
    mem := u.mem
    pending := none
    host := HostSide.atStartup
    env := { sched := [], turn := 0, draws := 0 } }

/-- The machine right after reset: the build `Config.build` (DESIGN CHOICE, log entry 1), with nothing listed in MEM, a scratch buffer
of zeros and `now_ms` zero where R60 leaves them unspecified (DESIGN CHOICE, log entry 2). -/
def State.reset : State :=
  State.resetWith Config.build { mem := [], scratch := [], nowMs := 0 }

end Sys2Proof.Machine
end

