-- ==== Sys2Proof/Machine/Memory.lean ====
section
/-!
DEFINITION. The frame memory MEM (spec/20_memory.md rules R70 to R76): bytes, little-endian pixels, the checks an access and a buffer
pass, and the canonical form of the list that holds it.
-/

namespace Sys2Proof.Machine

/-! ## The canonical list -/

/-- What a byte that nothing has written reads as. DESIGN CHOICE (log entry 3): R60 leaves MEM unspecified at reset. -/
def memUnlisted : Byte := 0

/-- The byte at an address (R70: the last value written to it). -/
def memRead : Memory → Nat → Byte
  | [], _ => memUnlisted
  | (b, v) :: rest, a => if b = a then v else memRead rest a

/-- Writing one byte, keeping the canonical form: a byte that takes the unlisted value leaves the list. -/
def memWrite : Memory → Nat → Byte → Memory
  | [], a, v => if v = memUnlisted then [] else [(a, v)]
  | (b, x) :: rest, a, v =>
    if a < b then (if v = memUnlisted then (b, x) :: rest else (a, v) :: (b, x) :: rest)
    else if a = b then (if v = memUnlisted then rest else (a, v) :: rest)
    else (b, x) :: memWrite rest a v

/-- Every listed address is at least `lo`, they rise strictly, and no listed byte has the unlisted value. -/
def memSortedFrom (lo : Nat) : Memory → Bool
  | [] => true
  | (a, v) :: rest => decide (lo ≤ a) && v != memUnlisted && memSortedFrom (a + 1) rest

/-- The canonical form of MEM. -/
def Memory.wf (m : Memory) : Bool := memSortedFrom 0 m

/-- Every listed address lies inside MEM (R70). -/
def memInside (n : Nat) (m : Memory) : Bool := m.all fun c => decide (c.1 < n)

/-- The canonical memory of `n` bytes that a list of cells describes; cells outside MEM are dropped. -/
def memOfCells (n : Nat) (cells : List Host.Cell) : Memory :=
  cells.foldl (fun m c => if c.1 < n then memWrite m c.1 c.2 else m) []

/-! ## Halves of a pixel, little-endian pixels -/

/-- `hi8(v) = v[15:8]` (R9). -/
def hi8 (v : BitVec 16) : Byte := v.extractLsb' 8 8

/-- `lo8(v) = v[7:0]` (R9). -/
def lo8 (v : BitVec 16) : Byte := v.extractLsb' 0 8

/-- `MemRead(a, 2)` inside a checked buffer: `MEM[a+1] ++ MEM[a]` (R71, R73). -/
def memReadPix (m : Memory) (a : Nat) : Pixel := memRead m (a + 1) ++ memRead m a

/-- `MemWrite(a, 2, v)` inside a checked buffer: `lo8` at `a`, `hi8` at `a + 1` (R71, R74). -/
def memWritePix (m : Memory) (a : Nat) (v : Pixel) : Memory :=
  memWrite (memWrite m a (lo8 v)) (a + 1) (hi8 v)

/-! ## Checks -/

/-- The requirement of an 8-bit access (R72). -/
def memAccess8 (p : Params) (a : Nat) : Option FaultCode :=
  if a < p.memBytes then none else some .buffer

/-- The requirements of a 16-bit access, alignment first (R73). -/
def memAccess16 (p : Params) (a : Nat) : Option FaultCode :=
  if a % 2 ≠ 0 then some .align
  else if a + 1 < p.memBytes then none
  else some .buffer

/-- `CheckBuf(a, nbytes, align)` (R75): alignment, then range, in exact arithmetic. -/
def checkBuf (p : Params) (a nbytes align : Nat) : Option FaultCode :=
  if align = 2 ∧ a % 2 = 1 then some .align
  else if a + nbytes > p.memBytes then some .buffer
  else none

/-- `Disjoint(a, na, b, nb)`: the two byte ranges share no byte (R76). An empty range shares none. -/
def disjointRanges (a na b nb : Nat) : Bool :=
  decide (na = 0) || decide (nb = 0) || decide (a + na ≤ b) || decide (b + nb ≤ a)

end Sys2Proof.Machine
end

