-- ==== Sys2Proof/Machine/Operands.lean ====
section
/-!
DEFINITION. The operand forms of the commands (spec/30_encoding.md rules R102, R103), rectangles and clipping
(spec/00_scope.md rule R11, spec/45_surface_windowed.md rule R251), and the byte strings the block puts on the wire
(spec/20_memory.md rule R78). All arithmetic is exact, in Nat or Int (R18).
-/

namespace Sys2Proof.Machine

/-! ## Reading an operand register by its role (R103) -/

/-- A coordinate, or a width or height of a rectangle: `s32(A[i])`. -/
abbrev asCoord (v : Word) : Int := v.toInt

/-- An address, a count, a dimension or a scale: `A[i]` as an unsigned integer. -/
abbrev asUnsigned (v : Word) : Nat := v.toNat

/-- A colour: bits [15:0]; bits [31:16] are ignored. -/
abbrev asColour (v : Word) : Pixel := v.extractLsb' 0 16

/-- The largest dimension of a buffer or of a map (R103); more is a `PARAM` fault. -/
def maxDim : Nat := 65535

/-! ## Rectangles (R11) and clipping (R251) -/

/-- A rectangle inside the panel, with inclusive corners (R11). -/
structure Rect where
  x0 : Nat
  y0 : Nat
  x1 : Nat
  y1 : Nat
  deriving DecidableEq, Repr

/-- The number of columns of a rectangle. -/
def rectCols (c : Rect) : Nat := c.x1 - c.x0 + 1

/-- The number of rows of a rectangle. -/
def rectRows (c : Rect) : Nat := c.y1 - c.y0 + 1

/-- The pixel count of a rectangle (R11). -/
def rectCount (c : Rect) : Nat := rectCols c * rectRows c

/-- `ClipRect(x, y, w, h)` against a panel of `width` × `height` (R251); `none` is the silent no-op. -/
def clipRect (width height : Nat) (x y w h : Int) : Option Rect :=
  if w ≤ 0 ∨ h ≤ 0 then none
  else
    let cx0 := max x 0
    let cx1 := min (x + w - 1) ((width : Int) - 1)
    let cy0 := max y 0
    let cy1 := min (y + h - 1) ((height : Int) - 1)
    if cx0 > cx1 ∨ cy0 > cy1 then none
    else some { x0 := cx0.toNat, y0 := cy0.toNat, x1 := cx1.toNat, y1 := cy1.toNat }

/-- `ClipRect` against the current, rotated size of the panel (R251). -/
def clipToPanel (s : State) (x y w h : Int) : Option Rect :=
  clipRect s.surf.width.toNat s.surf.height.toNat x y w h

/-- The rectangle `(x, y, w, h)` that `A0`..`A3` give DRAWIMG and FILLRECT, clipped (R264, R266). -/
def clipOperands (s : State) : Option Rect :=
  clipToPanel s (asCoord s.port.a.a0) (asCoord s.port.a.a1) (asCoord s.port.a.a2) (asCoord s.port.a.a3)

/-! ## Bytes for the wire (R77, R78) -/

/-- `PixBytes(p, order)` (R78). -/
def pixBytes (order : PixOrder) (p : Pixel) : List Byte :=
  match order with
  | .hiFirst => [hi8 p, lo8 p]
  | .loFirst => [lo8 p, hi8 p]

/-- The bytes of a run of pixels, in order. -/
def pixRunBytes (order : PixOrder) (pix : List Pixel) : List Byte := pix.flatMap (pixBytes order)

/-- `RangeBytes(a, b)`: two 16-bit values, high byte first (R78). -/
def rangeBytes (a b : BitVec 16) : List Byte := [hi8 a, lo8 a, hi8 b, lo8 b]

/-! ## Where an operand buffer lies -/

/-- The byte address of pixel `(x, y)` of a buffer at `base` with rows of `W` pixels (R11, R93). -/
def pixAddr (base W x y : Nat) : Nat := base + 2 * (y * W + x)

/-- Pixel `i` of a burst (R262, R264, R266, R268). -/
def pixAt (m : Memory) (src : PixSrc) (i : Nat) : Pixel :=
  match src with
  | .run a => memReadPix m (a + 2 * i)
  | .solid c => c
  | .image a w dx dy cw => memReadPix m (pixAddr a w (dx + i % cw) (dy + i / cw))

/-- The pixels `P(i), ..., P(i + n - 1)` of a burst (R262). -/
def pixChunk (m : Memory) (src : PixSrc) (i n : Nat) : List Pixel :=
  (List.range n).map fun k => pixAt m src (i + k)

/-- The bytes at `a, ..., a + n - 1`, in ascending address order (R204). -/
def memBytesAt (m : Memory) (a n : Nat) : List Byte := (List.range n).map fun k => memRead m (a + k)

end Sys2Proof.Machine
end

