-- ==== Sys2Proof/Machine/Flags.lean ====
section
/-!
DEFINITION. The flags and the read-only mirrors (spec/10_state.md rules R23, R26 to R33): the fault codes and the value of each
register of the register space, computed from the state; and the host's writes to it (R24, R34).
-/

namespace Sys2Proof.Machine

/-- `FAULT.CODE` of each fault (R341). -/
def faultCodeByte : FaultCode → Byte
  | .illegalCmd => 1
  | .busConflict => 2
  | .buffer => 3
  | .align => 4
  | .winUnarmed => 5
  | .winOverrun => 6
  | .winUnderrun => 7
  | .param => 8
  | .mapInvalid => 9
  | .notPalette => 10

/-- The value `FAULT` takes: `(op << 8) | code` (R28, R340). -/
def faultWord (op : Byte) (c : FaultCode) : Word := (0 : BitVec 16) ++ op ++ faultCodeByte c

/-- `STATUS.TE_STATE` (R26). -/
def teStateCode : TeState → BitVec 3
  | .idle => 0
  | .selectedCommand => 1
  | .selectedData => 2
  | .dmaBusy => 3
  | .aborted => 4

/-- `STATUS` (R26). -/
def statusWord (s : State) : Word :=
  (0 : BitVec 22) ++ BitVec.ofBool s.te.inited ++ BitVec.ofBool s.port.faulted ++ BitVec.ofBool s.rsm.valid ++
    BitVec.ofBool s.surf.win.armed ++ BitVec.ofBool s.te.dmaOk ++ BitVec.ofBool s.te.dc ++ BitVec.ofBool s.te.cs ++
    teStateCode s.te.st

/-- `RES` (R27): bits [31:1] read 0. -/
def resWord (s : State) : Word := (0 : BitVec 31) ++ BitVec.ofBool s.port.res

/-- `GEOM` (R31): the height above the width. -/
def geomWord (s : State) : Word := s.surf.height ++ s.surf.width

/-- `ROT` (R31). -/
def rotWord (s : State) : Word := (0 : BitVec 30) ++ s.surf.rotation

/-- `WINX` (R32): 0 when no window is armed. -/
def winxWord (s : State) : Word := if s.surf.win.armed then s.surf.win.x1 ++ s.surf.win.x0 else 0

/-- `WINY` (R32): 0 when no window is armed. -/
def winyWord (s : State) : Word := if s.surf.win.armed then s.surf.win.y1 ++ s.surf.win.y0 else 0

/-- `WINREM` (R32): 0 when no window is armed. -/
def winremWord (s : State) : Word := if s.surf.win.armed then s.surf.win.remaining else 0

/-- `MAPSRC` (R33). -/
def mapsrcWord (s : State) : Word := s.rsm.sh ++ s.rsm.sw

/-- `MAPDST` (R33). -/
def mapdstWord (s : State) : Word := s.rsm.dh ++ s.rsm.dw

/-- `MAPSEL.IDX` (R33). -/
def mapselIdx (s : State) : Nat := (s.port.mapSel.extractLsb' 0 16).toNat

/-- `MAPSEL.AXIS` (R33): 0 selects `xmap`, 1 selects `ymap`. -/
def mapselAxis (s : State) : Bool := s.port.mapSel.getLsbD 16

/-- `MAPDATA` (R33): the selected entry, 0 when there is none. -/
def mapdataEntry (s : State) : BitVec 16 :=
  if s.rsm.valid then
    if mapselAxis s then
      if mapselIdx s < s.rsm.dh.toNat then s.rsm.ymap.getD (mapselIdx s) 0 else 0
    else
      if mapselIdx s < s.rsm.dw.toNat then s.rsm.xmap.getD (mapselIdx s) 0 else 0
  else 0

/-- A 16-bit register in the low bits of a read (R24: the high bits read 0). -/
def low16 (v : BitVec 16) : Word := (0 : BitVec 16) ++ v

/-- A host read of register number `n` (R24). A number that is not in the table, and the write-only `CMD`, read 0. -/
def regRead (s : State) (n : BitVec 6) : Word :=
  match n.toNat with
  | 0x01 => resWord s
  | 0x02 => statusWord s
  | 0x03 => s.port.fault
  | 0x04 => s.te.nowMs
  | 0x08 => s.port.a.a0
  | 0x09 => s.port.a.a1
  | 0x0A => s.port.a.a2
  | 0x0B => s.port.a.a3
  | 0x0C => s.port.a.a4
  | 0x0D => s.port.a.a5
  | 0x0E => s.port.a.a6
  | 0x0F => s.port.a.a7
  | 0x10 => low16 s.port.pal.p0
  | 0x11 => low16 s.port.pal.p1
  | 0x12 => low16 s.port.pal.p2
  | 0x13 => low16 s.port.pal.p3
  | 0x14 => low16 s.port.toneL
  | 0x15 => low16 s.port.toneD
  | 0x18 => geomWord s
  | 0x19 => rotWord s
  | 0x1A => winxWord s
  | 0x1B => winyWord s
  | 0x1C => winremWord s
  | 0x1D => mapsrcWord s
  | 0x1E => mapdstWord s
  | 0x1F => (0 : BitVec 15) ++ s.port.mapSel
  | 0x20 => low16 (mapdataEntry s)
  | _ => 0

/-- The host port after a host write of `v` to register number `n` other than `CMD` (R24): a read-only or reserved number ignores
it, a narrow register takes the low bits. -/
def portWrite (p : Port) (n : BitVec 6) (v : Word) : Port :=
  match n.toNat with
  | 0x08 => { p with a := { p.a with a0 := v } }
  | 0x09 => { p with a := { p.a with a1 := v } }
  | 0x0A => { p with a := { p.a with a2 := v } }
  | 0x0B => { p with a := { p.a with a3 := v } }
  | 0x0C => { p with a := { p.a with a4 := v } }
  | 0x0D => { p with a := { p.a with a5 := v } }
  | 0x0E => { p with a := { p.a with a6 := v } }
  | 0x0F => { p with a := { p.a with a7 := v } }
  | 0x10 => { p with pal := { p.pal with p0 := v.extractLsb' 0 16 } }
  | 0x11 => { p with pal := { p.pal with p1 := v.extractLsb' 0 16 } }
  | 0x12 => { p with pal := { p.pal with p2 := v.extractLsb' 0 16 } }
  | 0x13 => { p with pal := { p.pal with p3 := v.extractLsb' 0 16 } }
  | 0x14 => { p with toneL := v.extractLsb' 0 16 }
  | 0x15 => { p with toneD := v.extractLsb' 0 16 }
  | 0x1F => { p with mapSel := v.extractLsb' 0 17 }
  | _ => p

/-- A host write to a register other than `CMD` (R24, R34). -/
def regWrite (s : State) (n : BitVec 6) (v : Word) : State := { s with port := portWrite s.port n v }

/-- The byte offset of register number `n` on the host's bus (R24). -/
def regBusAddr (p : Params) (n : BitVec 6) : Nat := p.regBase + 4 * n.toNat

/-- Where the host's bus places byte `a` of MEM (R84). -/
def memBusAddr (p : Params) (a : Nat) : Nat := p.memBase + a

end Sys2Proof.Machine
end

