-- ==== Sys2Proof/Machine/Ops.lean ====
section
/-!
DEFINITION. The named operations the meanings are written over: ending an operation (spec/10_state.md rule R27), taking a fault
(spec/60_exceptions.md rules R340, R343), what the transfer engine does (spec/44_transfer_engine.md rules R205, R206, R208, R210), the
window and the burst (spec/45_surface_windowed.md rules R255 to R262), the page row (spec/46_surface_paged.md rules R292 to R295) and
the luminance (spec/42_dither_ordered.md rule R161).
-/

namespace Sys2Proof.Machine

/-! ## Ending an operation, and taking a fault -/

/-- `return v`: the operation completes and writes `RES` (R10, R27). -/
def complete (r : Bool) (s : State) : State := { s with port := { s.port with res := r } }

/-- `raise Fault(code)` by the command whose opcode byte is `op` (R340, R346): the FIRST fault latches `FAULT` and sets `faulted`;
nothing else changes, no handler is entered, and nothing but reset returns from it (R347). -/
def raiseFault (op : Byte) (c : FaultCode) (s : State) : State :=
  if s.port.faulted then s
  else { s with port := { s.port with fault := faultWord op c, faulted := true } }

/-- The first cause found, in the order the tests are made (R343). -/
def firstFault : List (Option FaultCode) → Option FaultCode
  | [] => none
  | some c :: _ => some c
  | none :: rest => firstFault rest

/-- A precise operation (R340, R343): every fault test comes before the first effect. -/
def guarded (op : Byte) (tests : List (Option FaultCode)) (effect : State → State) (s : State) : State :=
  match firstFault tests with
  | some c => raiseFault op c s
  | none => effect s

/-- One fault test: the code when the condition holds. -/
def faultIf (b : Bool) (c : FaultCode) : Option FaultCode := if b then some c else none

/-! ## The wire (R80) -/

/-- `Logical(wire)`: the bytes in order, each with the level of the data/command line, the chip-select events erased (R81). -/
def logical : List WireEvent → List (Bool × Byte)
  | [] => []
  | .sel :: rest => logical rest
  | .desel :: rest => logical rest
  | .byte d b :: rest => (d, b) :: logical rest

/-- The events of one chip-select frame that sends `bytes` at level `d` (R201, R205). -/
def frameEvents (d : Bool) (bytes : List Byte) : List WireEvent :=
  WireEvent.sel :: (bytes.map (WireEvent.byte d) ++ [WireEvent.desel])

/-- `win.armed <- 0` (R219, R256). -/
def disarm (s : State) : State :=
  { s with surf := { s.surf with win := { s.surf.win with armed := false } } }

/-! ## Transfer engine -/

/-- `te_state != Idle`: the test of R218. -/
def busTest (s : State) : Option FaultCode := faultIf (s.te.st != .idle) .busConflict

/-- `SyncSend(d, bytes)` (R205), taken as one step: `te_state` passes through `SelectedCommand` or `SelectedData` and is `Idle` at its
end, chip select is deasserted, and the line is left at `d`. -/
def syncSend (d : Bool) (bytes : List Byte) (s : State) : State :=
  { s with
    te := { s.te with st := .idle, cs := false, dc := d }
    wire := s.wire ++ frameEvents d bytes }

/-- A transfer is over, or the buffer has been given back: what `scratch` holds from here on is a free value (R38, R213,
spec/93_implementation_defined.md section 2; log entry 9). -/
def forgetScratch (s : State) : State :=
  { s with
    te := { s.te with scratch := fitScratch s.params.scratchBytes (Config.freeScratch s.env.draws) }
    env := { s.env with draws := s.env.draws + 1 } }

/-- `Abort`, one atomic step (R210): it acts in `DmaBusy` only, passes through `Aborted`, and ends in `Idle`. The numbers in
`note_pending` stay; the bytes of `scratch` mean nothing any more (R38). -/
def abortTransfer (s : State) : State :=
  if s.te.st = .dmaBusy then
    let s := forgetScratch s
    { s with
      te := { s.te with dma := none, st := .idle, cs := false }
      wire := s.wire ++ [WireEvent.desel]
      surf := { s.surf with win := { s.surf.win with armed := false } } }
  else s

/-- Arming a transfer of the pixels `pix`, one atomic step (R206): the bytes go into `scratch` in the order `PIX_ORDER_DMA`, the
transfer gets the next number, and the frame opens. -/
def armTransfer (pix : List Pixel) (s : State) : State :=
  { s with
    te :=
      { s.te with
        scratch := pixRunBytes s.params.pixOrderDma pix ++ s.te.scratch.drop (2 * pix.length)
        xferSeq := s.te.xferSeq + 1
        dma := some { seq := s.te.xferSeq + 1, len := 2 * pix.length, pos := 0 }
        dc := true
        cs := true
        st := .dmaBusy }
    wire := s.wire ++ [WireEvent.sel] }

/-- `BulkAsync` from its hold on (R206), for a channel that is not busy now: the state after it, and its result. `wasBusy` says the
channel was busy when the operation was issued. -/
def bulkSend (pix : List Pixel) (wasBusy : Bool) (s : State) : State × Bool :=
  if pix.isEmpty then (s, false)
  else if !s.te.dmaOk || wasBusy then (syncSend true (pixRunBytes .hiFirst pix) s, false)
  else (armTransfer pix s, true)

/-- WRBULKA from its hold on: `BulkAsync` and its return (R206). -/
def bulkReturn (pix : List Pixel) (wasBusy : Bool) (s : State) : State :=
  let r := bulkSend pix wasBusy s
  complete r.2 r.1

/-- What one step of a WAIT gives (R208). -/
inductive WaitStep where
  /-- `te_state` was seen to have left `DmaBusy`: WAIT returns 1. -/
  | done
  /-- The abort has run: WAIT returns 0. -/
  | timedOut
  /-- WAIT goes on, at the phase given. -/
  | again (ph : WaitPhase)
  deriving DecidableEq, Repr

/-- One pass of the loop of R208, with the start time `t0`: the state is tested before the time, and the difference of the two
readings is taken modulo 2^32. The abort is a step of its own. -/
def waitPass (ms : Nat) (t0 : Word) (s : State) : WaitStep :=
  if s.te.st ≠ .dmaBusy then .done
  else if ms ≤ (s.te.nowMs - t0).toNat then .again .abort
  else .again (.poll t0)

/-- One step of HOST inside WAIT (R208): the first pass reads the start time; a later pass uses it; the abort ends the wait. -/
def waitStep (ms : Nat) (ph : WaitPhase) (s : State) : WaitStep × State :=
  match ph with
  | .start => (waitPass ms s.te.nowMs s, s)
  | .poll t0 => (waitPass ms t0 s, s)
  | .abort => (.timedOut, abortTransfer s)

/-- One step of HOST inside the command WAIT (R208): it returns, or stays pending. -/
def waitOp (ms : Nat) (ph : WaitPhase) (s : State) : State :=
  match waitStep ms ph s with
  | (.done, s') => complete true s'
  | (.timedOut, s') => complete false s'
  | (.again ph', s') => { s' with pending := some (.wait ms ph') }

/-! ## Window and burst (windowed variant) -/

/-- A burst is partly written (R255). -/
def winPartly (w : Window) : Bool := w.armed && decide (w.remaining.toNat < w.total.toNat)

/-- The test of R255. -/
def underrunTest (s : State) : Option FaultCode := faultIf (winPartly s.surf.win) .winUnderrun

/-- The window `ArmWindow` leaves (R253, R257). -/
def windowOf (c : Rect) : Window :=
  { armed := true
    x0 := BitVec.ofNat 16 c.x0
    y0 := BitVec.ofNat 16 c.y0
    x1 := BitVec.ofNat 16 c.x1
    y1 := BitVec.ofNat 16 c.y1
    total := BitVec.ofNat 32 (rectCount c)
    remaining := BitVec.ofNat 32 (rectCount c) }

/-- What `ArmWindow` does after its tests (R257): the three transactions of R116 to R118, then the shadow. -/
def armWindow (c : Rect) (s : State) : State :=
  let s := syncSend false [s.params.opCaset] s
  let s := syncSend true (rangeBytes (BitVec.ofNat 16 c.x0) (BitVec.ofNat 16 c.x1)) s
  let s := syncSend false [s.params.opRaset] s
  let s := syncSend true (rangeBytes (BitVec.ofNat 16 c.y0) (BitVec.ofNat 16 c.y1)) s
  let s := syncSend false [s.params.opRamwr] s
  { s with surf := { s.surf with win := windowOf c } }

/-- Handing `n` pixels of a burst to TE (R253). -/
def takePixels (n : Nat) (s : State) : State :=
  { s with surf := { s.surf with win :=
      { s.surf.win with remaining := s.surf.win.remaining - BitVec.ofNat 32 n } } }

/-- The end of a burst all of whose pixels are sent (R262): a window whose count is reached is disarmed. -/
def burstDone (s : State) : State :=
  complete true (if s.surf.win.remaining = 0 then disarm s else s)

/-- The loop of `StreamBurst` (R262) from pixel `i` of `total`, in chunks of at most `CHUNK_PIX`. A chunk that goes synchronously is
followed by the next at once; a chunk that arms a transfer leaves the operation pending, at the start of its WAIT. `fuel` is the
number of pixels still to be sent. -/
def burstFrom : Nat → PixSrc → Nat → Nat → State → State
  | 0, _, _, _, s => burstDone s
  | fuel + 1, src, total, i, s =>
    if i < total then
      let n := min s.params.chunkPix (total - i)
      let r := bulkSend (pixChunk s.mem src i n) false s
      let s' := takePixels n r.1
      if r.2 then { s' with pending := some (.burst src total i n .start) }
      else burstFrom fuel src total (i + n) s'
    else burstDone s

/-- `StreamBurst(P, N)` (R262). -/
def streamBurst (src : PixSrc) (total : Nat) (s : State) : State := burstFrom total src total 0 s

/-- One step of HOST inside the WAIT of a burst (R262): the next chunk when the transfer has ended, the end of the operation with
`RES = 0` and no window when it has timed out (R263). -/
def burstOp (src : PixSrc) (total i n : Nat) (ph : WaitPhase) (s : State) : State :=
  match waitStep s.params.xferTimeoutMs.toNat ph s with
  | (.done, s') => burstFrom (total - (i + n)) src total (i + n) s'
  | (.timedOut, s') => complete false (disarm s')
  | (.again ph', s') => { s' with pending := some (.burst src total i n ph') }

/-! ## Luminance -/

/-- The default `Luma` (R161): RGB565 channels expanded to 8 bits, weights 77, 150, 29 over 256. PRESUMED by the spec itself
(general knowledge). -/
def lumaDefault (p : Pixel) : Nat :=
  let r5 := (p.extractLsb' 11 5).toNat
  let g6 := (p.extractLsb' 5 6).toNat
  let b5 := (p.extractLsb' 0 5).toNat
  let r8 := (r5 <<< 3) ||| (r5 >>> 2)
  let g8 := (g6 <<< 2) ||| (g6 >>> 4)
  let b8 := (b5 <<< 3) ||| (b5 >>> 2)
  (77 * r8 + 150 * g8 + 29 * b8) >>> 8

/-- `Luma(p)`, a parameter (R161): 0 to 255. -/
def luma (p : Params) (v : Pixel) : Nat :=
  match p.luma with
  | .default => lumaDefault v
  | .other k => (Config.lumaOther k v).toNat

/-! ## Page rows (paged variant) -/

/-- `OP_PAGE`, the one wire opcode of the source (R7 Table 1, R122). -/
def opPage : Byte := 0xB0

/-- The monochrome test (R294). -/
def lit (p : Params) (v : Pixel) : Bool := decide (p.monoT ≤ (luma p v : Int))

/-- `PageByte(p, c)` (R292): bit `k` is row `8p + k`, 1 when that row lies in the rectangle and its pixel is lit. -/
def pageByte (isLit : Nat → Nat → Bool) (c : Rect) (page col : Nat) : Byte :=
  BitVec.ofNat 8 <| (List.range 8).foldl
    (fun acc k =>
      if decide (c.y0 ≤ 8 * page + k) && decide (8 * page + k ≤ c.y1) && isLit col (8 * page + k)
      then acc + 2 ^ k else acc) 0

/-- The byte row of a page, one byte per column `cx0`..`cx1` (R293, R296). -/
def pageRow (isLit : Nat → Nat → Bool) (c : Rect) (page : Nat) : List Byte :=
  (List.range (rectCols c)).map fun k => pageByte isLit c page (c.x0 + k)

/-- `SendPageRow(p, cx0, bytes)` (R122, R123, R295). -/
def sendPageRow (page cx0 : Nat) (bytes : List Byte) (s : State) : State :=
  let c := cx0 + s.params.colOffset.toNat
  let s := syncSend false [opPage ||| BitVec.ofNat 8 page] s
  let s := syncSend false [s.params.opColLo ||| BitVec.ofNat 8 (c &&& 0x0F)] s
  let s := syncSend false [s.params.opColHi ||| BitVec.ofNat 8 (c >>> 4)] s
  syncSend true bytes s

/-- The pages `page0`, `page0 + 1`, ..., `n` of them, in ascending order (R293), each with the bytes `row` gives it. -/
def sendPages (page0 n cx0 : Nat) (row : Nat → List Byte) (s : State) : State :=
  (List.range n).foldl (fun s k => sendPageRow (page0 + k) cx0 (row (page0 + k)) s) s

/-- Drawing a clipped rectangle on a paged panel (R296, R298): pages `floor_div(cy0, 8)` to `floor_div(cy1, 8)`. -/
def drawPages (isLit : Nat → Nat → Bool) (c : Rect) (s : State) : State :=
  sendPages (c.y0 / 8) (c.y1 / 8 - c.y0 / 8 + 1) c.x0 (pageRow isLit c) s

/-! ## Initialization, free values -/

/-- One item of `INIT_SEQ` (R274); an empty `Data` sends nothing. -/
def sendInitItem (s : State) (item : InitItem) : State :=
  match item with
  | .cmd b => syncSend false [b] s
  | .data bs => if bs.isEmpty then s else syncSend true bs s

/-- Free value number `k` from here (R10 `draw`). -/
def drawBit (s : State) (k : Nat) : Bool := Config.draw (s.env.draws + k)

/-- `n` free values have been drawn. -/
def drawn (n : Nat) (s : State) : State := { s with env := { s.env with draws := s.env.draws + n } }

/-- The surface's starting state, set by SURFINIT (R274). -/
def nativeGeometry (s : State) : State :=
  { s with surf :=
      { s.surf with
        rotation := 0
        width := s.params.nativeW
        height := s.params.nativeH
        win := { s.surf.win with armed := false } } }

end Sys2Proof.Machine
end

