-- ==== Sys2Proof/Machine/Agents.lean ====
section
/-!
DEFINITION. The steps of the agents beside the host (spec/44_transfer_engine.md rules R230 to R234, spec/47_frame_sequence.md rule
R310), each atomic, and the platform's reset input (spec/70_reset_and_hazards.md rule R370). A step that is not enabled changes
nothing.
-/

namespace Sys2Proof.Machine

/-- Adding a number to the set `note_pending`. -/
def noteAdd (q : Nat) (notes : List Nat) : List Nat := if q ∈ notes then notes else notes ++ [q]

/-- Removing a number from the set `note_pending`. -/
def noteRemove (q : Nat) (notes : List Nat) : List Nat := notes.filter (· != q)

/-- `DMA`: a shift while bytes are left (R230), then the finish (R231). -/
def dmaStep (s : State) : State :=
  match s.te.dma with
  | none => s
  | some r =>
    if r.pos < r.len then
      { s with
        wire := s.wire ++ [WireEvent.byte true (s.te.scratch.getD r.pos 0)]
        te := { s.te with dma := some { r with pos := r.pos + 1 } } }
    else
      { s with te := { s.te with dma := none, notePending := noteAdd r.seq s.te.notePending } }

/-- The delivery of the completion `q` (R232): the current one ends the transfer, after which the bytes of `scratch` mean nothing any
more (R38); a stale one is only removed (R234). -/
def deliver (q : Nat) (s : State) : State :=
  let s' := { s with te := { s.te with notePending := noteRemove q s.te.notePending } }
  if s.te.st = .dmaBusy ∧ s.te.xferSeq = q then
    let s' := forgetScratch s'
    { s' with te := { s'.te with cs := false, st := .idle }, wire := s'.wire ++ [WireEvent.desel] }
  else s'

/-- `NOTIFY`, choosing the completion at place `k` (R232). -/
def notifyStep (k : Nat) (s : State) : State :=
  match s.te.notePending[k]? with
  | none => s
  | some q => deliver q s

/-- `CLOCK` (R233). -/
def clockStep (s : State) : State := { s with te := { s.te with nowMs := s.te.nowMs + 1 } }

/-- `SOURCE` appends the next sample word (R310). -/
def sourceStep (w : Word) (s : State) : State := { s with host := { s.host with fifo := s.host.fifo ++ [w] } }

/-- The values the platform's reset leaves unspecified, as free values (R60, R370). -/
def freeUnspec (s : State) : Unspec :=
  { mem := memOfCells s.params.memBytes (Config.resetCells s.env.draws)
    scratch := Config.resetScratch s.env.draws
    nowMs := Config.resetNow s.env.draws }

/-- The platform's reset input (R370): every element of the block takes its reset value, a transfer in flight is cut and forgotten,
and the operation the host was blocked in is gone. The host and the sample FIFO are outside the block and go on. -/
def platformReset (s : State) : State :=
  { drawn 1 s with
    port := Port.atReset
    te := Engine.atReset s.params (freeUnspec s)
    wire := []
    surf := Surface.atReset s.params
    rsm := MapUnit.atReset
    mem := (freeUnspec s).mem
    pending := none }

end Sys2Proof.Machine
end

