-- ==== Sys2Proof/Machine/Resampler.lean ====
section
/-!
DEFINITION. The two RSM operations (spec/41_scale_map.md rules R141, R142, R146).
-/

namespace Sys2Proof.Machine

/-- `MapEntry(d, q, n)`, exact (R142). -/
def mapEntry (d q n : Nat) : Nat := min (d * 65536 / q) (n - 1)

/-- One map of `len` entries over a source of `n` pixels (R141). -/
def buildMap (len q n : Nat) : List (BitVec 16) :=
  (List.range len).map fun d => BitVec.ofNat 16 (mapEntry d q n)

/-- BUILDMAPS (R141). -/
def execBuildmaps (s : State) : Host.Outcome State Fault Refusal :=
  let sw := asUnsigned s.port.a.a0
  let sh := asUnsigned s.port.a.a1
  let dw := asUnsigned s.port.a.a2
  let dh := asUnsigned s.port.a.a3
  let q := asUnsigned s.port.a.a4
  .next (guarded 0x40
    [faultIf (decide (maxDim < sw) || decide (maxDim < sh) || decide (maxDim < dw) || decide (maxDim < dh)) .param,
      faultIf (sw == 0 || sh == 0) .param,
      faultIf (decide (s.params.mapMax.toNat < dw) || decide (s.params.mapMax.toNat < dh)) .param,
      faultIf (q == 0) .param]
    (fun s => complete true
      { s with rsm :=
          { valid := true
            sw := BitVec.ofNat 16 sw
            sh := BitVec.ofNat 16 sh
            dw := BitVec.ofNat 16 dw
            dh := BitVec.ofNat 16 dh
            xmap := buildMap dw q sw
            ymap := buildMap dh q sh } }) s)

/-- The bytes of the source buffer of RESAMPLE (R146). -/
def srcBytes (u : MapUnit) : Nat := 2 * u.sw.toNat * u.sh.toNat

/-- The bytes of the destination buffer of RESAMPLE (R146). -/
def dstBytes (u : MapUnit) : Nat := 2 * u.dw.toNat * u.dh.toNat

/-- The source pixel the maps select for destination pixel `(x, y)` (R146). -/
def srcPixAddr (u : MapUnit) (src x y : Nat) : Nat :=
  pixAddr src u.sw.toNat (u.xmap.getD x 0).toNat (u.ymap.getD y 0).toNat

/-- A loop over the pixels of a `w` × `h` buffer, row by row, that changes MEM. -/
def forPixels (w h : Nat) (f : Memory → Nat → Nat → Memory) (m : Memory) : Memory :=
  (List.range h).foldl (fun m y => (List.range w).foldl (fun m x => f m x y) m) m

/-- The loop of RESAMPLE (R146). -/
def resampleMem (u : MapUnit) (src dst : Nat) (m : Memory) : Memory :=
  forPixels u.dw.toNat u.dh.toNat
    (fun m x y => memWritePix m (pixAddr dst u.dw.toNat x y) (memReadPix m (srcPixAddr u src x y))) m

/-- RESAMPLE (R146): MAP_INVALID, the source buffer, the destination buffer, the overlap, in that order (R343). -/
def execResample (s : State) : Host.Outcome State Fault Refusal :=
  let src := asUnsigned s.port.a.a0
  let dst := asUnsigned s.port.a.a1
  .next (guarded 0x41
    [faultIf (!s.rsm.valid) .mapInvalid, checkBuf s.params src (srcBytes s.rsm) 2,
      checkBuf s.params dst (dstBytes s.rsm) 2,
      faultIf (!disjointRanges src (srcBytes s.rsm) dst (dstBytes s.rsm)) .buffer]
    (fun s => complete true { s with mem := resampleMem s.rsm src dst s.mem }) s)

end Sys2Proof.Machine
end

