-- ==== Sys2Proof/Machine/Ditherers.lean ====
section
/-!
DEFINITION. The two ditherers: DITHB, ordered (spec/42_dither_ordered.md rules R162 to R166), and DITHFS, error diffusion
(spec/43_dither_error_diffusion.md rules R181 to R185). Both work in place on a `W` × `H` buffer in MEM.
-/

namespace Sys2Proof.Machine

/-! ## Ordered dithering -/

/-- `Thresh(L)` (R163). -/
def thresh (l : Nat) : Nat := (255 - l) * 64 / 255

/-- `BAYER[y & 7][x & 7]` (R162): the row is taken from `y`. -/
def bayerAt (p : Params) (x y : Nat) : Nat := (p.bayer.getD (8 * (y % 8) + x % 8) 0).toNat

/-- Dark when the matrix value is strictly below the threshold of the palette entry `c` (R164). -/
def bayerTone (p : Params) (port : Port) (c : Pixel) (x y : Nat) : Pixel :=
  if bayerAt p x y < thresh (luma p c) then port.toneD else port.toneL

/-- `BayerPixel(p, x, y)`, its tests in the order of R164; `none` is the colour that is no palette entry. -/
def bayerPixel (p : Params) (port : Port) (v : Pixel) (x y : Nat) : Option Pixel :=
  if v = port.pal.p0 then some port.toneL
  else if v = port.pal.p3 then some port.toneD
  else if v = port.pal.p1 then some (bayerTone p port port.pal.p1 x y)
  else if v = port.pal.p2 then some (bayerTone p port port.pal.p2 x y)
  else none

/-- The pixel is one of the four palette entries (R166). -/
def inPalette (pal : Palette) (v : Pixel) : Bool :=
  v == pal.p0 || v == pal.p1 || v == pal.p2 || v == pal.p3

/-- Every pixel of the buffer is a palette entry (R166: tested before any pixel is written). -/
def allInPalette (pal : Palette) (m : Memory) (buf w h : Nat) : Bool :=
  (List.range h).all fun y => (List.range w).all fun x => inPalette pal (memReadPix m (pixAddr buf w x y))

/-- The writing loop of DITHB (R166). -/
def dithbMem (p : Params) (port : Port) (buf w h : Nat) (m : Memory) : Memory :=
  forPixels w h
    (fun m x y =>
      match bayerPixel p port (memReadPix m (pixAddr buf w x y)) x y with
      | some v => memWritePix m (pixAddr buf w x y) v
      | none => m) m

/-- The `PARAM` test of both ditherers: a dimension above 65535 (R103, R166, R182). -/
def dimTest (w h : Nat) : Option FaultCode :=
  faultIf (decide (maxDim < w) || decide (maxDim < h)) .param

/-- DITHB (R166). -/
def execDithb (s : State) : Host.Outcome State Fault Refusal :=
  let buf := asUnsigned s.port.a.a0
  let w := asUnsigned s.port.a.a1
  let h := asUnsigned s.port.a.a2
  .next (guarded 0x50
    [dimTest w h, checkBuf s.params buf (2 * w * h) 2,
      faultIf (!allInPalette s.port.pal s.mem buf w h) .notPalette]
    (fun s => complete true { s with mem := dithbMem s.params s.port buf w h s.mem }) s)

/-! ## Error diffusion -/

/-- `FsShare(e, k)`, a parameter; the default rounds the exact quotient toward zero (R184). -/
def fsShare (p : Params) (e : Int) (k : Nat) : Int :=
  match p.fsShare with
  | .default => (e * (k : Int)).tdiv 16
  | .other n => Config.fsShareOther n e k

/-- `Add(x', y', s)`: an error directed off the buffer is dropped (R182, R185). -/
def fsAdd (w h : Nat) (acc : List Int) (x y : Int) (share : Int) : List Int :=
  if 0 ≤ x ∧ x < (w : Int) ∧ y < (h : Int) then acc.modify (y.toNat * w + x.toNat) (· + share) else acc

/-- The tones' quantization (R181): light when `2 * v >= Ll + Ld`, a tie included. -/
def fsLight (p : Params) (port : Port) (v : Int) : Bool :=
  decide ((luma p port.toneL : Int) + (luma p port.toneD : Int) ≤ 2 * v)

/-- The colour chosen for an accumulated value (R181). -/
def fsTone (p : Params) (port : Port) (v : Int) : Pixel :=
  if fsLight p port v then port.toneL else port.toneD

/-- The error `original − chosen-tone-luminance` (R181, R182). -/
def fsError (p : Params) (port : Port) (v : Int) : Int :=
  v - (if fsLight p port v then (luma p port.toneL : Int) else (luma p port.toneD : Int))

/-- The transient state of DITHFS: the accumulators `acc` (R49) and MEM. -/
structure Diffusion where
  acc : List Int
  mem : Memory
  deriving DecidableEq, Repr

/-- The error of the pixel at `(x, y)` shared among its four neighbours, `dir` east for an even row (R183, R184, R185). -/
def fsSpread (p : Params) (w h x y : Nat) (e : Int) (acc : List Int) : List Int :=
  let dir : Int := if y % 2 = 0 then 1 else -1
  let acc := fsAdd w h acc ((x : Int) + dir) (y : Int) (fsShare p e 7)
  let acc := fsAdd w h acc ((x : Int) - dir) ((y : Int) + 1) (fsShare p e 3)
  let acc := fsAdd w h acc (x : Int) ((y : Int) + 1) (fsShare p e 5)
  fsAdd w h acc ((x : Int) + dir) ((y : Int) + 1) (fsShare p e 1)

/-- One pixel of the scan (R182). -/
def fsPixel (p : Params) (port : Port) (buf w h y : Nat) (d : Diffusion) (x : Nat) : Diffusion :=
  let v := d.acc.getD (y * w + x) 0
  { acc := fsSpread p w h x y (fsError p port v) d.acc
    mem := memWritePix d.mem (pixAddr buf w x y) (fsTone p port v) }

/-- The columns of a row in the order they are visited: left to right in an even row, right to left in an odd one (R183). -/
def fsColumns (w y : Nat) : List Nat :=
  if y % 2 = 0 then List.range w else (List.range w).reverse

/-- One row of the scan (R183). -/
def fsRow (p : Params) (port : Port) (buf w h : Nat) (d : Diffusion) (y : Nat) : Diffusion :=
  (fsColumns w y).foldl (fsPixel p port buf w h y) d

/-- Every pixel as a luminance, before any is written (R182). -/
def fsStart (p : Params) (buf w h : Nat) (m : Memory) : Diffusion :=
  { acc := (List.range (w * h)).map fun i => (luma p (memReadPix m (buf + 2 * i)) : Int)
    mem := m }

/-- MEM after DITHFS (R182). -/
def dithfsMem (p : Params) (port : Port) (buf w h : Nat) (m : Memory) : Memory :=
  ((List.range h).foldl (fsRow p port buf w h) (fsStart p buf w h m)).mem

/-- DITHFS (R182): it reads no palette and raises no `NOT_PALETTE`. -/
def execDithfs (s : State) : Host.Outcome State Fault Refusal :=
  let buf := asUnsigned s.port.a.a0
  let w := asUnsigned s.port.a.a1
  let h := asUnsigned s.port.a.a2
  .next (guarded 0x51 [dimTest w h, checkBuf s.params buf (2 * w * h) 2]
    (fun s => complete true { s with mem := dithfsMem s.params s.port buf w h s.mem }) s)

end Sys2Proof.Machine
end

