-- ==== Sys2Proof/Machine/SurfaceWindowed.lean ====
section
/-!
DEFINITION. The SURF operations of the windowed-RAM variant (spec/45_surface_windowed.md rules R257 to R274), as state
transformers; the commands of spec/30_encoding.md choose between them and the paged ones in Machine/Surface.lean.
-/

namespace Sys2Proof.Machine

/-- SETWIN (R258): inverted or outside, a silent no-op that leaves an earlier window as it was. -/
def setWinWindowed (s : State) : State :=
  let x0 := asCoord s.port.a.a0
  let y0 := asCoord s.port.a.a1
  let x1 := asCoord s.port.a.a2
  let y1 := asCoord s.port.a.a3
  if x0 > x1 ∨ y0 > y1 then complete true s
  else
    match clipToPanel s x0 y0 (x1 - x0 + 1) (y1 - y0 + 1) with
    | none => complete true s
    | some c => guarded 0x20 [busTest s, underrunTest s] (fun s => complete true (armWindow c s)) s

/-- Where the pixels of a clipped image come from (R264): clipping keeps the image in place. -/
def imageSrc (s : State) (c : Rect) : PixSrc :=
  .image (asUnsigned s.port.a.a4) (asCoord s.port.a.a2).toNat
    ((c.x0 : Int) - asCoord s.port.a.a0).toNat ((c.y0 : Int) - asCoord s.port.a.a1).toNat (rectCols c)

/-- The size in bytes of the whole image DRAWIMG names (R264). -/
def imageBytes (s : State) : Nat := 2 * (asCoord s.port.a.a2).toNat * (asCoord s.port.a.a3).toNat

/-- DRAWIMG (R264). -/
def drawImgWindowed (s : State) : State :=
  match clipOperands s with
  | none => complete true s
  | some c =>
    guarded 0x21 [checkBuf s.params (asUnsigned s.port.a.a4) (imageBytes s) 2, busTest s, underrunTest s]
      (fun s => streamBurst (imageSrc s c) (rectCount c) (armWindow c s)) s

/-- Filling a clipped rectangle, by the command whose opcode byte is `op` (R266, R272). -/
def fillWindowed (op : Byte) (clip : Option Rect) (col : Pixel) (s : State) : State :=
  match clip with
  | none => complete true s
  | some c =>
    guarded op [busTest s, underrunTest s] (fun s => streamBurst (.solid col) (rectCount c) (armWindow c s)) s

/-- FILLRECT (R266). -/
def fillRectWindowed (s : State) : State :=
  fillWindowed 0x22 (clipOperands s) (asColour s.port.a.a4) s

/-- CLEAR (R272): FILLRECT of the whole panel at its current, rotated size. -/
def clearWindowed (s : State) : State :=
  fillWindowed 0x25 (clipToPanel s 0 0 s.surf.width.toNat s.surf.height.toNat) (asColour s.port.a.a4) s

/-- PUSHPIX (R268). -/
def pushPixWindowed (s : State) : State :=
  let a := asUnsigned s.port.a.a0
  let n := asUnsigned s.port.a.a1
  guarded 0x24
    [checkBuf s.params a (2 * n) 2, busTest s, faultIf (!s.surf.win.armed) .winUnarmed,
      faultIf (decide (s.surf.win.remaining.toNat < n)) .winOverrun]
    (streamBurst (.run a) n) s

/-- `ORIENT[r]` (R119). -/
def orientByte (o : Orient) (r : BitVec 2) : Byte :=
  match r.toNat with
  | 0 => o.r0
  | 1 => o.r1
  | 2 => o.r2
  | _ => o.r3

/-- The rotation changes the effective width and height: the parity of the code changes (R270). -/
def rotSwaps (old new : BitVec 2) : Bool := new.toNat % 2 != old.toNat % 2

/-- The whole panel, as a rectangle (R270). -/
def fullScreen (s : State) : Rect :=
  { x0 := 0, y0 := 0, x1 := s.surf.width.toNat - 1, y1 := s.surf.height.toNat - 1 }

/-- SETROT (R270): the orientation byte is written every time; the full-screen window is armed only when the sizes swap. -/
def setRotWindowed (r : BitVec 2) (s : State) : State :=
  guarded 0x23 [busTest s, underrunTest s]
    (fun s =>
      let swap := rotSwaps s.surf.rotation r
      let s := syncSend false [s.params.opMadctl] s
      let s := syncSend true [orientByte s.params.orient r] s
      let s := disarm s
      let s := { s with surf := { s.surf with rotation := r } }
      if swap then
        let s := { s with surf := { s.surf with width := s.surf.height, height := s.surf.width } }
        complete true (armWindow (fullScreen s) s)
      else complete true s) s

end Sys2Proof.Machine
end

