-- ==== Sys2Proof/Machine/SurfacePaged.lean ====
section
/-!
DEFINITION. The SURF operations of the paged-monochrome variant (spec/46_surface_paged.md rules R290 to R304), as state
transformers.
-/

namespace Sys2Proof.Machine

/-- The predicate `Lit(col, row)` of R296: the image's own pixel at that place of the panel. -/
def imageLit (s : State) (col row : Nat) : Bool :=
  lit s.params (memReadPix s.mem (pixAddr (asUnsigned s.port.a.a4) (asCoord s.port.a.a2).toNat
    ((col : Int) - asCoord s.port.a.a0).toNat ((row : Int) - asCoord s.port.a.a1).toNat))

/-- DRAWIMG (R296). -/
def drawImgPaged (s : State) : State :=
  match clipOperands s with
  | none => complete true s
  | some c =>
    guarded 0x21 [checkBuf s.params (asUnsigned s.port.a.a4) (imageBytes s) 2, busTest s]
      (fun s => complete true (drawPages (imageLit s) c s)) s

/-- FILLRECT (R298). -/
def fillRectPaged (s : State) : State :=
  match clipOperands s with
  | none => complete true s
  | some c =>
    guarded 0x22 [busTest s]
      (fun s => complete true (drawPages (fun _ _ => lit s.params (asColour s.port.a.a4)) c s)) s

/-- CLEAR (R300): every page of the panel, every byte 0. -/
def clearPaged (s : State) : State :=
  guarded 0x25 [busTest s]
    (fun s => complete true
      (sendPages 0 (s.params.nativeH.toNat / 8) 0 (fun _ => List.replicate s.params.nativeW.toNat 0) s)) s

/-- SETROT (R302): rotation 0 is a no-op, any other does not exist. -/
def setRotPaged (r : BitVec 2) (s : State) : State :=
  guarded 0x23 [faultIf (r != 0) .illegalCmd] (complete true) s

end Sys2Proof.Machine
end

