-- ==== Sys2Proof/Machine/Surface.lean ====
section
/-!
DEFINITION. The seven SURF operations as commands (spec/30_encoding.md rules R104 to R106): the built variant chooses the semantics,
and an operation the variant does not have raises `ILLEGAL_CMD` (R105).
-/

namespace Sys2Proof.Machine

/-- SETWIN (R258), `WindowedRam` only (R105). -/
def execSetwin (s : State) : Host.Outcome State Fault Refusal :=
  .next (match s.params.variant with
    | .windowedRam => setWinWindowed s
    | .pagedMono => raiseFault 0x20 .illegalCmd s)

/-- DRAWIMG (R264, R296). -/
def execDrawimg (s : State) : Host.Outcome State Fault Refusal :=
  .next (match s.params.variant with
    | .windowedRam => drawImgWindowed s
    | .pagedMono => drawImgPaged s)

/-- FILLRECT (R266, R298). -/
def execFillrect (s : State) : Host.Outcome State Fault Refusal :=
  .next (match s.params.variant with
    | .windowedRam => fillRectWindowed s
    | .pagedMono => fillRectPaged s)

/-- SETROT (R270, R302). -/
def execSetrot (rot : BitVec 2) (s : State) : Host.Outcome State Fault Refusal :=
  .next (match s.params.variant with
    | .windowedRam => setRotWindowed rot s
    | .pagedMono => setRotPaged rot s)

/-- PUSHPIX (R268), `WindowedRam` only (R105). -/
def execPushpix (s : State) : Host.Outcome State Fault Refusal :=
  .next (match s.params.variant with
    | .windowedRam => pushPixWindowed s
    | .pagedMono => raiseFault 0x24 .illegalCmd s)

/-- CLEAR (R272, R300). -/
def execClear (s : State) : Host.Outcome State Fault Refusal :=
  .next (match s.params.variant with
    | .windowedRam => clearWindowed s
    | .pagedMono => clearPaged s)

/-- SURFINIT (R274, R304), the same in both variants. The panel's acknowledgement is a free value. -/
def execSurfinit (s : State) : Host.Outcome State Fault Refusal :=
  .next (guarded 0x26 [busTest s]
    (fun s =>
      let ack := drawBit s 0
      complete ack (nativeGeometry (drawn 1 (s.params.initSeq.foldl sendInitItem s)))) s)

end Sys2Proof.Machine
end

