-- ==== Sys2Proof/Machine/TransferEngine.lean ====
section
/-!
DEFINITION. The eight TE operations as commands (spec/44_transfer_engine.md rules R202 to R213, R218, R219).
-/

namespace Sys2Proof.Machine

/-- WRCMD (R202). -/
def execWrcmd (b : Byte) (s : State) : Host.Outcome State Fault Refusal :=
  .next (guarded 0x10 [busTest s] (fun s => complete true (disarm (syncSend false [b] s))) s)

/-- WRDAT (R203). -/
def execWrdat (b : Byte) (s : State) : Host.Outcome State Fault Refusal :=
  .next (guarded 0x11 [busTest s] (fun s => complete true (disarm (syncSend true [b] s))) s)

/-- WRBULK (R204): a length of 0 sends nothing. -/
def execWrbulk (s : State) : Host.Outcome State Fault Refusal :=
  let a := asUnsigned s.port.a.a0
  let n := asUnsigned s.port.a.a1
  .next (guarded 0x12 [checkBuf s.params a n 1, busTest s]
    (fun s => complete true (disarm (if n = 0 then s else syncSend true (memBytesAt s.mem a n) s))) s)

/-- WRBULKA (R206): the hold comes after all the tests, and the pixels are those of MEM when the command is issued. -/
def execWrbulka (s : State) : Host.Outcome State Fault Refusal :=
  let a := asUnsigned s.port.a.a0
  let n := asUnsigned s.port.a.a1
  .next (guarded 0x13 [faultIf (decide (s.params.scratchBytes < 2 * n)) .param, checkBuf s.params a (2 * n) 2]
    (fun s =>
      let s' := disarm s
      let pix := pixChunk s.mem (.run a) 0 n
      if s.te.st = .dmaBusy then { s' with pending := some (.bulkHold pix) } else bulkReturn pix false s') s)

/-- WAIT (R208): the reading of the start time and the first pass. -/
def execWait (ms : BitVec 24) (s : State) : Host.Outcome State Fault Refusal :=
  .next (waitOp ms.toNat .start s)

/-- ABORT (R210). -/
def execAbort (s : State) : Host.Outcome State Fault Refusal :=
  .next (complete true (abortTransfer s))

/-- TEINIT (R212): a second one changes nothing. The two draws are free values. -/
def execTeinit (s : State) : Host.Outcome State Fault Refusal :=
  .next (if s.te.inited then complete s.te.dmaOk s
    else
      let ok := s.params.dmaPresent && (drawBit s 0 && drawBit s 1)
      let s' := drawn 2 s
      complete ok { s' with te := { s'.te with dmaOk := ok, inited := true } })

/-- TEFREE (R213). What `scratch` holds once it has been given back is a free value. -/
def execTefree (s : State) : Host.Outcome State Fault Refusal :=
  .next (
    let s' := abortTransfer s
    let s' := if s.te.inited then forgetScratch s' else s'
    complete true { s' with te := { s'.te with dmaOk := false, inited := false } })

end Sys2Proof.Machine
end

