-- ==== Sys2Proof/Machine/Dispatch.lean ====
section
/-!
DEFINITION. The meaning of every command, one direct call for each row of spec/opcode_table.json.

DESIGN CHOICE (log entry 22): what a command does at its issue is ONE step of HOST, however many bytes it sends or pixels it computes:
the spec allows that for a synchronous send (spec/44_transfer_engine.md rule R205) and does not say it of BUILDMAPS, RESAMPLE, DITHB,
DITHFS, or of a SURF operation that sends several frames.
-/

namespace Sys2Proof.Machine

def exec (i : Instr) (s : State) : Host.Outcome State Fault Refusal :=
  match i with
  | .wrcmd b => Sys2Proof.Machine.execWrcmd b s
  | .wrdat b => Sys2Proof.Machine.execWrdat b s
  | .wrbulk => Sys2Proof.Machine.execWrbulk s
  | .wrbulka => Sys2Proof.Machine.execWrbulka s
  | .wait ms => Sys2Proof.Machine.execWait ms s
  | .abort => Sys2Proof.Machine.execAbort s
  | .teinit => Sys2Proof.Machine.execTeinit s
  | .tefree => Sys2Proof.Machine.execTefree s
  | .setwin => Sys2Proof.Machine.execSetwin s
  | .drawimg => Sys2Proof.Machine.execDrawimg s
  | .fillrect => Sys2Proof.Machine.execFillrect s
  | .setrot rot => Sys2Proof.Machine.execSetrot rot s
  | .pushpix => Sys2Proof.Machine.execPushpix s
  | .clear => Sys2Proof.Machine.execClear s
  | .surfinit => Sys2Proof.Machine.execSurfinit s
  | .buildmaps => Sys2Proof.Machine.execBuildmaps s
  | .resample => Sys2Proof.Machine.execResample s
  | .dithb => Sys2Proof.Machine.execDithb s
  | .dithfs => Sys2Proof.Machine.execDithfs s

end Sys2Proof.Machine
end

