-- ==== Sys2Proof/Machine/HostPort.lean ====
section
/-!
DEFINITION. The host's side (spec/10_state.md rules R22, R24, R25, R34; spec/30_encoding.md rules R105 to R109, R128;
spec/47_frame_sequence.md rules R310 to R320): issuing a command word, going on with an operation that holds, the host's bus
actions one by one, the frame loop, and whose turn it is.
-/

namespace Sys2Proof.Machine

/-! ## Issuing a command -/

/-- A write of `w` to `CMD` (R25): ignored once a fault has been taken (R340); an illegal word raises `ILLEGAL_CMD` (R105); any other
issues its operation. -/
def issue (w : Word) (s : State) : Host.Outcome State Fault Refusal :=
  if s.port.faulted then .next s
  else
    match decode w with
    | .illegal _ => .next (raiseFault (opField w) .illegalCmd s)
    | .command i => exec i s

/-- WRBULKA's hold, at a step of HOST (R206). -/
def bulkHoldOp (pix : List Pixel) (s : State) : State :=
  if s.te.st = .dmaBusy then { s with pending := some (.bulkHold pix) } else bulkReturn pix true s

/-- One step of HOST inside the operation it is blocked in (R12, R13). `s` has nothing pending; the operation puts back what it still
has to do. -/
def resumeOp (op : PendingOp) (s : State) : State :=
  match op with
  | .wait ms ph => waitOp ms ph s
  | .bulkHold pix => bulkHoldOp pix s
  | .burst src total i n ph => burstOp src total i n ph s

/-! ## The host's bus actions -/

/-- `pc <- hpc + 1` (R109). -/
def advance (s : State) : State := { s with host := { s.host with hpc := s.host.hpc + 1 } }

/-- The host has read the value `v`. -/
def hostReads (v : Word) (s : State) : State := { s with host := { s.host with reads := s.host.reads ++ [v] } }

/-- What the platform does with a host access that is not in range or not aligned is its own (R93): the step stops. -/
def hostAccess (a : Nat) (check : Option FaultCode) (s : State) : Host.Outcome State Fault Refusal :=
  match check with
  | none => .next s
  | some .align => .refused (.hostMisaligned a)
  | some _ => .fault (.hostOutsideMem a)

/-- The host's store of a pixel (R93, R107). -/
def hostStore16 (a : Nat) (v : Pixel) (s : State) : Host.Outcome State Fault Refusal :=
  hostAccess a (memAccess16 s.params a) { s with mem := memWritePix s.mem a v }

/-- The host takes the oldest word of the FIFO (R311). -/
def fifoPop (rest : List Word) (s : State) : State := { s with host := { s.host with fifo := rest } }

/-- The host starts its frame loop (R316). -/
def startLoop (cfg : FrameCfg) (s : State) : State :=
  { s with host := { s.host with loop := some { cfg := cfg, phase := .poll } } }

/-- One action of the host's list (R107, R109). `FifoRead` holds while the FIFO is empty (R311). -/
def hostAction (act : HostAction) (s : State) : Host.Outcome State Fault Refusal :=
  match act with
  | .wr n v => if n = 0 then issue v (advance s) else .next (regWrite (advance s) n v)
  | .rd n => .next (hostReads (regRead s n) (advance s))
  | .st8 a v => hostAccess a (memAccess8 s.params a) { advance s with mem := memWrite s.mem a v }
  | .ld8 a => hostAccess a (memAccess8 s.params a) (hostReads ((0 : BitVec 24) ++ memRead s.mem a) (advance s))
  | .st16 a v => hostStore16 a v (advance s)
  | .ld16 a => hostAccess a (memAccess16 s.params a) (hostReads (low16 (memReadPix s.mem a)) (advance s))
  | .fifoRead =>
    match s.host.fifo with
    | [] => .next s
    | w :: rest => .next (hostReads w (fifoPop rest (advance s)))
  | .runLoop cfg => .next (startLoop cfg (advance s))

/-! ## Assembler lines (R107, R108) -/

/-- The write of operand register `Ak`. -/
def writeA (k : BitVec 6) (v : Word) : HostAction := .wr (8 + k) v

/-- The operand registers of a command, `k` for `Ak`, ascending: the operands column of R104. CLEAR's one operand is `A4`. -/
def operandRegs : Instr → List (BitVec 6)
  | .wrcmd _ => []
  | .wrdat _ => []
  | .wrbulk => [0, 1]
  | .wrbulka => [0, 1]
  | .wait _ => []
  | .abort => []
  | .teinit => []
  | .tefree => []
  | .setwin => [0, 1, 2, 3]
  | .drawimg => [0, 1, 2, 3, 4]
  | .fillrect => [0, 1, 2, 3, 4]
  | .setrot _ => []
  | .pushpix => [0, 1]
  | .clear => [4]
  | .surfinit => []
  | .buildmaps => [0, 1, 2, 3, 4]
  | .resample => [0, 1]
  | .dithb => [0, 1, 2]
  | .dithfs => [0, 1, 2]

/-- A mnemonic followed by `*`: the command word only, the operand registers as they stand (R108). -/
def asmStar (i : Instr) : List HostAction := [.wr 0 (encode i)]

/-- A mnemonic line: one write for each register operand, in ascending register order, then the command word (R108). The values are
in the order of R104; on a paged panel CLEAR has no operand, and its line gives no value (R104). -/
def asmLine (operands : List Word) (i : Instr) : List HostAction :=
  List.zipWith writeA (operandRegs i) operands ++ asmStar i

/-- `PALETTE p0, p1, p2, p3` (R108). -/
def asmPalette (pal : Palette) : List HostAction :=
  [.wr 0x10 (low16 pal.p0), .wr 0x11 (low16 pal.p1), .wr 0x12 (low16 pal.p2), .wr 0x13 (low16 pal.p3)]

/-- `TONES l, d` (R108). -/
def asmTones (l d : Pixel) : List HostAction := [.wr 0x14 (low16 l), .wr 0x15 (low16 d)]

/-- `RES?` (R108). -/
def asmRes : List HostAction := [.rd 0x01]

/-! ## The frame loop -/

/-- `vsync(w) = w[31]` (R128, R312). -/
def sampleVsync (w : Word) : Bool := w.getLsbD 31

/-- `idx(w) = w[30:29]`, bit 30 the more significant: the order the rules state, which is the spec's own reading of its source (R128,
R312, D45). -/
def sampleIdx (w : Word) : BitVec 2 := w.extractLsb' 29 2

/-- `PAL[i]` (R129). -/
def paletteEntry (pal : Palette) (i : BitVec 2) : Pixel :=
  match i.toNat with
  | 0 => pal.p0
  | 1 => pal.p1
  | 2 => pal.p2
  | _ => pal.p3

/-- `colour(w) = PAL[idx(w)]` (R312), looked up by the host in a palette of its own (R317, R387). -/
def sampleColour (pal : Palette) (w : Word) : Pixel := paletteEntry pal (sampleIdx w)

/-- `SRC_W * SRC_H` (R7 Table 1): the pixels of a captured frame (R317). -/
def framePixels : Nat := 160 * 144

/-- The loop goes on at `ph`. -/
def loopAt (ph : LoopPhase) (l : FrameLoop) (s : State) : State :=
  { s with host := { s.host with loop := some { l with phase := ph } } }

/-- The loop issues `acts`, one a step, and then goes on at `ph`. -/
def loopIssue (acts : List HostAction) (ph : LoopPhase) (l : FrameLoop) (s : State) : State :=
  { s with host := { s.host with prog := acts, hpc := 0, loop := some { l with phase := ph } } }

/-- Step 3: CLEAR with the host's background colour, none on a paged panel (R316, R318). -/
def clearActions (cfg : FrameCfg) : List HostAction := asmLine (cfg.bg.toList.map low16) .clear

/-- Step 6 (R316). -/
def ditherActions (cfg : FrameCfg) : List HostAction :=
  match cfg.dither with
  | .none => []
  | .bayer => asmLine [cfg.dst, cfg.dw, cfg.dh] .dithb
  | .fs => asmLine [cfg.dst, cfg.dw, cfg.dh] .dithfs

/-- Steps 1 and 2: one word polled (R313, R316). -/
def loopPoll (l : FrameLoop) (w : Word) (s : State) : State :=
  let e := s.host.prevVsync && !sampleVsync w
  { s with host :=
      { s.host with
        prevVsync := sampleVsync w
        edge := e
        loop := some { l with phase := if e then .clear w else .poll } } }

/-- One step of the frame loop (R315 to R318). It holds while it needs a word and the FIFO is empty. -/
def loopStep (l : FrameLoop) (s : State) : Host.Outcome State Fault Refusal :=
  match l.phase with
  | .poll =>
    match s.host.fifo with
    | [] => .next s
    | w :: rest => .next (loopPoll l w (fifoPop rest s))
  | .clear w =>
    if s.host.firstDone then .next (loopAt (.first w) l s)
    else .next (loopIssue (clearActions l.cfg) (.first w) l s)
  | .first w =>
    hostStore16 (asUnsigned l.cfg.src) (sampleColour l.cfg.pal w)
      (loopAt (.capture 1) l { s with host := { s.host with firstDone := true } })
  | .capture i =>
    if i < framePixels then
      match s.host.fifo with
      | [] => .next s
      | w :: rest =>
        hostStore16 (asUnsigned l.cfg.src + 2 * i) (sampleColour l.cfg.pal w) (loopAt (.capture (i + 1)) l (fifoPop rest s))
    else .next (loopAt .resample l s)
  | .resample => .next (loopIssue (asmLine [l.cfg.src, l.cfg.dst] .resample) .dither l s)
  | .dither => .next (loopIssue (ditherActions l.cfg) .draw l s)
  | .draw =>
    .next (loopIssue (asmLine [l.cfg.offx, l.cfg.offy, l.cfg.dw, l.cfg.dh, l.cfg.dst] .drawimg) .finish l s)
  | .finish => .next (loopAt .poll l { s with host := { s.host with edge := false } })

/-! ## Whose step it is -/

/-- One step of HOST (R12): it goes on with the operation it is blocked in, or performs its next action, or goes on with its frame
loop; with nothing to do it does nothing. A command that does not hold is ONE such step, whatever it computes or sends (DESIGN CHOICE,
log entry 22). -/
def hostStep (s : State) : Host.Outcome State Fault Refusal :=
  match s.pending with
  | some op => .next (resumeOp op { s with pending := none })
  | none =>
    match s.host.prog[s.host.hpc]? with
    | some act => hostAction act s
    | none =>
      match s.host.loop with
      | some l => loopStep l s
      | none => .next s

/-- The agent that steps next: the first of the interleaving written down, and after it any agent (R12, R344). -/
def nextEvent (s : State) : Event :=
  match s.env.sched with
  | e :: _ => e
  | [] => Config.event s.env.turn

/-- The choice of the next agent has been used. -/
def turnTaken (s : State) : State :=
  match s.env.sched with
  | _ :: rest => { s with env := { s.env with sched := rest } }
  | [] => { s with env := { s.env with turn := s.env.turn + 1 } }

/-- One step of one agent. -/
def eventStep (e : Event) (s : State) : Host.Outcome State Fault Refusal :=
  match e with
  | .host => hostStep s
  | .dma => .next (dmaStep s)
  | .notify k => .next (notifyStep k s)
  | .clock => .next (clockStep s)
  | .source w => .next (sourceStep w s)
  | .reset => .next (platformReset s)

/-- The host's list is the one command word `w`, nothing is pending, and the host steps next. -/
def placeCommand (w : Word) (s : State) : State :=
  { s with
    pending := none
    host := { s.host with prog := [.wr 0 w], hpc := 0 }
    env := { s.env with sched := .host :: s.env.sched } }

end Sys2Proof.Machine
end

