-- ==== Sys2Proof/Machine/Step.lean ====
section
/-!
DEFINITION. One step of the machine: the agent whose turn it is takes its step (spec/00_scope.md rule R12). The block fetches nothing
(spec/10_state.md rule R22): a command runs when the host's action list holds a write of its word to `CMD` and the host steps (log
entry 4).
-/

namespace Sys2Proof.Machine

/-- One step. -/
def step (s : State) : Host.Outcome State Fault Refusal := eventStep (nextEvent s) (turnTaken s)

/-- `s` with the instruction `w` of `nbits` bits where the next step takes it: the host's next action writes it to `CMD`. -/
def State.withFetchWord (s : State) (nbits w : Nat) : State :=
  placeCommand (BitVec.ofNat 32 (w % 2 ^ min nbits 32)) s

end Sys2Proof.Machine
end

