-- ==== Sys2Proof/WellFormed.lean ====
section
/-!
DEFINITION. When an instruction exists in a build (spec/30_encoding.md rule R105), and when a set of parameters is one the spec
admits (spec/00_scope.md rule R7, spec/46_surface_paged.md rule R291). The widths of the immediates are in the types.
-/

namespace Sys2Proof

/-- The operation is available in the built variant (R105): SETWIN, PUSHPIX and a SETROT to a rotation other than 0 do not exist
for `PagedMono`. An instruction that is not available decodes, and raises `ILLEGAL_CMD` when it is issued. -/
def Instr.availableIn : Variant → Instr → Bool
  | .windowedRam, _ => true
  | .pagedMono, .setwin => false
  | .pagedMono, .pushpix => false
  | .pagedMono, .setrot rot => rot == 0
  | .pagedMono, .wrcmd _ => true
  | .pagedMono, .wrdat _ => true
  | .pagedMono, .wrbulk => true
  | .pagedMono, .wrbulka => true
  | .pagedMono, .wait _ => true
  | .pagedMono, .abort => true
  | .pagedMono, .teinit => true
  | .pagedMono, .tefree => true
  | .pagedMono, .drawimg => true
  | .pagedMono, .fillrect => true
  | .pagedMono, .clear => true
  | .pagedMono, .surfinit => true
  | .pagedMono, .buildmaps => true
  | .pagedMono, .resample => true
  | .pagedMono, .dithb => true
  | .pagedMono, .dithfs => true

/-- The size limits of a paged panel (R7 `NATIVE_W`, `NATIVE_H`; R291): whole pages, a page index of four bits, a column of two
nibbles. -/
def Params.pagedFits (p : Params) : Bool :=
  p.nativeH.toNat % 8 == 0 && decide (p.nativeH.toNat ≤ 128) &&
    decide (p.nativeW.toNat + p.colOffset.toNat ≤ 256)

/-- A chunk has a pixel and fits the scratch buffer, "in chunks bounded by the engine's scratch buffer size" (R7 `CHUNK_PIX`, R262; log
entry 12). -/
def Params.chunkFits (p : Params) : Bool := decide (1 ≤ p.chunkPix) && decide (2 * p.chunkPix ≤ p.scratchBytes)

/-- The parameters lie in the ranges of R7, Table 2. -/
def Params.wf (p : Params) : Bool :=
  decide (1 ≤ p.nativeW.toNat) && decide (1 ≤ p.nativeH.toNat) &&
    (p.scratchBytes % 2 == 0 && decide (2 ≤ p.scratchBytes)) && p.chunkFits &&
    p.memBytes % 2 == 0 && decide (1 ≤ p.mapMax.toNat) && p.bayer.length == 64 &&
    (p.variant != .pagedMono || p.pagedFits)

end Sys2Proof
end

