-- ==== Sys2Proof/Safety.lean ====
section
/-!
DEFINITION. What a safe state is: the invariants the spec states between the elements of the state (spec/10_state.md rules R44, R45,
R47, R52; spec/44_transfer_engine.md rule R242; spec/20_memory.md rule R70), in the terms the statements use.
-/

namespace Sys2Proof.Machine

/-! ## Transfer engine (R52) -/

/-- The transfer in flight is the current one and its completion is not pending yet; its record is in range (R39, R52). -/
def DmaRecOk (s : State) (r : DmaRec) : Prop :=
  s.te.st = .dmaBusy ∧ r.seq = s.te.xferSeq ∧ r.seq ∉ s.te.notePending ∧
    1 ≤ r.len ∧ r.len ≤ s.params.scratchBytes ∧ r.pos ≤ r.len

/-- R52 (a) to (e), with what makes them hold from step to step: the range of the record, `note_pending` a set, and `dma_ok` only on an
engine that TEINIT has set up. -/
structure EngineInv (s : State) : Prop where
  /-- R52 (e). -/
  resting : s.te.st = .idle ∨ s.te.st = .dmaBusy
  /-- R52 (a). -/
  idle : s.te.st = .idle → s.te.cs = false ∧ s.te.dma = none
  /-- R52 (b), the lines and the channel. -/
  busy : s.te.st = .dmaBusy → s.te.cs = true ∧ s.te.dc = true ∧ s.te.dmaOk = true
  /-- R52 (b): with no record, the completion of the current transfer is pending. -/
  ended : s.te.st = .dmaBusy → s.te.dma = none → s.te.xferSeq ∈ s.te.notePending
  /-- R52 (b), (c). -/
  inFlight : ∀ r, s.te.dma = some r → DmaRecOk s r
  /-- R52 (d). -/
  notes : ∀ q ∈ s.te.notePending, q ≤ s.te.xferSeq
  noteSet : s.te.notePending.Nodup
  claimed : s.te.dmaOk = true → s.te.inited = true ∧ s.params.dmaPresent = true
  /-- R38: the scratch buffer has `SCRATCH_BYTES` bytes. -/
  scratch : s.te.scratch.length = s.params.scratchBytes
  /-- R7, R262: a chunk fits it. -/
  chunk : 2 * s.params.chunkPix ≤ s.params.scratchBytes

/-! ## Bus discipline (R242) -/

/-- Where a chip-select frame stands: none open; open with no byte yet; a command byte sent; data bytes sent. -/
inductive BusFrame where
  | closed
  | opened
  | command
  | data
  deriving DecidableEq, Repr

/-- What one event may do (R242): frames do not nest, bytes lie inside a frame, all bytes of a frame have one level, and a frame at
level 0 has exactly one byte. -/
def busNext : BusFrame → WireEvent → Option BusFrame
  | .closed, .sel => some .opened
  | .opened, .byte false _ => some .command
  | .opened, .byte true _ => some .data
  | .data, .byte true _ => some .data
  | .opened, .desel => some .closed
  | .command, .desel => some .closed
  | .data, .desel => some .closed
  | _, _ => none

/-- A whole trace obeys the bus discipline from `b` on; the value is where the last frame stands. -/
def busScan : BusFrame → List WireEvent → Option BusFrame
  | b, [] => some b
  | b, e :: es =>
    match busNext b e with
    | some b' => busScan b' es
    | none => none

/-- The trace since reset obeys R242, and agrees with the chip-select line and with a transfer in flight. -/
def BusInv (s : State) : Prop :=
  ∃ b, busScan .closed s.wire = some b ∧ (b = .closed ↔ s.te.cs = false) ∧
    (s.te.st = .dmaBusy → b = .opened ∨ b = .data)

/-! ## Surface (R44, R45) -/

/-- The cached size is the native one, swapped at 90° and 270° (R44); a paged panel is never rotated (R291). -/
def GeometryInv (s : State) : Prop :=
  (s.surf.width, s.surf.height) =
      (if s.surf.rotation.toNat % 2 = 0 then (s.params.nativeW, s.params.nativeH)
       else (s.params.nativeH, s.params.nativeW)) ∧
    (s.params.variant = .pagedMono → s.surf.rotation = 0)

/-- The shadow of the address window (R45). -/
def WindowInv (s : State) : Prop :=
  s.surf.win.armed = true →
    s.params.variant = .windowedRam ∧
    s.surf.win.x0.toNat ≤ s.surf.win.x1.toNat ∧ s.surf.win.x1.toNat < s.surf.width.toNat ∧
    s.surf.win.y0.toNat ≤ s.surf.win.y1.toNat ∧ s.surf.win.y1.toNat < s.surf.height.toNat ∧
    s.surf.win.total.toNat =
      (s.surf.win.x1.toNat - s.surf.win.x0.toNat + 1) * (s.surf.win.y1.toNat - s.surf.win.y0.toNat + 1) ∧
    s.surf.win.remaining.toNat ≤ s.surf.win.total.toNat

/-- A burst in progress has handed over no more pixels than it has, and the window still takes the rest (R253, R262). -/
def BurstInv (s : State) : Prop :=
  match s.pending with
  | some (.burst _ total i n _) =>
      s.params.variant = .windowedRam ∧ 1 ≤ n ∧ i + n ≤ total ∧
        (s.surf.win.armed = true → total - (i + n) ≤ s.surf.win.remaining.toNat)
  | some (.bulkHold _) => True
  | some (.wait _ _) => True
  | none => True

/-- The surface's invariants together, for parameters in the ranges of R7. -/
structure SurfaceInv (s : State) : Prop where
  params : s.params.wf = true
  geometry : GeometryInv s
  window : WindowInv s
  burst : BurstInv s

/-! ## Maps (R47, R143) -/

/-- One valid map: `n` entries, each below the source size, non-decreasing (R143). -/
def MapOk (m : List (BitVec 16)) (n src : BitVec 16) : Prop :=
  m.length = n.toNat ∧
    (∀ d, d < n.toNat → (m.getD d 0).toNat < src.toNat) ∧
    (∀ d, d + 1 < n.toNat → (m.getD d 0).toNat ≤ (m.getD (d + 1) 0).toNat)

/-- Valid maps hold a completed build (R47). -/
def MapInv (s : State) : Prop :=
  s.rsm.valid = true →
    MapOk s.rsm.xmap s.rsm.dw s.rsm.sw ∧ MapOk s.rsm.ymap s.rsm.dh s.rsm.sh ∧
      s.rsm.dw.toNat ≤ s.params.mapMax.toNat ∧ s.rsm.dh.toNat ≤ s.params.mapMax.toNat

/-! ## MEM (R70) and the fault register (R28) -/

/-- MEM is in canonical form and lists only addresses of MEM. -/
def MemInv (s : State) : Prop := Memory.wf s.mem = true ∧ memInside s.params.memBytes s.mem = true

/-- `FAULT` is 0 until a fault, and then holds a code of R341 and an opcode byte, its high half reading 0 (R28). -/
def FaultInv (s : State) : Prop :=
  (s.port.faulted = false → s.port.fault = 0) ∧
    (s.port.faulted = true → ∃ op c, s.port.fault = faultWord op c)

/-! ## A safe state -/

/-- Every invariant of the block. -/
structure SafeState (s : State) : Prop where
  engine : EngineInv s
  bus : BusInv s
  surface : SurfaceInv s
  maps : MapInv s
  mem : MemInv s
  fault : FaultInv s

/-! ## What the wire carries, in the terms of the statements -/

/-- `s` with a first fault latched and nothing else changed (R340). -/
def latched (op : Byte) (c : FaultCode) (s : State) : State :=
  { s with port := { s.port with fault := faultWord op c, faulted := true } }

/-- The data bytes of a run of pixels, high byte first, with the line high (R77, R260). -/
def dataStream (pix : List Pixel) : List (Bool × Byte) := pix.flatMap fun p => [(true, hi8 p), (true, lo8 p)]

/-- The three window transactions of R116 to R118, each command byte in a frame of its own and each range in one (R257). -/
def windowEvents (p : Params) (x0 y0 x1 y1 : BitVec 16) : List WireEvent :=
  [.sel, .byte false p.opCaset, .desel] ++
  [.sel, .byte true (hi8 x0), .byte true (lo8 x0), .byte true (hi8 x1), .byte true (lo8 x1), .desel] ++
  [.sel, .byte false p.opRaset, .desel] ++
  [.sel, .byte true (hi8 y0), .byte true (lo8 y0), .byte true (hi8 y1), .byte true (lo8 y1), .desel] ++
  [.sel, .byte false p.opRamwr, .desel]

/-- `windowEvents` for the corners of a rectangle of the panel. -/
def rectEvents (p : Params) (c : Rect) : List WireEvent :=
  windowEvents p (BitVec.ofNat 16 c.x0) (BitVec.ofNat 16 c.y0) (BitVec.ofNat 16 c.x1) (BitVec.ofNat 16 c.y1)

/-- The engine at rest, its last byte sent at level `d`. -/
def restedAt (d : Bool) (e : Engine) : Engine := { e with st := .idle, cs := false, dc := d }

/-- The frames of one page row (R122, R123, R295). -/
def pageEvents (p : Params) (page cx0 : Nat) (bytes : List Byte) : List WireEvent :=
  [.sel, .byte false (0xB0 ||| BitVec.ofNat 8 page), .desel] ++
  [.sel, .byte false (p.opColLo ||| BitVec.ofNat 8 ((cx0 + p.colOffset.toNat) % 16)), .desel] ++
  [.sel, .byte false (p.opColHi ||| BitVec.ofNat 8 ((cx0 + p.colOffset.toNat) / 16)), .desel] ++
  (.sel :: bytes.map (WireEvent.byte true) ++ [.desel])

/-- The frames of one item of `INIT_SEQ` (R274). -/
def initEvents : InitItem → List WireEvent
  | .cmd b => [.sel, .byte false b, .desel]
  | .data [] => []
  | .data (b :: bs) => .sel :: (b :: bs).map (WireEvent.byte true) ++ [.desel]

/-- The pixel DRAWIMG shows at column `col`, row `row` of the panel: the image's pixel `(col − x, row − y)` (R264). -/
def imagePixel (s : State) (col row : Nat) : Pixel :=
  memReadPix s.mem (s.port.a.a4.toNat +
    2 * (((row : Int) - s.port.a.a1.toInt) * s.port.a.a2.toInt + ((col : Int) - s.port.a.a0.toInt)).toNat)

/-- The pixels of a rectangle in row-major order (R253). -/
def rectPixels (c : Rect) (f : Nat → Nat → Pixel) : List Pixel :=
  (List.range (rectCount c)).map fun i => f (c.x0 + i % rectCols c) (c.y0 + i / rectCols c)

/-- The bus accepts a window command: engine idle, no burst partly written (R218, R255). -/
def surfaceReady (s : State) : Prop := s.te.st = .idle ∧ winPartly s.surf.win = false

/-- The host's next action is `act`, and it is the host's turn with nothing in progress. -/
def hostNext (s : State) (act : HostAction) : Prop :=
  nextEvent s = .host ∧ s.pending = none ∧ s.host.prog[s.host.hpc]? = some act

/-- The host has come to its frame loop `l`, and it is its turn. -/
def loopNext (s : State) (l : FrameLoop) : Prop :=
  nextEvent s = .host ∧ s.pending = none ∧ s.host.prog[s.host.hpc]? = none ∧ s.host.loop = some l

/-! ## Command words, in the terms of R101, R104 and R105 -/

/-- Bits [31:24] of a command word, as a number. -/
def wordOp (w : Word) : Nat := w.toNat / 2 ^ 24

/-- Bits [23:0] of a command word, as a number. -/
def wordImm (w : Word) : Nat := w.toNat % 2 ^ 24

/-- The opcodes of format C0 (R104). -/
def opsC0 : List Nat :=
  [0x12, 0x13, 0x15, 0x16, 0x17, 0x20, 0x21, 0x22, 0x24, 0x25, 0x26, 0x40, 0x41, 0x50, 0x51]

/-- A word is illegal in a build (R105): an opcode byte outside R104, a 1 in a bit its format marks zero, or an operation the
variant does not have. -/
def illegalWord (v : Variant) (w : Word) : Prop :=
  wordOp w ∉ [0x10, 0x11, 0x14, 0x23] ++ opsC0 ∨
    (wordOp w ∈ opsC0 ∧ wordImm w ≠ 0) ∨
    (wordOp w ∈ [0x10, 0x11] ∧ 2 ^ 8 ≤ wordImm w) ∨
    (wordOp w = 0x23 ∧ 2 ^ 2 ≤ wordImm w) ∨
    (v = .pagedMono ∧ (wordOp w = 0x20 ∨ wordOp w = 0x24 ∨ (wordOp w = 0x23 ∧ wordImm w ≠ 0)))

/-! ## Rectangles and bursts, in the terms of the statements -/

/-- The visible part of the rectangle in `A0`..`A3` (R103, R251). -/
def visible (s : State) : Option Rect :=
  clipRect s.surf.width.toNat s.surf.height.toNat
    s.port.a.a0.toInt s.port.a.a1.toInt s.port.a.a2.toInt s.port.a.a3.toInt

/-- The image DRAWIMG names lies aligned inside MEM (R75, R264). -/
def imageInMem (s : State) : Prop :=
  s.port.a.a4.toNat % 2 = 0 ∧
    (s.port.a.a4.toNat : Int) + 2 * s.port.a.a2.toInt * s.port.a.a3.toInt ≤ (s.params.memBytes : Int)

/-- The run of pixels `A0`, `A1` names lies aligned inside MEM (R75, R206, R268). -/
def runInMem (s : State) : Prop :=
  s.port.a.a0.toNat % 2 = 0 ∧ s.port.a.a0.toNat + 2 * s.port.a.a1.toNat ≤ s.params.memBytes

/-- The pixels of that run (R206, R268). -/
def runPixels (s : State) : List Pixel :=
  (List.range s.port.a.a1.toNat).map fun i => memReadPix s.mem (s.port.a.a0.toNat + 2 * i)

/-- `t` is `s` after the window `c` has been armed and the pixels `pix`, all of the window, have been sent synchronously (R257,
R262): the trace carries the window and then the pixels, high byte first; the window is spent; `RES` is 1. -/
def drewInto (s t : State) (c : Rect) (pix : List Pixel) : Prop :=
  (∃ es, t.wire = s.wire ++ rectEvents s.params c ++ es ∧ logical es = dataStream pix) ∧
    t = { s with
      wire := t.wire
      te := restedAt true s.te
      surf := { s.surf with win := { windowOf c with armed := false, remaining := 0 } }
      port := { s.port with res := true } }

/-- `s` after the window `c` has been armed and the first chunk of its pixels `pix` has been handed to the DMA channel (R206, R257,
R262): the operation goes on with its wait. -/
def firstChunkArmed (s : State) (c : Rect) (src : PixSrc) (pix : List Pixel) : State :=
  let n := min s.params.chunkPix pix.length
  { s with
    wire := s.wire ++ rectEvents s.params c ++ [.sel]
    te := { restedAt false s.te with
      scratch := (pix.take n).flatMap (pixBytes s.params.pixOrderDma) ++ s.te.scratch.drop (2 * n)
      xferSeq := s.te.xferSeq + 1
      dma := some { seq := s.te.xferSeq + 1, len := 2 * n, pos := 0 }
      dc := true, cs := true, st := .dmaBusy }
    surf := { s.surf with win :=
      { windowOf c with remaining := BitVec.ofNat 32 (rectCount c - n) } }
    pending := some (.burst src pix.length 0 n .start) }

/-- Where a burst stands whose data bytes began after `base` in the logical stream (R262, R263): every pixel before the chunk in
flight is on the wire in the order of the DMA path, and of that chunk exactly the bytes the channel has shifted. -/
def BurstStream (base : List (Bool × Byte)) (s : State) : Prop :=
  ∃ src total i n ph,
    s.pending = some (.burst src total i n ph) ∧ s.te.dmaOk = true ∧ 1 ≤ n ∧ i + n ≤ total ∧
    let bytes (k m : Nat) := (pixRunBytes s.params.pixOrderDma (pixChunk s.mem src k m)).map fun b => (true, b)
    (∃ r, s.te.dma = some r ∧ r.len = 2 * n ∧
        (s.te.scratch.take r.len).map (fun b => (true, b)) = bytes i n ∧
        logical s.wire = base ++ bytes 0 i ++ (bytes i n).take r.pos) ∨
      (s.te.dma = none ∧ logical s.wire = base ++ bytes 0 (i + n))

/-- The bytes of the transfer in flight that are on the wire (R211): its frame is open and holds exactly `scratch[0 .. pos-1]`. -/
def FlightInv (s : State) : Prop :=
  ∀ r, s.te.dma = some r →
    ∃ before, s.wire = before ++ WireEvent.sel :: (s.te.scratch.take r.pos).map (WireEvent.byte true)

/-- The level at which the last byte of the table is sent, `d` when it sends none (R274). -/
def levelAfter (d : Bool) : List InitItem → Bool
  | [] => d
  | .cmd _ :: rest => levelAfter false rest
  | .data [] :: rest => levelAfter d rest
  | .data (_ :: _) :: rest => levelAfter true rest

/-- The bus actions of the frame loop's step 3: `A4` on a panel that takes a colour, and the word of CLEAR (R104, R108, R318). -/
def clearWords (cfg : FrameCfg) : List HostAction :=
  match cfg.bg with
  | some c => [.wr 12 (BitVec.ofNat 32 c.toNat), .wr 0 0x25000000]
  | none => [.wr 0 0x25000000]

/-- The bus actions of the frame loop's step 6 (R104, R108, R316). -/
def ditherWords (cfg : FrameCfg) : List HostAction :=
  match cfg.dither with
  | .none => []
  | .bayer => [.wr 8 cfg.dst, .wr 9 cfg.dw, .wr 10 cfg.dh, .wr 0 0x50000000]
  | .fs => [.wr 8 cfg.dst, .wr 9 cfg.dw, .wr 10 cfg.dh, .wr 0 0x51000000]

/-- The four values of a palette, in order (R30). -/
def palColours (pal : Palette) : List Pixel := [pal.p0, pal.p1, pal.p2, pal.p3]

/-- The colour of a sample word in a palette (R128, R129). -/
def wordColour (pal : Palette) (w : Word) : Pixel := (palColours pal).getD (w.toNat / 2 ^ 29 % 4) 0

/-- The host's duty of R387: the palette its frame loop maps samples with is the one it has written to `PAL0`..`PAL3`. -/
def PalettesAgree (s : State) : Prop := ∀ l, s.host.loop = some l → l.cfg.pal = s.port.pal

/-! ## Reset (R60, R370) -/

/-- Every element of the block has the value the table of R60 gives it; the unspecified ones hold any value. -/
structure AtReset (s : State) : Prop where
  operands : s.port.a = { a0 := 0, a1 := 0, a2 := 0, a3 := 0, a4 := 0, a5 := 0, a6 := 0, a7 := 0 }
  res : s.port.res = false
  fault : s.port.fault = 0 ∧ s.port.faulted = false
  mapSel : s.port.mapSel = 0
  engine : s.te.st = .idle ∧ s.te.cs = false ∧ s.te.dc = true
  resources : s.te.inited = false ∧ s.te.dmaOk = false ∧ s.te.scratch.length = s.params.scratchBytes
  transfers : s.te.dma = none ∧ s.te.xferSeq = 0 ∧ s.te.notePending = []
  wire : s.wire = []
  geometry : s.surf.width = s.params.nativeW ∧ s.surf.height = s.params.nativeH ∧ s.surf.rotation = 0
  window : s.surf.win.armed = false ∧ regRead s 0x1A = 0 ∧ regRead s 0x1B = 0 ∧ regRead s 0x1C = 0
  maps : s.rsm.valid = false ∧ s.rsm.sw = 0 ∧ s.rsm.sh = 0 ∧ s.rsm.dw = 0 ∧ s.rsm.dh = 0
  palette : s.port.pal = { p0 := 0, p1 := 0, p2 := 0, p3 := 0 } ∧ s.port.toneL = 0 ∧ s.port.toneD = 0
  idle : s.pending = none

/-! ## Dithering, in the terms of the statements -/

/-- The colour ordered mode writes for a palette colour at column `x`, row `y` (R163, R164). -/
def orderedTone (s : State) (v : Pixel) (x y : Nat) : Pixel :=
  let m := (s.params.bayer.getD (y % 8 * 8 + x % 8) 0).toNat
  if v = s.port.pal.p0 then s.port.toneL
  else if v = s.port.pal.p3 then s.port.toneD
  else
    let l := luma s.params (if v = s.port.pal.p1 then s.port.pal.p1 else s.port.pal.p2)
    if m < (255 - l) * 64 / 255 then s.port.toneD else s.port.toneL

/-- The luminance of the tone error diffusion chooses for the accumulated value `v` (R181). -/
def diffusedTone (s : State) (v : Int) : Pixel :=
  if (luma s.params s.port.toneL : Int) + (luma s.params s.port.toneD : Int) ≤ 2 * v then s.port.toneL
  else s.port.toneD

/-- The scan direction of a row (R183). -/
def scanDir (y : Nat) : Int := if y % 2 = 0 then 1 else -1

/-- The share of weight `k` that comes from `(x', y')`, when that pixel lies in a buffer of width `w` (R184, R185). -/
def shareFrom (s : State) (w : Nat) (v : Nat → Nat → Int) (x' : Int) (y' k : Nat) : Int :=
  if 0 ≤ x' ∧ x' < (w : Int) then
    fsShare s.params (v x'.toNat y' - (luma s.params (diffusedTone s (v x'.toNat y')) : Int)) k
  else 0

/-- Everything that reaches the pixel `(x, y)` from the pixels visited before it (R182, R183): 7 from its row, 3, 5 and 1 from the
row above, which is scanned the other way. -/
def incomingError (s : State) (w : Nat) (v : Nat → Nat → Int) (x y : Nat) : Int :=
  shareFrom s w v ((x : Int) - scanDir y) y 7 +
    (if y = 0 then 0
     else shareFrom s w v ((x : Int) + scanDir (y - 1)) (y - 1) 3 + shareFrom s w v (x : Int) (y - 1) 5 +
       shareFrom s w v ((x : Int) - scanDir (y - 1)) (y - 1) 1)

end Sys2Proof.Machine
end

