-- ==== Sys2Proof/Certificates/Slice0/Obligations.lean ====
section
/-!
DEFINITION. The statements for the provers. Each names the rules of spec/ it formalises. Statements are over every state, hence over
every build (`State.params`); the invariants a statement needs stand as premises and are statements of their own.
-/

open Sys2Proof Sys2Proof.Machine

/-! ## Command words -/

/-- R100 to R104: decoding undoes encoding, and no second word decodes to an operation: no bit is dropped. -/
def Obligations.DecodeInvertsEncode : Prop :=
  ∀ i : Instr, decode (encode i) = .command i ∧ ∀ w : Word, decode w = .command i → encode i = w

/-- R101, R104, R108: words written out from the tables, bit [31] first: opcode byte, then the immediate field. -/
def Obligations.SpecWordsDecode : Prop :=
  decode (0b00010000000000000000000000101010#32) = .command (.wrcmd 0x2A) ∧
  decode (0b00010100000000000000000001100100#32) = .command (.wait 100) ∧
  decode (0b00100011000000000000000000000001#32) = .command (.setrot 1) ∧
  decode (0b00100000000000000000000000000000#32) = .command .setwin ∧
  decode (0b01000000000000000000000000000000#32) = .command .buildmaps ∧
  decode (0b01010001000000000000000000000000#32) = .command .dithfs ∧
  decode (0b00010000000000000000000100101010#32) = .illegal (.reservedBitSet 0x10) ∧
  decode (0b00000000000000000000000000000000#32) = .illegal (.unknownOpcode 0)

/-- R105: exactly the illegal words raise `ILLEGAL_CMD`, with no other effect; every other word is the encoding of one operation and
issues it. -/
def Obligations.IllegalWordsRaiseIllegalCmd : Prop :=
  ∀ (w : Word) (s : State), s.port.faulted = false →
    (illegalWord s.params.variant w → issue w s = .next (latched (BitVec.ofNat 8 (wordOp w)) .illegalCmd s)) ∧
    (¬illegalWord s.params.variant w → ∃ i, encode i = w ∧ issue w s = exec i s)

/-- R25, R109, R22: a step of the host at a write to `CMD` is the operation itself, on the state with the host's index and the choice
of the next agent moved on and nothing else changed; and so is the step after `withFetchWord`. The host's list and the choice of the next
agent are the model's own (log entries 4 and 5); and so it is that all a command does at its issue is ONE step of the host (log
entry 22). -/
def Obligations.StepRunsTheDecodedCommand : Prop :=
  (∀ (s : State) (w : Word) (i : Instr),
    hostNext s (.wr 0 w) → s.port.faulted = false → decode w = .command i →
      step s = exec i { s with
        host := { s.host with hpc := s.host.hpc + 1 }
        env := { s.env with
          sched := s.env.sched.tail
          turn := if s.env.sched.isEmpty then s.env.turn + 1 else s.env.turn } }) ∧
  (∀ (s : State) (w : Word) (i : Instr), s.port.faulted = false → decode w = .command i →
    step (s.withFetchWord 32 w.toNat) = exec i { s with
      pending := none
      host := { s.host with prog := [.wr 0 w], hpc := 1 } })

/-! ## Faults -/

/-- R28, R340, R341: the first fault latches its code and the opcode byte and sets `faulted`, a later one changes nothing; the codes
are those of the table. -/
def Obligations.FirstFaultLatches : Prop :=
  (∀ (op : Byte) (c : FaultCode) (s : State), s.port.faulted = true → raiseFault op c s = s) ∧
  (∀ (op : Byte) (s : State), s.port.faulted = false →
    ∀ p ∈ [(FaultCode.illegalCmd, 1), (.busConflict, 2), (.buffer, 3), (.align, 4), (.winUnarmed, 5), (.winOverrun, 6),
        (.winUnderrun, 7), (.param, 8), (.mapInvalid, 9), (.notPalette, 10)],
      raiseFault op p.1 s = { s with port := { s.port with
        fault := BitVec.ofNat 32 (op.toNat * 256 + p.2), faulted := true } })

/-- R340: a command that faults has changed nothing but `FAULT` and `faulted`. -/
def Obligations.FaultingCommandChangesOnlyFault : Prop :=
  ∀ (i : Instr) (s t : State), s.port.faulted = false → exec i s = .next t → t.port.faulted = true →
    ∃ c, t = latched i.opcode c s

/-- R28, R340, R347: once a fault has been taken, a write to `CMD` is accepted and ignored; no step but the platform's reset clears the
fault or changes `FAULT`, and with no operation in progress `RES` stays. And every step keeps `FAULT` well formed: 0 until the first
fault, then a code below an opcode byte. -/
def Obligations.FaultIsStickyUntilReset : Prop :=
  (∀ (s : State) (w : Word), hostNext s (.wr 0 w) → s.port.faulted = true → step s = .next (advance (turnTaken s))) ∧
  (∀ s t : State, s.port.faulted = true → nextEvent s ≠ .reset → step s = .next t →
    t.port.faulted = true ∧ t.port.fault = s.port.fault ∧ (s.pending = none → t.port.res = s.port.res)) ∧
  (∀ s t : State, FaultInv s → step s = .next t → FaultInv t)

/-! ## What commands leave alone -/

/-- R21, R34: no operation, at its issue or later, writes an operand register, the palette, a tone or `MAPSEL`; nor the host's own
state, nor a parameter. -/
def Obligations.OperationsLeaveHostRegisters : Prop :=
  (∀ (i : Instr) (s t : State), exec i s = .next t →
    t.port.a = s.port.a ∧ t.port.pal = s.port.pal ∧ t.port.toneL = s.port.toneL ∧ t.port.toneD = s.port.toneD ∧
      t.port.mapSel = s.port.mapSel ∧ t.host = s.host ∧ t.params = s.params) ∧
  (∀ (op : PendingOp) (s : State),
    (resumeOp op s).port = { s.port with res := (resumeOp op s).port.res } ∧ (resumeOp op s).host = s.host ∧
      (resumeOp op s).params = s.params)

/-- R70, R145, R146, R166, R182, R243: which command can touch which unit. Only RESAMPLE, DITHB and DITHFS write MEM; only BUILDMAPS
writes the maps; the four computing commands leave the engine, the trace and the surface as they are. -/
def Obligations.CommandsKeepToTheirUnits : Prop :=
  ∀ (i : Instr) (s t : State), exec i s = .next t →
    (i ∉ [.resample, .dithb, .dithfs] → t.mem = s.mem) ∧
    (i ≠ .buildmaps → t.rsm = s.rsm) ∧
    (i ∈ [.buildmaps, .resample, .dithb, .dithfs] →
      t.te = s.te ∧ t.wire = s.wire ∧ t.surf = s.surf ∧ t.pending = s.pending ∧ t.env = s.env)

/-- R43, R80: what has been put on the wire stays: a step only appends to the trace, except the platform's reset. -/
def Obligations.WireOnlyGrows : Prop :=
  ∀ s t : State, nextEvent s ≠ .reset → step s = .next t → ∃ es, t.wire = s.wire ++ es

/-! ## Transfer engine: the synchronous primitives -/

/-- R202, R203, R218, R219: WRCMD and WRDAT send their byte in a frame of its own, with the line low and high, and disarm the window;
while a transfer is in flight they raise `BUS_CONFLICT`. -/
def Obligations.ByteCommandsSendOneFrame : Prop :=
  ∀ (b : Byte) (s : State),
    (s.te.st = .idle →
      exec (.wrcmd b) s = .next { s with
        te := restedAt false s.te
        wire := s.wire ++ [.sel, .byte false b, .desel]
        surf := { s.surf with win := { s.surf.win with armed := false } }
        port := { s.port with res := true } } ∧
      exec (.wrdat b) s = .next { s with
        te := restedAt true s.te
        wire := s.wire ++ [.sel, .byte true b, .desel]
        surf := { s.surf with win := { s.surf.win with armed := false } }
        port := { s.port with res := true } }) ∧
    (s.te.st ≠ .idle → s.port.faulted = false →
      exec (.wrcmd b) s = .next (latched 0x10 .busConflict s) ∧
      exec (.wrdat b) s = .next (latched 0x11 .busConflict s))

/-- R204, R219: WRBULK sends the bytes of MEM in ascending order in one frame, none when the length is 0, after testing the buffer and
then the engine. -/
def Obligations.WrbulkSendsTheBytes : Prop :=
  ∀ s : State,
    (s.port.a.a0.toNat + s.port.a.a1.toNat ≤ s.params.memBytes → s.te.st = .idle →
      exec .wrbulk s = .next { s with
        te := if s.port.a.a1 = 0 then s.te else restedAt true s.te
        wire := s.wire ++ (if s.port.a.a1 = 0 then []
          else .sel :: (List.range s.port.a.a1.toNat).map (fun k => .byte true (memRead s.mem (s.port.a.a0.toNat + k))) ++
            [.desel])
        surf := { s.surf with win := { s.surf.win with armed := false } }
        port := { s.port with res := true } }) ∧
    (s.port.faulted = false → s.params.memBytes < s.port.a.a0.toNat + s.port.a.a1.toNat →
      exec .wrbulk s = .next (latched 0x12 .buffer s)) ∧
    (s.port.faulted = false → s.port.a.a0.toNat + s.port.a.a1.toNat ≤ s.params.memBytes → s.te.st ≠ .idle →
      exec .wrbulk s = .next (latched 0x12 .busConflict s))

/-! ## Transfer engine: the asynchronous transfer -/

/-- R206: WRBULKA with a free channel copies the pixels into `scratch` in the order of the DMA path, numbers the transfer, opens its
frame and returns 1; with nothing to send, or without the channel, it returns 0, having sent everything there was, high byte first.
It tests the length against the scratch buffer, then alignment, then range, and never raises `BUS_CONFLICT`. -/
def Obligations.WrbulkaArmsOrSends : Prop :=
  ∀ s : State,
  (2 * s.port.a.a1.toNat ≤ s.params.scratchBytes → runInMem s → s.te.st ≠ .dmaBusy →
    (s.port.a.a1 = 0 → exec .wrbulka s = .next (complete false (disarm s))) ∧
    (s.port.a.a1 ≠ 0 → s.te.dmaOk = false →
      exec .wrbulka s = .next { s with
        te := restedAt true s.te
        wire := s.wire ++ .sel :: (runPixels s).flatMap (fun p => [.byte true (hi8 p), .byte true (lo8 p)]) ++ [.desel]
        surf := { s.surf with win := { s.surf.win with armed := false } }
        port := { s.port with res := false } }) ∧
    (s.port.a.a1 ≠ 0 → s.te.dmaOk = true →
      exec .wrbulka s = .next { s with
        te := { s.te with
          scratch := (runPixels s).flatMap (pixBytes s.params.pixOrderDma) ++ s.te.scratch.drop (2 * s.port.a.a1.toNat)
          xferSeq := s.te.xferSeq + 1
          dma := some { seq := s.te.xferSeq + 1, len := 2 * s.port.a.a1.toNat, pos := 0 }
          dc := true, cs := true, st := .dmaBusy }
        wire := s.wire ++ [.sel]
        surf := { s.surf with win := { s.surf.win with armed := false } }
        port := { s.port with res := true } })) ∧
  (s.port.faulted = false →
    (s.params.scratchBytes < 2 * s.port.a.a1.toNat → exec .wrbulka s = .next (latched 0x13 .param s)) ∧
    (2 * s.port.a.a1.toNat ≤ s.params.scratchBytes →
      (s.port.a.a0.toNat % 2 = 1 → exec .wrbulka s = .next (latched 0x13 .align s)) ∧
      (s.port.a.a0.toNat % 2 = 0 → s.params.memBytes < s.port.a.a0.toNat + 2 * s.port.a.a1.toNat →
        exec .wrbulka s = .next (latched 0x13 .buffer s))))

/-- R206 (C2): WRBULKA issued while a transfer is in flight holds, with the pixels it read when it was issued, and disarms the window;
a later step of the host goes on holding while the transfer lasts, and then sends the pixels synchronously, even though the channel has
become free, and returns 0. That the pixels are those of the issue is read from R206 (log entry 21); where
the steps divide is the model's (log entry 22). -/
def Obligations.WrbulkaHoldsThenSends : Prop :=
  (∀ s : State, 2 * s.port.a.a1.toNat ≤ s.params.scratchBytes → runInMem s → s.te.st = .dmaBusy →
    exec .wrbulka s = .next { disarm s with pending := some (.bulkHold (runPixels s)) }) ∧
  (∀ (s : State) (pix : List Pixel), nextEvent s = .host → s.pending = some (.bulkHold pix) →
    (s.te.st = .dmaBusy → step s = .next (turnTaken s)) ∧
    (s.te.st ≠ .dmaBusy → pix = [] → step s = .next (complete false { turnTaken s with pending := none })) ∧
    (s.te.st ≠ .dmaBusy → pix ≠ [] →
      step s = .next { turnTaken s with
        te := restedAt true s.te
        wire := s.wire ++ .sel :: pix.flatMap (fun p => [.byte true (hi8 p), .byte true (lo8 p)]) ++ [.desel]
        port := { s.port with res := false }
        pending := none }))

/-- R208, R210: the loop of WAIT, pass by pass: the state is tested before the time, the time as a difference modulo 2^32, and the abort
is a step of its own, after which the bytes of `scratch` are unknown (log entry 9). That the first pass is taken at issue, where the start
time is read, is the model's (log entry 7). -/
def Obligations.WaitFollowsItsLoop : Prop :=
  (∀ (ms : BitVec 24) (s : State),
    (s.te.st ≠ .dmaBusy → exec (.wait ms) s = .next (complete true s)) ∧
    (s.te.st = .dmaBusy → ms = 0 → exec (.wait ms) s = .next { s with pending := some (.wait 0 .abort) }) ∧
    (s.te.st = .dmaBusy → ms ≠ 0 →
      exec (.wait ms) s = .next { s with pending := some (.wait ms.toNat (.poll s.te.nowMs)) })) ∧
  (∀ (s : State) (ms : Nat) (t0 : Word), nextEvent s = .host → s.pending = some (.wait ms (.poll t0)) →
    (s.te.st ≠ .dmaBusy → step s = .next (complete true { turnTaken s with pending := none })) ∧
    (s.te.st = .dmaBusy → (s.te.nowMs.toNat + 2 ^ 32 - t0.toNat) % 2 ^ 32 < ms → step s = .next (turnTaken s)) ∧
    (s.te.st = .dmaBusy → ms ≤ (s.te.nowMs.toNat + 2 ^ 32 - t0.toNat) % 2 ^ 32 →
      step s = .next { turnTaken s with pending := some (.wait ms .abort) })) ∧
  (∀ (s : State) (ms : Nat), nextEvent s = .host → s.pending = some (.wait ms .abort) →
    (s.te.st ≠ .dmaBusy → step s = .next (complete false { turnTaken s with pending := none })) ∧
    (s.te.st = .dmaBusy → ∃ junk : List Byte, junk.length = s.params.scratchBytes ∧
      step s = .next { turnTaken s with
        te := { s.te with dma := none, st := .idle, cs := false, scratch := junk }
        wire := s.wire ++ [.desel]
        surf := { s.surf with win := { s.surf.win with armed := false } }
        port := { s.port with res := false }
        pending := none
        env := { (turnTaken s).env with draws := s.env.draws + 1 } }))

/-- R210 (C1, C9): ABORT deletes the transfer in flight, closes its frame, disarms the window and leaves the engine idle, keeping the
pending completions; the bytes of `scratch` are then unknown (log entry 9). With nothing in flight it changes nothing but `RES`. -/
def Obligations.AbortEndsTheTransfer : Prop :=
  ∀ s : State,
    (s.te.st = .dmaBusy → ∃ junk : List Byte, junk.length = s.params.scratchBytes ∧
      exec .abort s = .next { s with
        te := { s.te with dma := none, st := .idle, cs := false, scratch := junk }
        wire := s.wire ++ [.desel]
        surf := { s.surf with win := { s.surf.win with armed := false } }
        port := { s.port with res := true }
        env := { s.env with draws := s.env.draws + 1 } }) ∧
    (s.te.st ≠ .dmaBusy → exec .abort s = .next { s with port := { s.port with res := true } })

/-- R212: TEINIT claims the channel and the buffer, both claims being free values (log entry 8); a second TEINIT only reports `dma_ok` again. -/
def Obligations.TeinitClaimsTheChannel : Prop :=
  ∀ s : State,
    (s.te.inited = true → exec .teinit s = .next { s with port := { s.port with res := s.te.dmaOk } }) ∧
    (s.te.inited = false →
      ∃ chanClaimOk allocOk : Bool,
        chanClaimOk = Config.draw s.env.draws ∧ allocOk = Config.draw (s.env.draws + 1) ∧
        exec .teinit s = .next { s with
          te := { s.te with dmaOk := s.params.dmaPresent && chanClaimOk && allocOk, inited := true }
          port := { s.port with res := s.params.dmaPresent && chanClaimOk && allocOk }
          env := { s.env with draws := s.env.draws + 2 } })

/-- R213: TEFREE aborts a transfer in flight and gives the resources back, `scratch` then holding bytes nothing is known about (log entry 9);
with no resources held and nothing in flight it leaves `scratch` alone. -/
def Obligations.TefreeReleasesTheChannel : Prop :=
  ∀ s : State, ∃ junk : List Byte,
    (s.te.inited = true ∨ s.te.st = .dmaBusy → junk.length = s.params.scratchBytes) ∧
    (s.te.inited = false → s.te.st ≠ .dmaBusy → junk = s.te.scratch) ∧
    (s.te.st = .dmaBusy →
      exec .tefree s = .next { s with
        te := { s.te with dma := none, st := .idle, cs := false, dmaOk := false, inited := false, scratch := junk }
        wire := s.wire ++ [.desel]
        surf := { s.surf with win := { s.surf.win with armed := false } }
        port := { s.port with res := true }
        env := { s.env with draws := if s.te.inited then s.env.draws + 2 else s.env.draws + 1 } }) ∧
    (s.te.st ≠ .dmaBusy →
      exec .tefree s = .next { s with
        te := { s.te with dmaOk := false, inited := false, scratch := junk }
        port := { s.port with res := true }
        env := { s.env with draws := if s.te.inited then s.env.draws + 1 else s.env.draws } })

/-! ## The other agents -/

/-- R230, R231: the channel shifts one byte a step with the line high, and when all are out it raises the completion and forgets the
transfer. That a step with no transfer changes nothing is the model's (log entry 5). -/
def Obligations.DmaShiftsThenFinishes : Prop :=
  ∀ s : State, nextEvent s = .dma →
    (s.te.dma = none → step s = .next (turnTaken s)) ∧
    (∀ r, s.te.dma = some r → r.pos < r.len →
      step s = .next { turnTaken s with
        wire := s.wire ++ [.byte true (s.te.scratch.getD r.pos 0)]
        te := { s.te with dma := some { r with pos := r.pos + 1 } } }) ∧
    (∀ r, s.te.dma = some r → r.len ≤ r.pos → ∃ notes,
      step s = .next { turnTaken s with te := { s.te with dma := none, notePending := notes } } ∧
        ∀ q, q ∈ notes ↔ q ∈ s.te.notePending ∨ q = r.seq)

/-- R232, R234: a delivery removes its number from the pending completions; only that of the transfer in flight closes the frame and
ends `DmaBusy`, the bytes of `scratch` then being unknown (log entry 9); a stale one changes nothing else. That a delivery of nothing
changes nothing is the model's (log entry 5). -/
def Obligations.NotificationEndsItsTransferOnly : Prop :=
  ∀ (s : State) (k : Nat), nextEvent s = .notify k →
    (s.te.notePending[k]? = none → step s = .next (turnTaken s)) ∧
    (∀ q, s.te.notePending[k]? = some q → ∃ notes, (∀ p, p ∈ notes ↔ p ∈ s.te.notePending ∧ p ≠ q) ∧
      (s.te.st = .dmaBusy → s.te.xferSeq = q → ∃ junk : List Byte, junk.length = s.params.scratchBytes ∧
        step s = .next { turnTaken s with
          te := { s.te with notePending := notes, cs := false, st := .idle, scratch := junk }
          wire := s.wire ++ [.desel]
          env := { (turnTaken s).env with draws := s.env.draws + 1 } }) ∧
      (s.te.st ≠ .dmaBusy ∨ s.te.xferSeq ≠ q →
        step s = .next { turnTaken s with te := { s.te with notePending := notes } }))

/-- R233, R310: the clock counts modulo 2^32; the source appends its word to the FIFO. -/
def Obligations.ClockTicksAndSourceSupplies : Prop :=
  (∀ s : State, nextEvent s = .clock →
    step s = .next { turnTaken s with te := { s.te with nowMs := BitVec.ofNat 32 ((s.te.nowMs.toNat + 1) % 2 ^ 32) } }) ∧
  (∀ (s : State) (w : Word), nextEvent s = .source w →
    step s = .next { turnTaken s with host := { s.host with fifo := s.host.fifo ++ [w] } })

/-- R206, R240: a step that arms a transfer finds the engine not busy and holding its channel; the transfer gets the next number and
starts at its first byte. A second one is never armed beside it. -/
def Obligations.TransfersAreArmedOnlyWhenFree : Prop :=
  ∀ s t : State, EngineInv s → nextEvent s ≠ .reset → step s = .next t → t.te.xferSeq ≠ s.te.xferSeq →
    s.te.st = .idle ∧ s.te.dma = none ∧ s.te.dmaOk = true ∧ t.te.xferSeq = s.te.xferSeq + 1 ∧ t.te.st = .dmaBusy ∧
      ∃ len, t.te.dma = some { seq := t.te.xferSeq, len := len, pos := 0 }

/-- R241: the busy flag is cleared by the delivery of the transfer's own completion, by an abort (ABORT, TEFREE, or the abort step of
a wait), or by reset, and by nothing else. -/
def Obligations.BusyEndsOnlyByDeliveryOrAbort : Prop :=
  ∀ s t : State, s.te.st = .dmaBusy → step s = .next t → t.te.st ≠ .dmaBusy →
    nextEvent s = .reset ∨
    (∃ k, nextEvent s = .notify k ∧ s.te.notePending[k]? = some s.te.xferSeq) ∨
    (nextEvent s = .host ∧
      ((∃ ms, s.pending = some (.wait ms .abort)) ∨
       (∃ src total i n, s.pending = some (.burst src total i n .abort)) ∨
       (∃ w, hostNext s (.wr 0 w) ∧ (decode w = .command .abort ∨ decode w = .command .tefree))))

/-- R211, R87: the bytes of the transfer in flight on the wire are exactly the first `pos` of `scratch`, after the event that opened
its frame; every step keeps that. -/
def Obligations.FlightBytesInvariantKept : Prop :=
  ∀ s t : State, EngineInv s → FlightInv s → step s = .next t → FlightInv t

/-- R52: the relations between the engine's elements hold after every step. -/
def Obligations.EngineInvariantKept : Prop :=
  ∀ s t : State, EngineInv s → step s = .next t → EngineInv t

/-- R242: the bus discipline, and its agreement with the lines, hold after every step. -/
def Obligations.BusDisciplineKept : Prop :=
  ∀ s t : State, EngineInv s → BusInv s → step s = .next t → BusInv t

/-! ## Reset -/

/-- R60, R370, R371: reset gives every element of the block its value, for every build and whatever the unspecified elements hold; the
input from the platform does it at any time, forgets a transfer and an operation in progress, and leaves the host, which is the model's (log entry 14). -/
def Obligations.ResetGivesTheTableOfValues : Prop :=
  (∀ (p : Params) (u : Unspec), AtReset (State.resetWith p u) ∧ (State.resetWith p u).params = p) ∧
  (∀ s : State, nextEvent s = .reset →
    ∃ t, step s = .next t ∧ AtReset t ∧ t.params = s.params ∧ t.host = s.host)

/-- R60, R370 with the invariants: the state after reset is safe, for parameters in the ranges of R7 and any canonical content of
MEM. -/
def Obligations.ResetIsSafe : Prop :=
  ∀ (p : Params) (u : Unspec), p.wf = true → Memory.wf u.mem = true → memInside p.memBytes u.mem = true →
    SafeState (State.resetWith p u) ∧ FlightInv (State.resetWith p u)

/-! ## Surface: clipping -/

/-- R251: `ClipRect` is exactly the set of pixels of the rectangle that lie on the panel, and is `none` when there is no such pixel. -/
def Obligations.ClipIsTheVisiblePart : Prop :=
  ∀ (width height : Nat) (x y w h : Int),
    (clipRect width height x y w h = none ↔
      ¬∃ col row : Nat, col < width ∧ row < height ∧ x ≤ col ∧ (col : Int) < x + w ∧ y ≤ row ∧ (row : Int) < y + h) ∧
    ∀ c, clipRect width height x y w h = some c →
      c.x0 ≤ c.x1 ∧ c.x1 < width ∧ c.y0 ≤ c.y1 ∧ c.y1 < height ∧
      ∀ col row : Nat, (c.x0 ≤ col ∧ col ≤ c.x1 ∧ c.y0 ≤ row ∧ row ≤ c.y1) ↔
        (col < width ∧ row < height ∧ x ≤ col ∧ (col : Int) < x + w ∧ y ≤ row ∧ (row : Int) < y + h)

/-- R333, R251: a rectangle with nothing on the panel is a silent no-op of DRAWIMG and FILLRECT, in both variants, whatever else could
fault: `RES` is 1 and nothing is sent. -/
def Obligations.GeometryErrorsAreSilent : Prop :=
  ∀ s : State, visible s = none →
    exec .drawimg s = .next { s with port := { s.port with res := true } } ∧
    exec .fillrect s = .next { s with port := { s.port with res := true } }

/-! ## Surface: the windowed variant -/

/-- R258, R257, R218, R255, R105: SETWIN arms the visible part of its window, with the three transactions and the pixel count; inverted
or outside, it is a silent no-op; with bytes to send it faults while a transfer is in flight or a burst is partly written; on a paged
panel it does not exist. -/
def Obligations.SetwinArmsTheVisibleWindow : Prop :=
  ∀ s : State,
    (s.params.variant = .pagedMono → s.port.faulted = false → exec .setwin s = .next (latched 0x20 .illegalCmd s)) ∧
    (s.params.variant = .windowedRam →
      (s.port.a.a2.toInt < s.port.a.a0.toInt ∨ s.port.a.a3.toInt < s.port.a.a1.toInt →
        exec .setwin s = .next { s with port := { s.port with res := true } }) ∧
      (s.port.a.a0.toInt ≤ s.port.a.a2.toInt → s.port.a.a1.toInt ≤ s.port.a.a3.toInt →
        ∀ o, o = clipRect s.surf.width.toNat s.surf.height.toNat s.port.a.a0.toInt s.port.a.a1.toInt
            (s.port.a.a2.toInt - s.port.a.a0.toInt + 1) (s.port.a.a3.toInt - s.port.a.a1.toInt + 1) →
          (o = none → exec .setwin s = .next { s with port := { s.port with res := true } }) ∧
          (∀ c, o = some c →
            (surfaceReady s →
              exec .setwin s = .next { s with
                te := restedAt false s.te
                wire := s.wire ++ rectEvents s.params c
                surf := { s.surf with win :=
                  { armed := true
                    x0 := BitVec.ofNat 16 c.x0, y0 := BitVec.ofNat 16 c.y0
                    x1 := BitVec.ofNat 16 c.x1, y1 := BitVec.ofNat 16 c.y1
                    total := BitVec.ofNat 32 ((c.x1 - c.x0 + 1) * (c.y1 - c.y0 + 1))
                    remaining := BitVec.ofNat 32 ((c.x1 - c.x0 + 1) * (c.y1 - c.y0 + 1)) } }
                port := { s.port with res := true } }) ∧
            (s.port.faulted = false → s.te.st ≠ .idle → exec .setwin s = .next (latched 0x20 .busConflict s)) ∧
            (s.port.faulted = false → s.te.st = .idle → winPartly s.surf.win = true →
              exec .setwin s = .next (latched 0x20 .winUnderrun s)))))

/-- R266, R272, R262, R260: without the DMA channel FILLRECT sends its colour once for every visible pixel, and CLEAR its own for every
pixel of the panel, after the window that holds exactly those pixels. -/
def Obligations.FillSendsEveryPixel : Prop :=
  ∀ s : State, s.params.variant = .windowedRam → s.te.dmaOk = false → 1 ≤ s.params.chunkPix → surfaceReady s →
    (∀ c, visible s = some c →
      ∃ t, exec .fillrect s = .next t ∧
        drewInto s t c (List.replicate ((c.x1 - c.x0 + 1) * (c.y1 - c.y0 + 1)) (s.port.a.a4.extractLsb' 0 16))) ∧
    (1 ≤ s.surf.width.toNat → 1 ≤ s.surf.height.toNat →
      ∃ t, exec .clear s = .next t ∧
        drewInto s t { x0 := 0, y0 := 0, x1 := s.surf.width.toNat - 1, y1 := s.surf.height.toNat - 1 }
          (List.replicate (s.surf.width.toNat * s.surf.height.toNat) (s.port.a.a4.extractLsb' 0 16)))

/-- R264, R253, R262, R265: without the DMA channel DRAWIMG sends, for every visible pixel of the panel in row-major order, the
image's own pixel at that place. -/
def Obligations.DrawimgSendsTheVisiblePixels : Prop :=
  ∀ (s : State) (c : Rect), s.params.variant = .windowedRam → s.te.dmaOk = false → 1 ≤ s.params.chunkPix →
    surfaceReady s → visible s = some c → imageInMem s →
    ∃ t, exec .drawimg s = .next t ∧ drewInto s t c (rectPixels c (imagePixel s))

/-- R268, R253, R262: without the DMA channel PUSHPIX sends its run into the armed window and takes it off the count; at 0 the window
is spent. -/
def Obligations.PushpixSendsIntoTheWindow : Prop :=
  ∀ s : State, s.params.variant = .windowedRam → s.te.dmaOk = false → 1 ≤ s.params.chunkPix → s.te.st = .idle →
    runInMem s → s.surf.win.armed = true → s.port.a.a1.toNat ≤ s.surf.win.remaining.toNat →
    ∃ es, logical es = dataStream (runPixels s) ∧
      exec .pushpix s = .next { s with
        wire := s.wire ++ es
        te := if s.port.a.a1 = 0 then s.te else restedAt true s.te
        surf := { s.surf with win :=
          { s.surf.win with
            remaining := s.surf.win.remaining - s.port.a.a1
            armed := decide (s.port.a.a1.toNat < s.surf.win.remaining.toNat) } }
        port := { s.port with res := true } }

/-- R254, R255, R264, R266, R268, R272, R343: the faults of the windowed surface, each in its place in the order of tests. -/
def Obligations.WindowedFaultsInOrder : Prop :=
  ∀ s : State, s.params.variant = .windowedRam → s.port.faulted = false →
    (visible s ≠ none →
      (s.port.a.a4.toNat % 2 = 1 → exec .drawimg s = .next (latched 0x21 .align s)) ∧
      (s.port.a.a4.toNat % 2 = 0 → ¬imageInMem s → exec .drawimg s = .next (latched 0x21 .buffer s)) ∧
      (imageInMem s → s.te.st ≠ .idle → exec .drawimg s = .next (latched 0x21 .busConflict s)) ∧
      (imageInMem s → s.te.st = .idle → winPartly s.surf.win = true →
        exec .drawimg s = .next (latched 0x21 .winUnderrun s)) ∧
      (s.te.st ≠ .idle → exec .fillrect s = .next (latched 0x22 .busConflict s)) ∧
      (s.te.st = .idle → winPartly s.surf.win = true → exec .fillrect s = .next (latched 0x22 .winUnderrun s))) ∧
    (1 ≤ s.surf.width.toNat → 1 ≤ s.surf.height.toNat →
      (s.te.st ≠ .idle → exec .clear s = .next (latched 0x25 .busConflict s)) ∧
      (s.te.st = .idle → winPartly s.surf.win = true → exec .clear s = .next (latched 0x25 .winUnderrun s))) ∧
    (s.port.a.a0.toNat % 2 = 1 → exec .pushpix s = .next (latched 0x24 .align s)) ∧
    (s.port.a.a0.toNat % 2 = 0 → ¬runInMem s → exec .pushpix s = .next (latched 0x24 .buffer s)) ∧
    (runInMem s → s.te.st ≠ .idle → exec .pushpix s = .next (latched 0x24 .busConflict s)) ∧
    (runInMem s → s.te.st = .idle → s.surf.win.armed = false → exec .pushpix s = .next (latched 0x24 .winUnarmed s)) ∧
    (runInMem s → s.te.st = .idle → s.surf.win.armed = true → s.surf.win.remaining.toNat < s.port.a.a1.toNat →
      exec .pushpix s = .next (latched 0x24 .winOverrun s))

/-- R262, R257, R206: with the DMA channel a drawing command arms the window and hands the first chunk of at most `CHUNK_PIX` pixels to
the channel, then waits for it. PUSHPIX does the same from the window that is armed; of no pixel it completes. That the window and the
first chunk are one step is the model's (log entry 22), and so is that the wait begins in the step after the arming (log entry 7). -/
def Obligations.DrawingArmsTheFirstChunk : Prop :=
  (∀ (s : State) (c : Rect), s.params.variant = .windowedRam → s.te.dmaOk = true → 1 ≤ s.params.chunkPix →
    surfaceReady s → s.pending = none →
    (visible s = some c →
      exec .fillrect s = .next (firstChunkArmed s c (.solid (s.port.a.a4.extractLsb' 0 16))
        (List.replicate (rectCount c) (s.port.a.a4.extractLsb' 0 16)))) ∧
    (c = { x0 := 0, y0 := 0, x1 := s.surf.width.toNat - 1, y1 := s.surf.height.toNat - 1 } →
      1 ≤ s.surf.width.toNat → 1 ≤ s.surf.height.toNat →
      exec .clear s = .next (firstChunkArmed s c (.solid (s.port.a.a4.extractLsb' 0 16))
        (List.replicate (rectCount c) (s.port.a.a4.extractLsb' 0 16)))) ∧
    (visible s = some c → imageInMem s →
      ∃ src, exec .drawimg s = .next (firstChunkArmed s c src (rectPixels c (imagePixel s))) ∧
        pixChunk s.mem src 0 (rectCount c) = rectPixels c (imagePixel s))) ∧
  (∀ s : State, s.params.variant = .windowedRam → s.te.dmaOk = true → 1 ≤ s.params.chunkPix → s.te.st = .idle →
    s.pending = none → runInMem s → s.surf.win.armed = true → s.port.a.a1.toNat ≤ s.surf.win.remaining.toNat →
    (s.port.a.a1 = 0 →
      exec .pushpix s = .next { s with
        surf := { s.surf with win := { s.surf.win with armed := decide (0 < s.surf.win.remaining.toNat) } }
        port := { s.port with res := true } }) ∧
    (∀ n, n = min s.params.chunkPix s.port.a.a1.toNat → s.port.a.a1 ≠ 0 →
      exec .pushpix s = .next { s with
        wire := s.wire ++ [.sel]
        te := { s.te with
          scratch := ((runPixels s).take n).flatMap (pixBytes s.params.pixOrderDma) ++ s.te.scratch.drop (2 * n)
          xferSeq := s.te.xferSeq + 1
          dma := some { seq := s.te.xferSeq + 1, len := 2 * n, pos := 0 }
          dc := true, cs := true, st := .dmaBusy }
        surf := { s.surf with win :=
          { s.surf.win with remaining := BitVec.ofNat 32 (s.surf.win.remaining.toNat - n) } }
        pending := some (.burst (.run s.port.a.a0.toNat) s.port.a.a1.toNat 0 n .start) }))

/-- R262, R263, R208: a step of the host inside the wait of a burst: it goes on waiting; or it hands over the next chunk; or, all chunks
sent, it completes with 1, the window spent when its count is reached; or, the time being up, it aborts in a step of its own, drops the
rest and completes with 0, no window armed, the bytes of `scratch` unknown (log entry 9). Where the steps of the wait divide is the
model's (log entry 7), and so is that the end of a wait and the arming of the next chunk are one step (log entry 22). -/
def Obligations.BurstGoesOnChunkByChunk : Prop :=
  ∀ (s : State) (src : PixSrc) (total i n : Nat) (ph : WaitPhase),
    nextEvent s = .host → s.pending = some (.burst src total i n ph) →
    (s.te.st = .dmaBusy → ∀ t0, (ph = .start ∧ t0 = s.te.nowMs ∨ ph = .poll t0) →
      step s = .next { turnTaken s with pending := some (.burst src total i n
        (if s.params.xferTimeoutMs.toNat ≤ (s.te.nowMs.toNat + 2 ^ 32 - t0.toNat) % 2 ^ 32 then .abort else .poll t0)) }) ∧
    (s.te.st ≠ .dmaBusy → ph ≠ .abort → total ≤ i + n →
      step s = .next { turnTaken s with
        surf := { s.surf with win :=
          { s.surf.win with armed := s.surf.win.armed && decide (s.surf.win.remaining ≠ 0) } }
        port := { s.port with res := true }
        pending := none }) ∧
    (s.te.st ≠ .dmaBusy → ph ≠ .abort → s.te.dmaOk = true → 1 ≤ s.params.chunkPix → i + n < total →
      ∀ m, m = min s.params.chunkPix (total - (i + n)) →
      step s = .next { turnTaken s with
        wire := s.wire ++ [.sel]
        te := { s.te with
          scratch := (pixChunk s.mem src (i + n) m).flatMap (pixBytes s.params.pixOrderDma) ++ s.te.scratch.drop (2 * m)
          xferSeq := s.te.xferSeq + 1
          dma := some { seq := s.te.xferSeq + 1, len := 2 * m, pos := 0 }
          dc := true, cs := true, st := .dmaBusy }
        surf := { s.surf with win := { s.surf.win with remaining := s.surf.win.remaining - BitVec.ofNat 32 m } }
        pending := some (.burst src total (i + n) m .start) }) ∧
    (ph = .abort → s.te.st ≠ .dmaBusy →
      step s = .next { turnTaken s with
        surf := { s.surf with win := { s.surf.win with armed := false } }
        port := { s.port with res := false }
        pending := none }) ∧
    (ph = .abort → s.te.st = .dmaBusy → ∃ junk : List Byte, junk.length = s.params.scratchBytes ∧
      step s = .next { turnTaken s with
        te := { s.te with dma := none, st := .idle, cs := false, scratch := junk }
        wire := s.wire ++ [.desel]
        surf := { s.surf with win := { s.surf.win with armed := false } }
        port := { s.port with res := false }
        pending := none
        env := { (turnTaken s).env with draws := s.env.draws + 1 } })

/-- R262, R263: along every run of a burst on the DMA channel the logical stream holds the burst's pixels in order, whatever the agents'
interleaving: an invariant of every step up to the end, and at an end with `RES = 1` the stream holds all of them and nothing else. -/
def Obligations.BurstStreamKept : Prop :=
  ∀ (base : List (Bool × Byte)) (s t : State) (src : PixSrc) (total i n : Nat) (ph : WaitPhase),
    EngineInv s → BurstStream base s → s.pending = some (.burst src total i n ph) → 1 ≤ s.params.chunkPix →
    nextEvent s ≠ .reset → step s = .next t →
    (t.pending ≠ none → BurstStream base t) ∧
    (t.pending = none → t.port.res = true → logical t.wire =
      base ++ (pixRunBytes s.params.pixOrderDma (pixChunk s.mem src 0 total)).map fun b => (true, b))

/-- R270, R302, R105: SETROT on a windowed panel writes the orientation byte of its rotation, and re-arms the full-screen window at the
swapped size exactly when the parity of the code changes; on a paged panel only rotation 0 exists and does nothing. -/
def Obligations.SetrotSetsTheRotation : Prop :=
  ∀ (rot : BitVec 2) (s : State),
    (s.params.variant = .windowedRam → surfaceReady s → ∀ o : Byte,
      [s.params.orient.r0, s.params.orient.r1, s.params.orient.r2, s.params.orient.r3][rot.toNat]? = some o →
      (rot.toNat % 2 = s.surf.rotation.toNat % 2 →
        exec (.setrot rot) s = .next { s with
          te := restedAt true s.te
          wire := s.wire ++ [.sel, .byte false s.params.opMadctl, .desel, .sel, .byte true o, .desel]
          surf := { s.surf with rotation := rot, win := { s.surf.win with armed := false } }
          port := { s.port with res := true } }) ∧
      (rot.toNat % 2 ≠ s.surf.rotation.toNat % 2 → 1 ≤ s.surf.width.toNat → 1 ≤ s.surf.height.toNat →
        exec (.setrot rot) s = .next { s with
          te := restedAt false s.te
          wire := s.wire ++ [.sel, .byte false s.params.opMadctl, .desel, .sel, .byte true o, .desel] ++
            windowEvents s.params 0 0 (s.surf.height - 1) (s.surf.width - 1)
          surf :=
            { rotation := rot, width := s.surf.height, height := s.surf.width
              win :=
                { armed := true, x0 := 0, y0 := 0, x1 := s.surf.height - 1, y1 := s.surf.width - 1
                  total := BitVec.ofNat 32 (s.surf.width.toNat * s.surf.height.toNat)
                  remaining := BitVec.ofNat 32 (s.surf.width.toNat * s.surf.height.toNat) } }
          port := { s.port with res := true } })) ∧
    (s.params.variant = .windowedRam → s.port.faulted = false →
      (s.te.st ≠ .idle → exec (.setrot rot) s = .next (latched 0x23 .busConflict s)) ∧
      (s.te.st = .idle → winPartly s.surf.win = true → exec (.setrot rot) s = .next (latched 0x23 .winUnderrun s))) ∧
    (s.params.variant = .pagedMono →
      (rot = 0 → exec (.setrot rot) s = .next { s with port := { s.port with res := true } }) ∧
      (rot ≠ 0 → s.port.faulted = false → exec (.setrot rot) s = .next (latched 0x23 .illegalCmd s)))

/-- R274, R304: SURFINIT, in both variants, sends the table, one frame an item and none for an empty one, puts the surface at rotation 0
and the native size, and returns the panel's acknowledgement, a free value (log entry 8). -/
def Obligations.SurfinitSendsTheTable : Prop :=
  ∀ s : State,
    (s.te.st = .idle → s.te.cs = false →
      exec .surfinit s = .next { s with
        te := { s.te with dc := levelAfter s.te.dc s.params.initSeq }
        wire := s.wire ++ s.params.initSeq.flatMap initEvents
        surf :=
          { rotation := 0, width := s.params.nativeW, height := s.params.nativeH
            win := { s.surf.win with armed := false } }
        port := { s.port with res := Config.draw s.env.draws }
        env := { s.env with draws := s.env.draws + 1 } }) ∧
    (s.te.st ≠ .idle → s.port.faulted = false → exec .surfinit s = .next (latched 0x26 .busConflict s))

/-- R44, R45, R253, R271, R291: the size follows the rotation, an armed window lies on the panel with the right count, and a burst in
progress fits what the window still takes; every step keeps that. -/
def Obligations.SurfaceInvariantKept : Prop :=
  ∀ s t : State, SurfaceInv s → step s = .next t → SurfaceInv t

/-! ## Surface: the paged variant -/

/-- R292, R124: bit `k` of a page byte is the pixel of row `8p + k`, 0 outside the rectangle. -/
def Obligations.PageByteHoldsEightRows : Prop :=
  ∀ (isLit : Nat → Nat → Bool) (c : Rect) (page col k : Nat), k < 8 →
    (pageByte isLit c page col).getLsbD k =
      (decide (c.y0 ≤ 8 * page + k) && decide (8 * page + k ≤ c.y1) && isLit col (8 * page + k))

/-- R296, R298, R300, R293, R295: a paged panel gets, for every page the rectangle touches, in ascending order, the page select, the two
column nibbles and one byte for each column; DRAWIMG from the luminance of the image's pixels, FILLRECT from that of its colour, CLEAR
zeros for the whole panel. -/
def Obligations.PagedDrawingSendsPageRows : Prop :=
  ∀ s : State, s.params.variant = .pagedMono → s.te.st = .idle →
    (∀ c, visible s = some c → imageInMem s →
      exec .drawimg s = .next { s with
        te := restedAt true s.te
        wire := s.wire ++ (List.range (c.y1 / 8 - c.y0 / 8 + 1)).flatMap (fun k =>
          pageEvents s.params (c.y0 / 8 + k) c.x0 ((List.range (c.x1 - c.x0 + 1)).map fun j =>
            pageByte (fun col row => decide (s.params.monoT ≤ (luma s.params (imagePixel s col row) : Int)))
              c (c.y0 / 8 + k) (c.x0 + j)))
        port := { s.port with res := true } }) ∧
    (∀ c, visible s = some c →
      exec .fillrect s = .next { s with
        te := restedAt true s.te
        wire := s.wire ++ (List.range (c.y1 / 8 - c.y0 / 8 + 1)).flatMap (fun k =>
          pageEvents s.params (c.y0 / 8 + k) c.x0 ((List.range (c.x1 - c.x0 + 1)).map fun j =>
            pageByte (fun _ _ => decide (s.params.monoT ≤ (luma s.params (s.port.a.a4.extractLsb' 0 16) : Int)))
              c (c.y0 / 8 + k) (c.x0 + j)))
        port := { s.port with res := true } }) ∧
    (8 ≤ s.params.nativeH.toNat →
      exec .clear s = .next { s with
        te := restedAt true s.te
        wire := s.wire ++ (List.range (s.params.nativeH.toNat / 8)).flatMap (fun k =>
          pageEvents s.params k 0 (List.replicate s.params.nativeW.toNat 0))
        port := { s.port with res := true } })

/-- R296, R298, R300, R268, R105, R343: the faults of the paged surface, in the order of tests. -/
def Obligations.PagedFaultsInOrder : Prop :=
  ∀ s : State, s.params.variant = .pagedMono → s.port.faulted = false →
    (visible s ≠ none →
      (s.port.a.a4.toNat % 2 = 1 → exec .drawimg s = .next (latched 0x21 .align s)) ∧
      (s.port.a.a4.toNat % 2 = 0 → ¬imageInMem s → exec .drawimg s = .next (latched 0x21 .buffer s)) ∧
      (imageInMem s → s.te.st ≠ .idle → exec .drawimg s = .next (latched 0x21 .busConflict s)) ∧
      (s.te.st ≠ .idle → exec .fillrect s = .next (latched 0x22 .busConflict s))) ∧
    (s.te.st ≠ .idle → exec .clear s = .next (latched 0x25 .busConflict s)) ∧
    exec .pushpix s = .next (latched 0x24 .illegalCmd s)

/-! ## Resampler -/

/-- R141, R142: BUILDMAPS gives every destination index the floor of the exact quotient, clamped to the source, and records the sizes;
its four tests come first and leave the old maps. -/
def Obligations.BuildmapsBuildsBothMaps : Prop :=
  ∀ s : State,
    (s.port.a.a0 ≠ 0 → s.port.a.a1 ≠ 0 → s.port.a.a4 ≠ 0 → s.port.a.a0.toNat ≤ 65535 → s.port.a.a1.toNat ≤ 65535 →
      s.port.a.a2.toNat ≤ s.params.mapMax.toNat → s.port.a.a3.toNat ≤ s.params.mapMax.toNat →
      ∃ xmap ymap, exec .buildmaps s = .next { s with
          rsm :=
            { valid := true
              sw := BitVec.ofNat 16 s.port.a.a0.toNat, sh := BitVec.ofNat 16 s.port.a.a1.toNat
              dw := BitVec.ofNat 16 s.port.a.a2.toNat, dh := BitVec.ofNat 16 s.port.a.a3.toNat
              xmap := xmap, ymap := ymap }
          port := { s.port with res := true } } ∧
        xmap.length = s.port.a.a2.toNat ∧ ymap.length = s.port.a.a3.toNat ∧
        (∀ d, d < s.port.a.a2.toNat →
          (xmap.getD d 0).toNat = min (d * 65536 / s.port.a.a4.toNat) (s.port.a.a0.toNat - 1)) ∧
        (∀ d, d < s.port.a.a3.toNat →
          (ymap.getD d 0).toNat = min (d * 65536 / s.port.a.a4.toNat) (s.port.a.a1.toNat - 1))) ∧
    (s.port.faulted = false →
      (65535 < s.port.a.a0.toNat ∨ 65535 < s.port.a.a1.toNat ∨ 65535 < s.port.a.a2.toNat ∨ 65535 < s.port.a.a3.toNat ∨
        s.port.a.a0 = 0 ∨ s.port.a.a1 = 0 ∨ s.params.mapMax.toNat < s.port.a.a2.toNat ∨
        s.params.mapMax.toNat < s.port.a.a3.toNat ∨ s.port.a.a4 = 0) →
      exec .buildmaps s = .next (latched 0x40 .param s))

/-- R144, R147: at a scale of 1 or more consecutive entries differ by 0 or 1, so no source pixel is skipped; at scale 1 the entries are
the identity, up to the clamp. -/
def Obligations.MagnificationNeverSkips : Prop :=
  ∀ d q n : Nat, 65536 ≤ q → 1 ≤ n →
    mapEntry d q n ≤ mapEntry (d + 1) q n ∧ mapEntry (d + 1) q n ≤ mapEntry d q n + 1 ∧
      (q = 65536 → mapEntry d q n = min d (n - 1))

/-- R47, R143: valid maps hold entries below the source size, non-decreasing, as many as the destination has; every step keeps that. -/
def Obligations.MapInvariantKept : Prop :=
  ∀ s t : State, MapInv s → step s = .next t → MapInv t

/-- R146: RESAMPLE copies to every destination pixel the source pixel its maps select, and changes no other byte. -/
def Obligations.ResampleCopiesTheSelectedPixels : Prop :=
  ∀ s : State, MemInv s → MapInv s → s.rsm.valid = true →
    s.port.a.a0.toNat % 2 = 0 → s.port.a.a0.toNat + 2 * s.rsm.sw.toNat * s.rsm.sh.toNat ≤ s.params.memBytes →
    s.port.a.a1.toNat % 2 = 0 → s.port.a.a1.toNat + 2 * s.rsm.dw.toNat * s.rsm.dh.toNat ≤ s.params.memBytes →
    (∀ b, s.port.a.a0.toNat ≤ b → b < s.port.a.a0.toNat + 2 * s.rsm.sw.toNat * s.rsm.sh.toNat →
      ¬(s.port.a.a1.toNat ≤ b ∧ b < s.port.a.a1.toNat + 2 * s.rsm.dw.toNat * s.rsm.dh.toNat)) →
    ∃ m, exec .resample s = .next { s with mem := m, port := { s.port with res := true } } ∧
      (∀ x y, x < s.rsm.dw.toNat → y < s.rsm.dh.toNat →
        memReadPix m (s.port.a.a1.toNat + 2 * (y * s.rsm.dw.toNat + x)) =
          memReadPix s.mem (s.port.a.a0.toNat +
            2 * ((s.rsm.ymap.getD y 0).toNat * s.rsm.sw.toNat + (s.rsm.xmap.getD x 0).toNat))) ∧
      (∀ b, ¬(s.port.a.a1.toNat ≤ b ∧ b < s.port.a.a1.toNat + 2 * s.rsm.dw.toNat * s.rsm.dh.toNat) →
        memRead m b = memRead s.mem b)

/-- R146, R343: RESAMPLE tests the maps, the source buffer, the destination buffer and their overlap, in that order. -/
def Obligations.ResampleFaultsInOrder : Prop :=
  ∀ (s : State) (src dst nSrc nDst : Nat), s.port.faulted = false →
    src = s.port.a.a0.toNat → dst = s.port.a.a1.toNat →
    nSrc = 2 * s.rsm.sw.toNat * s.rsm.sh.toNat → nDst = 2 * s.rsm.dw.toNat * s.rsm.dh.toNat →
    (s.rsm.valid = false → exec .resample s = .next (latched 0x41 .mapInvalid s)) ∧
    (s.rsm.valid = true →
      (src % 2 = 1 → exec .resample s = .next (latched 0x41 .align s)) ∧
      (src % 2 = 0 → s.params.memBytes < src + nSrc → exec .resample s = .next (latched 0x41 .buffer s)) ∧
      (src % 2 = 0 → src + nSrc ≤ s.params.memBytes → dst % 2 = 1 → exec .resample s = .next (latched 0x41 .align s)) ∧
      (src % 2 = 0 → src + nSrc ≤ s.params.memBytes → dst % 2 = 0 →
        (s.params.memBytes < dst + nDst ∨ ∃ b, src ≤ b ∧ b < src + nSrc ∧ dst ≤ b ∧ b < dst + nDst) →
        exec .resample s = .next (latched 0x41 .buffer s)))

/-! ## Ditherers -/

/-- R163, R164, R166: DITHB replaces every pixel of a buffer of palette colours by its tone, and changes no other byte. -/
def Obligations.DithbMapsEveryPixel : Prop :=
  ∀ (s : State) (buf w h : Nat), MemInv s →
    buf = s.port.a.a0.toNat → w = s.port.a.a1.toNat → h = s.port.a.a2.toNat →
    w ≤ 65535 → h ≤ 65535 → buf % 2 = 0 → buf + 2 * w * h ≤ s.params.memBytes →
    (∀ x y, x < w → y < h → memReadPix s.mem (buf + 2 * (y * w + x)) ∈
      [s.port.pal.p0, s.port.pal.p1, s.port.pal.p2, s.port.pal.p3]) →
    ∃ m, exec .dithb s = .next { s with mem := m, port := { s.port with res := true } } ∧
      (∀ x y, x < w → y < h → memReadPix m (buf + 2 * (y * w + x)) =
        orderedTone s (memReadPix s.mem (buf + 2 * (y * w + x))) x y) ∧
      (∀ b, ¬(buf ≤ b ∧ b < buf + 2 * w * h) → memRead m b = memRead s.mem b)

/-- R166, R182, R343: both ditherers test the dimensions, then alignment, then range; DITHB last the colours, before any pixel is
written. -/
def Obligations.DitherFaultsInOrder : Prop :=
  ∀ (s : State) (buf w h : Nat), s.port.faulted = false →
    buf = s.port.a.a0.toNat → w = s.port.a.a1.toNat → h = s.port.a.a2.toNat →
    (65535 < w ∨ 65535 < h →
      exec .dithb s = .next (latched 0x50 .param s) ∧ exec .dithfs s = .next (latched 0x51 .param s)) ∧
    (w ≤ 65535 → h ≤ 65535 →
      (buf % 2 = 1 →
        exec .dithb s = .next (latched 0x50 .align s) ∧ exec .dithfs s = .next (latched 0x51 .align s)) ∧
      (buf % 2 = 0 → s.params.memBytes < buf + 2 * w * h →
        exec .dithb s = .next (latched 0x50 .buffer s) ∧ exec .dithfs s = .next (latched 0x51 .buffer s)) ∧
      (buf % 2 = 0 → buf + 2 * w * h ≤ s.params.memBytes →
        (∃ x y, x < w ∧ y < h ∧ memReadPix s.mem (buf + 2 * (y * w + x)) ∉
          [s.port.pal.p0, s.port.pal.p1, s.port.pal.p2, s.port.pal.p3]) →
        exec .dithb s = .next (latched 0x50 .notPalette s)))

/-- R181 to R185: DITHFS is error diffusion: there are accumulated values, each the pixel's own luminance and what reaches it from the
pixels visited before it, and every pixel becomes the tone of its value; no other byte changes. -/
def Obligations.DithfsIsErrorDiffusion : Prop :=
  ∀ (s : State) (buf w h : Nat), MemInv s →
    buf = s.port.a.a0.toNat → w = s.port.a.a1.toNat → h = s.port.a.a2.toNat →
    w ≤ 65535 → h ≤ 65535 → buf % 2 = 0 → buf + 2 * w * h ≤ s.params.memBytes →
    ∃ (m : Memory) (v : Nat → Nat → Int),
      exec .dithfs s = .next { s with mem := m, port := { s.port with res := true } } ∧
      (∀ x y, x < w → y < h →
        v x y = (luma s.params (memReadPix s.mem (buf + 2 * (y * w + x))) : Int) + incomingError s w v x y ∧
        memReadPix m (buf + 2 * (y * w + x)) = diffusedTone s (v x y)) ∧
      (∀ b, ¬(buf ≤ b ∧ b < buf + 2 * w * h) → memRead m b = memRead s.mem b)

/-- R190: with tones that bracket the picture and the default share, a pixel as light as the light tone becomes the light tone and one
as dark as the dark tone the dark one, wherever it stands. -/
def Obligations.DithfsPreservesExtremes : Prop :=
  ∀ (s t : State) (buf w h : Nat), MemInv s → s.params.fsShare = .default →
    buf = s.port.a.a0.toNat → w = s.port.a.a1.toNat → h = s.port.a.a2.toNat →
    w ≤ 65535 → h ≤ 65535 → buf % 2 = 0 → buf + 2 * w * h ≤ s.params.memBytes →
    luma s.params s.port.toneD < luma s.params s.port.toneL →
    (∀ x y, x < w → y < h →
      luma s.params s.port.toneD ≤ luma s.params (memReadPix s.mem (buf + 2 * (y * w + x))) ∧
      luma s.params (memReadPix s.mem (buf + 2 * (y * w + x))) ≤ luma s.params s.port.toneL) →
    exec .dithfs s = .next t →
    ∀ x y, x < w → y < h →
      (luma s.params (memReadPix s.mem (buf + 2 * (y * w + x))) = luma s.params s.port.toneL →
        memReadPix t.mem (buf + 2 * (y * w + x)) = s.port.toneL) ∧
      (luma s.params (memReadPix s.mem (buf + 2 * (y * w + x))) = luma s.params s.port.toneD →
        memReadPix t.mem (buf + 2 * (y * w + x)) = s.port.toneD)

/-! ## Host port and MEM -/

/-- R24, R30, R33, R34: a host write to a register other than `CMD` stores the low bits a read-write register has, and is ignored by
every other number; nothing else changes. -/
def Obligations.RegisterWritesReadBack : Prop :=
  (∀ (s : State) (n : BitVec 6) (v : Word), hostNext s (.wr n v) → n ≠ 0 →
    step s = .next (regWrite (advance (turnTaken s)) n v)) ∧
  (∀ (s : State) (n : BitVec 6) (v : Word), n ≠ 0 →
    (8 ≤ n.toNat ∧ n.toNat ≤ 15 → regRead (regWrite s n v) n = v) ∧
    (16 ≤ n.toNat ∧ n.toNat ≤ 21 → (regRead (regWrite s n v) n).toNat = v.toNat % 2 ^ 16) ∧
    (n.toNat = 31 → (regRead (regWrite s n v) n).toNat = v.toNat % 2 ^ 17) ∧
    (n.toNat < 8 ∨ 21 < n.toNat ∧ n.toNat ≠ 31 → regWrite s n v = s) ∧
    (∀ m, m ≠ n → m ≠ 0x20 ∨ n ≠ 0x1F → regRead (regWrite s n v) m = regRead s m) ∧
    regWrite s n v = { s with port := (regWrite s n v).port })

/-- R21, R24, R26 to R33: what the host reads from each register, field by field, the operand registers, the palette, the tones and
`MAPSEL` each at its own number; a reserved number and `CMD` read 0, and a read changes nothing of the block. -/
def Obligations.RegisterReadsShowTheState : Prop :=
  (∀ (s : State) (n : BitVec 6), hostNext s (.rd n) → step s = .next (hostReads (regRead s n) (advance (turnTaken s)))) ∧
  (∀ s : State,
    (regRead s 0x01).toNat = s.port.res.toNat ∧
    (∀ code, (s.te.st, code) ∈ [(TeState.idle, 0), (.selectedCommand, 1), (.selectedData, 2), (.dmaBusy, 3), (.aborted, 4)] →
      (regRead s 0x02).toNat = code + 2 ^ 3 * s.te.cs.toNat + 2 ^ 4 * s.te.dc.toNat + 2 ^ 5 * s.te.dmaOk.toNat +
        2 ^ 6 * s.surf.win.armed.toNat + 2 ^ 7 * s.rsm.valid.toNat + 2 ^ 8 * s.port.faulted.toNat +
        2 ^ 9 * s.te.inited.toNat) ∧
    regRead s 0x03 = s.port.fault ∧ regRead s 0x04 = s.te.nowMs ∧
    regRead s 0x08 = s.port.a.a0 ∧ regRead s 0x09 = s.port.a.a1 ∧ regRead s 0x0A = s.port.a.a2 ∧ regRead s 0x0B = s.port.a.a3 ∧
    regRead s 0x0C = s.port.a.a4 ∧ regRead s 0x0D = s.port.a.a5 ∧ regRead s 0x0E = s.port.a.a6 ∧ regRead s 0x0F = s.port.a.a7 ∧
    (regRead s 0x10).toNat = s.port.pal.p0.toNat ∧ (regRead s 0x11).toNat = s.port.pal.p1.toNat ∧
    (regRead s 0x12).toNat = s.port.pal.p2.toNat ∧ (regRead s 0x13).toNat = s.port.pal.p3.toNat ∧
    (regRead s 0x14).toNat = s.port.toneL.toNat ∧ (regRead s 0x15).toNat = s.port.toneD.toNat ∧
    (regRead s 0x18).toNat = 2 ^ 16 * s.surf.height.toNat + s.surf.width.toNat ∧
    (regRead s 0x19).toNat = s.surf.rotation.toNat ∧
    (regRead s 0x1A).toNat =
      (if s.surf.win.armed then 2 ^ 16 * s.surf.win.x1.toNat + s.surf.win.x0.toNat else 0) ∧
    (regRead s 0x1B).toNat =
      (if s.surf.win.armed then 2 ^ 16 * s.surf.win.y1.toNat + s.surf.win.y0.toNat else 0) ∧
    regRead s 0x1C = (if s.surf.win.armed then s.surf.win.remaining else 0) ∧
    (regRead s 0x1D).toNat = 2 ^ 16 * s.rsm.sh.toNat + s.rsm.sw.toNat ∧
    (regRead s 0x1E).toNat = 2 ^ 16 * s.rsm.dh.toNat + s.rsm.dw.toNat ∧
    (regRead s 0x1F).toNat = s.port.mapSel.toNat ∧
    (regRead s 0x20).toNat =
      (if s.rsm.valid = false then 0
       else if 2 ^ 16 ≤ s.port.mapSel.toNat then
         (if s.port.mapSel.toNat % 2 ^ 16 < s.rsm.dh.toNat then
           (s.rsm.ymap.getD (s.port.mapSel.toNat % 2 ^ 16) 0).toNat else 0)
       else
         (if s.port.mapSel.toNat % 2 ^ 16 < s.rsm.dw.toNat then
           (s.rsm.xmap.getD (s.port.mapSel.toNat % 2 ^ 16) 0).toNat else 0)) ∧
    (∀ n : BitVec 6, n.toNat ∈ [0, 5, 6, 7, 22, 23] ∨ 32 < n.toNat → regRead s n = 0))

/-- R70 to R74, R93, R107: the host's own accesses: a store changes the bytes it names and no other, a pixel is little-endian, a load
returns what is stored; an access outside MEM or misaligned is the platform's, and the step stops, which is the model's (log entry 13). -/
def Obligations.HostAccessesMem : Prop :=
  ∀ (s : State) (a : Nat), MemInv s →
    (∀ v, hostNext s (.st8 a v) →
      (a < s.params.memBytes → ∃ m, step s = .next { advance (turnTaken s) with mem := m } ∧
        memRead m a = v ∧ ∀ b, b ≠ a → memRead m b = memRead s.mem b) ∧
      (s.params.memBytes ≤ a → step s = .fault (.hostOutsideMem a))) ∧
    (hostNext s (.ld8 a) →
      (a < s.params.memBytes →
        step s = .next (hostReads (BitVec.ofNat 32 (memRead s.mem a).toNat) (advance (turnTaken s)))) ∧
      (s.params.memBytes ≤ a → step s = .fault (.hostOutsideMem a))) ∧
    (∀ v, hostNext s (.st16 a v) →
      (a % 2 = 1 → step s = .refused (.hostMisaligned a)) ∧
      (a % 2 = 0 → s.params.memBytes ≤ a + 1 → step s = .fault (.hostOutsideMem a)) ∧
      (a % 2 = 0 → a + 1 < s.params.memBytes → ∃ m, step s = .next { advance (turnTaken s) with mem := m } ∧
        memRead m a = lo8 v ∧ memRead m (a + 1) = hi8 v ∧ memReadPix m a = v ∧
        ∀ b, b ≠ a → b ≠ a + 1 → memRead m b = memRead s.mem b)) ∧
    (hostNext s (.ld16 a) →
      (a % 2 = 1 → step s = .refused (.hostMisaligned a)) ∧
      (a % 2 = 0 → s.params.memBytes ≤ a + 1 → step s = .fault (.hostOutsideMem a)) ∧
      (a % 2 = 0 → a + 1 < s.params.memBytes →
        step s = .next (hostReads (BitVec.ofNat 32 (2 ^ 8 * (memRead s.mem (a + 1)).toNat + (memRead s.mem a).toNat))
          (advance (turnTaken s)))))

/-- R70: MEM keeps its canonical form, which is the model's (log entry 3), and lists only its own addresses, under every step. -/
def Obligations.MemInvariantKept : Prop :=
  ∀ s t : State, MemInv s → step s = .next t → MemInv t

/-! ## The frame loop -/

/-- R313, R314, R316: the loop polls one word a step and leaves its poll at the falling edge of vsync only; with an empty FIFO it waits. The
steps the loop is divided into are the model's (log entry 16). -/
def Obligations.FrameLoopWaitsForTheEdge : Prop :=
  ∀ (s : State) (cfg : FrameCfg), loopNext s { cfg := cfg, phase := .poll } →
    (s.host.fifo = [] → step s = .next (turnTaken s)) ∧
    (∀ w rest, s.host.fifo = w :: rest → ∀ cur edge : Bool, cur = decide (2 ^ 31 ≤ w.toNat) →
      edge = (s.host.prevVsync && !cur) →
      step s = .next { turnTaken s with host :=
        { s.host with
          fifo := rest
          prevVsync := cur
          edge := edge
          loop := some { cfg := cfg, phase := if edge then .clear w else .poll } } })

/-- R128, R129, R316, R317, R387: pixel 0 of a frame is the palette colour of the edge word, pixel `i` that of the `i`-th further word, each
stored at its place in the source buffer; after 23 040 pixels the loop goes on to RESAMPLE. That bit 30 is the more significant bit of the
colour index is the spec's own reading (R128: "reading them as the field `w[30:29]` is the spec's"). The palette is the host's
own copy; while it agrees with the registers, the host's duty of R387, every colour stored is one of `PAL0`..`PAL3`, those DITHB accepts.
That the copy is part of the loop's configuration is the model's (log entry 15), and so are the steps (log entry 16). -/
def Obligations.FrameLoopCapturesThePixels : Prop :=
  ∀ (s : State) (cfg : FrameCfg), MemInv s →
    (∀ w, loopNext s { cfg := cfg, phase := .first w } →
      cfg.src.toNat % 2 = 0 → cfg.src.toNat + 1 < s.params.memBytes →
      ∃ m, step s = .next { turnTaken s with
          mem := m
          host := { s.host with firstDone := true, loop := some { cfg := cfg, phase := .capture 1 } } } ∧
        memReadPix m cfg.src.toNat =
          wordColour cfg.pal w ∧
        ∀ b, b ≠ cfg.src.toNat → b ≠ cfg.src.toNat + 1 → memRead m b = memRead s.mem b) ∧
    (∀ i, loopNext s { cfg := cfg, phase := .capture i } →
      (23040 ≤ i → step s = .next { turnTaken s with
        host := { s.host with loop := some { cfg := cfg, phase := .resample } } }) ∧
      (i < 23040 → s.host.fifo = [] → step s = .next (turnTaken s)) ∧
      (∀ w rest, i < 23040 → s.host.fifo = w :: rest →
        cfg.src.toNat % 2 = 0 → cfg.src.toNat + 2 * i + 1 < s.params.memBytes →
        ∃ m, step s = .next { turnTaken s with
            mem := m
            host := { s.host with fifo := rest, loop := some { cfg := cfg, phase := .capture (i + 1) } } } ∧
          memReadPix m (cfg.src.toNat + 2 * i) =
            wordColour cfg.pal w ∧
          ∀ b, b ≠ cfg.src.toNat + 2 * i → b ≠ cfg.src.toNat + 2 * i + 1 → memRead m b = memRead s.mem b)) ∧
    (∀ w ph, loopNext s { cfg := cfg, phase := ph } → PalettesAgree s → wordColour cfg.pal w ∈ palColours s.port.pal)

/-- R108, R316, R318: the bus actions the loop issues: CLEAR once, with the background colour in `A4` where there is one; then for each
frame RESAMPLE, the ditherer that is configured, and DRAWIMG; and then the flag is reset and the loop repeats. The steps are the model's (log entry 16). -/
def Obligations.FrameLoopIssuesItsCommands : Prop :=
  ∀ (s : State) (cfg : FrameCfg) (ph : LoopPhase), loopNext s { cfg := cfg, phase := ph } →
    (∀ w, ph = .clear w →
      (s.host.firstDone = true → step s = .next { turnTaken s with
        host := { s.host with loop := some { cfg := cfg, phase := .first w } } }) ∧
      (s.host.firstDone = false → step s = .next { turnTaken s with
        host := { s.host with
          prog := clearWords cfg, hpc := 0
          loop := some { cfg := cfg, phase := .first w } } })) ∧
    (ph = .resample → step s = .next { turnTaken s with
      host := { s.host with
        prog := [.wr 8 cfg.src, .wr 9 cfg.dst, .wr 0 0x41000000], hpc := 0
        loop := some { cfg := cfg, phase := .dither } } }) ∧
    (ph = .dither → step s = .next { turnTaken s with
      host := { s.host with
        prog := ditherWords cfg, hpc := 0
        loop := some { cfg := cfg, phase := .draw } } }) ∧
    (ph = .draw → step s = .next { turnTaken s with
      host := { s.host with
        prog := [.wr 8 cfg.offx, .wr 9 cfg.offy, .wr 10 cfg.dw, .wr 11 cfg.dh, .wr 12 cfg.dst, .wr 0 0x21000000]
        hpc := 0
        loop := some { cfg := cfg, phase := .finish } } }) ∧
    (ph = .finish → step s = .next { turnTaken s with
      host := { s.host with edge := false, loop := some { cfg := cfg, phase := .poll } } })
end

