-- ==== Sys2Proof/Laws/Memory.lean ====
section
/-!
SUPPORT. The laws of MEM: a read after a write, the canonical form under every memory operation, pixels as pairs of bytes, and that
canonical memories with the same bytes are equal data.
-/

namespace Sys2Proof.Machine

/-! ## The canonical form -/

theorem memSortedFrom_cons {lo a : Nat} {v : Byte} {rest : Memory} :
    memSortedFrom lo ((a, v) :: rest) = true ↔
      lo ≤ a ∧ v ≠ memUnlisted ∧ memSortedFrom (a + 1) rest = true := by
  simp [memSortedFrom, and_assoc]

theorem memSortedFrom_mono {lo lo' : Nat} {m : Memory} (h : memSortedFrom lo m = true) (hle : lo' ≤ lo) :
    memSortedFrom lo' m = true := by
  cases m with
  | nil => rfl
  | cons c rest =>
    obtain ⟨a, v⟩ := c
    rw [memSortedFrom_cons] at h ⊢
    exact ⟨by omega, h.2⟩

/-- Below its first address a canonical list reads the unlisted value. -/
theorem memRead_below {lo : Nat} {m : Memory} (h : memSortedFrom lo m = true) {a : Nat} (ha : a < lo) :
    memRead m a = memUnlisted := by
  induction m generalizing lo with
  | nil => rfl
  | cons c rest ih =>
    obtain ⟨b, v⟩ := c
    rw [memSortedFrom_cons] at h
    simp only [memRead]
    rw [if_neg (by omega)]
    exact ih h.2.2 (by omega)

/-- Reading after a write: the byte written, at its address, and the old byte everywhere else (R70). -/
theorem memRead_memWrite_from {lo : Nat} {m : Memory} (h : memSortedFrom lo m = true) (a b : Nat) (v : Byte) :
    memRead (memWrite m a v) b = if b = a then v else memRead m b := by
  induction m generalizing lo with
  | nil =>
    by_cases hv : v = memUnlisted <;> by_cases hb : b = a <;> simp [memWrite, memRead, hv, hb]
    exact fun h => absurd h.symm hb
  | cons c rest ih =>
    obtain ⟨k, x⟩ := c
    rw [memSortedFrom_cons] at h
    obtain ⟨_, hx, hr⟩ := h
    simp only [memWrite]
    by_cases hlt : a < k
    · rw [if_pos hlt]
      by_cases hv : v = memUnlisted
      · rw [if_pos hv]
        by_cases hb : b = a
        · subst hb
          rw [if_pos rfl, hv]
          simp only [memRead]
          rw [if_neg (by omega)]
          exact memRead_below hr (by omega)
        · rw [if_neg hb]
      · rw [if_neg hv]
        by_cases hb : b = a
        · simp [memRead, hb]
        · rw [if_neg hb]
          conv_lhs => rw [memRead]
          rw [if_neg (fun h => hb h.symm)]
    · rw [if_neg hlt]
      by_cases hk : a = k
      · subst hk
        rw [if_pos rfl]
        by_cases hv : v = memUnlisted
        · rw [if_pos hv]
          by_cases hb : b = a
          · subst hb
            rw [if_pos rfl, hv]
            exact memRead_below hr (by omega)
          · simp [memRead, hb, Ne.symm hb]
        · rw [if_neg hv]
          by_cases hb : b = a
          · simp [memRead, hb]
          · simp [memRead, hb, Ne.symm hb]
      · rw [if_neg hk]
        simp only [memRead]
        by_cases hkb : k = b
        · subst hkb
          rw [if_pos rfl, if_neg (fun h => hk h.symm), if_pos rfl]
        · rw [if_neg hkb, if_neg hkb]
          exact ih hr

theorem memWrite_sortedFrom {lo : Nat} {m : Memory} (h : memSortedFrom lo m = true) {a : Nat} (ha : lo ≤ a) (v : Byte) :
    memSortedFrom lo (memWrite m a v) = true := by
  induction m generalizing lo with
  | nil =>
    simp only [memWrite]
    split
    · rfl
    · next hv => exact memSortedFrom_cons.2 ⟨ha, hv, rfl⟩
  | cons c rest ih =>
    obtain ⟨k, x⟩ := c
    have h' := memSortedFrom_cons.1 h
    simp only [memWrite]
    split
    · next hlt =>
      split
      · exact h
      · next hv => exact memSortedFrom_cons.2 ⟨ha, hv, memSortedFrom_cons.2 ⟨by omega, h'.2.1, h'.2.2⟩⟩
    · split
      · next hk =>
        split
        · exact memSortedFrom_mono h'.2.2 (by omega)
        · next hv => subst hk; exact memSortedFrom_cons.2 ⟨h'.1, hv, h'.2.2⟩
      · exact memSortedFrom_cons.2 ⟨h'.1, h'.2.1, ih h'.2.2 (by omega)⟩

/-- A write keeps the canonical form. -/
theorem memWrite_wf {m : Memory} (h : Memory.wf m = true) (a : Nat) (v : Byte) : Memory.wf (memWrite m a v) = true :=
  memWrite_sortedFrom h (Nat.zero_le a) v

theorem memRead_memWrite {m : Memory} (h : Memory.wf m = true) (a b : Nat) (v : Byte) :
    memRead (memWrite m a v) b = if b = a then v else memRead m b :=
  memRead_memWrite_from h a b v

theorem memWrite_inside {n : Nat} {m : Memory} (h : memInside n m = true) {a : Nat} (ha : a < n) (v : Byte) :
    memInside n (memWrite m a v) = true := by
  induction m with
  | nil =>
    simp only [memWrite]
    split <;> simp [memInside, ha]
  | cons c rest ih =>
    obtain ⟨k, x⟩ := c
    have hc : k < n := by simp [memInside] at h; exact h.1
    have hr : memInside n rest = true := by simp [memInside] at h ⊢; exact h.2
    have keep : ∀ t, memInside n t = true → memInside n ((k, x) :: t) = true := by
      intro t ht; simp [memInside] at ht ⊢; exact ⟨hc, ht⟩
    have add : ∀ t, memInside n t = true → memInside n ((a, v) :: t) = true := by
      intro t ht; simp [memInside] at ht ⊢; exact ⟨ha, ht⟩
    simp only [memWrite]
    split
    · split
      · exact keep _ hr
      · exact add _ (keep _ hr)
    · split
      · split
        · exact hr
        · exact add _ hr
      · exact keep _ (ih hr)

/-- Every byte above a canonical list's bound reads the unlisted value (R70: MEM has `MEM_BYTES` bytes). -/
theorem memRead_outside {n : Nat} {m : Memory} (h : memInside n m = true) {a : Nat} (ha : n ≤ a) :
    memRead m a = memUnlisted := by
  induction m with
  | nil => rfl
  | cons c rest ih =>
    obtain ⟨k, x⟩ := c
    simp [memInside] at h
    simp only [memRead]
    rw [if_neg (by omega)]
    exact ih (by simpa [memInside] using h.2)

/-- Canonical memories that read alike are the same list: equal memories are equal data. -/
theorem memory_ext_from {lo : Nat} {m m' : Memory} (h : memSortedFrom lo m = true) (h' : memSortedFrom lo m' = true)
    (e : ∀ a, memRead m a = memRead m' a) : m = m' := by
  induction m generalizing lo m' with
  | nil =>
    cases m' with
    | nil => rfl
    | cons c rest =>
      obtain ⟨k, x⟩ := c
      have := e k
      simp [memRead] at this
      exact absurd this.symm (memSortedFrom_cons.1 h').2.1
  | cons c rest ih =>
    obtain ⟨k, x⟩ := c
    have hc := memSortedFrom_cons.1 h
    cases m' with
    | nil =>
      have := e k
      simp [memRead] at this
      exact absurd this hc.2.1
    | cons c' rest' =>
      obtain ⟨k', x'⟩ := c'
      have hc' := memSortedFrom_cons.1 h'
      have hk : k = k' := by
        rcases Nat.lt_trichotomy k k' with hlt | heq | hgt
        · have := e k
          simp only [memRead, if_true] at this
          rw [if_neg (by omega), memRead_below hc'.2.2 (by omega)] at this
          exact absurd this hc.2.1
        · exact heq
        · have := e k'
          simp only [memRead, if_true] at this
          rw [if_neg (by omega), memRead_below hc.2.2 (by omega)] at this
          exact absurd this.symm hc'.2.1
      subst hk
      have hx : x = x' := by simpa [memRead] using e k
      subst hx
      congr 1
      refine ih hc.2.2 hc'.2.2 fun a => ?_
      by_cases hka : k = a
      · subst hka
        rw [memRead_below hc.2.2 (by omega), memRead_below hc'.2.2 (by omega)]
      · simpa [memRead, hka] using e a

theorem memory_ext {m m' : Memory} (h : Memory.wf m = true) (h' : Memory.wf m' = true)
    (e : ∀ a, memRead m a = memRead m' a) : m = m' :=
  memory_ext_from h h' e

theorem memOfCells_fold (n : Nat) (cells : List Host.Cell) (m : Memory)
    (h : Memory.wf m = true) (hi : memInside n m = true) :
    Memory.wf (cells.foldl (fun m c => if c.1 < n then memWrite m c.1 c.2 else m) m) = true ∧
      memInside n (cells.foldl (fun m c => if c.1 < n then memWrite m c.1 c.2 else m) m) = true := by
  induction cells generalizing m with
  | nil => exact ⟨h, hi⟩
  | cons c rest ih =>
    simp only [List.foldl_cons]
    split
    · next hlt => exact ih _ (memWrite_wf h _ _) (memWrite_inside hi hlt _)
    · exact ih _ h hi

theorem memOfCells_wf (n : Nat) (cells : List Host.Cell) : Memory.wf (memOfCells n cells) = true :=
  (memOfCells_fold n cells [] rfl rfl).1

theorem memOfCells_inside (n : Nat) (cells : List Host.Cell) : memInside n (memOfCells n cells) = true :=
  (memOfCells_fold n cells [] rfl rfl).2

/-! ## Pixels -/

theorem hi8_append_lo8 (v : Pixel) : hi8 v ++ lo8 v = v := by
  apply BitVec.eq_of_getLsbD_eq
  intro i hi
  refine (BitVec.getLsbD_append (x := hi8 v) (y := lo8 v)).trans ?_
  by_cases h : i < 8
  · simp [lo8, h]
  · simp only [hi8, h, BitVec.getLsbD_extractLsb']
    have : i - 8 < 8 := by omega
    simp [this, show 8 + (i - 8) = i by omega]

theorem hi8_append (a b : Byte) : hi8 (a ++ b) = a := by
  apply BitVec.eq_of_getLsbD_eq
  intro i hi
  have e : (a ++ b : BitVec (8 + 8)).getLsbD (8 + i) = a.getLsbD i := by
    rw [BitVec.getLsbD_append]; simp
  simp only [hi8, BitVec.getLsbD_extractLsb', hi, decide_true, Bool.true_and]
  exact e

theorem lo8_append (a b : Byte) : lo8 (a ++ b) = b := by
  apply BitVec.eq_of_getLsbD_eq
  intro i hi
  have e : (a ++ b : BitVec (8 + 8)).getLsbD (0 + i) = b.getLsbD i := by
    rw [BitVec.getLsbD_append]; simp [hi]
  simp only [lo8, BitVec.getLsbD_extractLsb', hi, decide_true, Bool.true_and]
  exact e

theorem memWritePix_wf {m : Memory} (h : Memory.wf m = true) (a : Nat) (v : Pixel) :
    Memory.wf (memWritePix m a v) = true :=
  memWrite_wf (memWrite_wf h _ _) _ _

theorem memWritePix_inside {n : Nat} {m : Memory} (h : memInside n m = true) {a : Nat} (ha : a + 1 < n) (v : Pixel) :
    memInside n (memWritePix m a v) = true :=
  memWrite_inside (memWrite_inside h (by omega) _) ha _

/-- A byte read after a pixel write (R74). -/
theorem memRead_memWritePix {m : Memory} (h : Memory.wf m = true) (a b : Nat) (v : Pixel) :
    memRead (memWritePix m a v) b = if b = a + 1 then hi8 v else if b = a then lo8 v else memRead m b := by
  rw [memWritePix, memRead_memWrite (memWrite_wf h _ _), memRead_memWrite h]

/-- Reading back the pixel just written (R73, R74). -/
theorem memReadPix_memWritePix_same {m : Memory} (h : Memory.wf m = true) (a : Nat) (v : Pixel) :
    memReadPix (memWritePix m a v) a = v := by
  rw [memReadPix, memRead_memWritePix h, memRead_memWritePix h, if_pos rfl, if_neg (by omega), if_pos rfl,
    hi8_append_lo8]

/-- Reading a pixel that shares no byte with the pixel written. -/
theorem memReadPix_memWritePix_apart {m : Memory} (h : Memory.wf m = true) {a b : Nat} (v : Pixel)
    (hab : a + 2 ≤ b ∨ b + 2 ≤ a) : memReadPix (memWritePix m a v) b = memReadPix m b := by
  rw [memReadPix, memRead_memWritePix h, memRead_memWritePix h, if_neg (by omega), if_neg (by omega), if_neg (by omega),
    if_neg (by omega), memReadPix]

/-! ## Checks -/

/-- `CheckBuf` passes exactly when the buffer is aligned and inside MEM (R75). -/
theorem checkBuf_none {p : Params} {a n align : Nat} :
    checkBuf p a n align = none ↔ ¬(align = 2 ∧ a % 2 = 1) ∧ a + n ≤ p.memBytes := by
  unfold checkBuf
  split
  · next h => simp [h]
  · next h =>
    split
    · next h' => simp; omega
    · next h' => simp only [true_iff]; exact ⟨h, by omega⟩

/-- What `CheckBuf` raises is `ALIGN` or `BUFFER` (R75). -/
theorem checkBuf_some {p : Params} {a n align : Nat} {c : FaultCode} (h : checkBuf p a n align = some c) :
    (c = .align ∧ align = 2 ∧ a % 2 = 1) ∨ (c = .buffer ∧ a + n > p.memBytes) := by
  unfold checkBuf at h
  split at h
  · next h' => exact .inl ⟨by simpa using h.symm, h'⟩
  · split at h
    · next h' => exact .inr ⟨by simpa using h.symm, h'⟩
    · simp at h

end Sys2Proof.Machine
end

