-- ==== Sys2Proof/Laws/State.lean ====
section
/-!
SUPPORT. One lemma per component of the state for each update the machine makes, so that no later proof unfolds a record update. The
updates that depend on the state (`raiseFault`, `abortTransfer`, `deliver`, `dmaStep`, `turnTaken`) leave lemmas for the components they
never touch, and an abort and a delivery one that says everything they do.
-/

namespace Sys2Proof.Machine

variable (s : State)

/-! ### complete -/

@[simp] theorem complete_params (r : Bool) : (complete r s).params = s.params := rfl
@[simp] theorem complete_port (r : Bool) : (complete r s).port = { s.port with res := r } := rfl
@[simp] theorem complete_te (r : Bool) : (complete r s).te = s.te := rfl
@[simp] theorem complete_wire (r : Bool) : (complete r s).wire = s.wire := rfl
@[simp] theorem complete_surf (r : Bool) : (complete r s).surf = s.surf := rfl
@[simp] theorem complete_rsm (r : Bool) : (complete r s).rsm = s.rsm := rfl
@[simp] theorem complete_mem (r : Bool) : (complete r s).mem = s.mem := rfl
@[simp] theorem complete_pending (r : Bool) : (complete r s).pending = s.pending := rfl
@[simp] theorem complete_host (r : Bool) : (complete r s).host = s.host := rfl
@[simp] theorem complete_env (r : Bool) : (complete r s).env = s.env := rfl

/-! ### disarm -/

@[simp] theorem disarm_params : (disarm s).params = s.params := rfl
@[simp] theorem disarm_port : (disarm s).port = s.port := rfl
@[simp] theorem disarm_te : (disarm s).te = s.te := rfl
@[simp] theorem disarm_wire : (disarm s).wire = s.wire := rfl
@[simp] theorem disarm_surf : (disarm s).surf = { s.surf with win := { s.surf.win with armed := false } } := rfl
@[simp] theorem disarm_rsm : (disarm s).rsm = s.rsm := rfl
@[simp] theorem disarm_mem : (disarm s).mem = s.mem := rfl
@[simp] theorem disarm_pending : (disarm s).pending = s.pending := rfl
@[simp] theorem disarm_host : (disarm s).host = s.host := rfl
@[simp] theorem disarm_env : (disarm s).env = s.env := rfl

/-! ### syncSend -/

@[simp] theorem syncSend_params (d : Bool) (bytes : List Byte) : (syncSend d bytes s).params = s.params := rfl
@[simp] theorem syncSend_port (d : Bool) (bytes : List Byte) : (syncSend d bytes s).port = s.port := rfl
@[simp] theorem syncSend_te (d : Bool) (bytes : List Byte) : (syncSend d bytes s).te = { s.te with st := .idle, cs := false, dc := d } := rfl
@[simp] theorem syncSend_wire (d : Bool) (bytes : List Byte) : (syncSend d bytes s).wire = s.wire ++ frameEvents d bytes := rfl
@[simp] theorem syncSend_surf (d : Bool) (bytes : List Byte) : (syncSend d bytes s).surf = s.surf := rfl
@[simp] theorem syncSend_rsm (d : Bool) (bytes : List Byte) : (syncSend d bytes s).rsm = s.rsm := rfl
@[simp] theorem syncSend_mem (d : Bool) (bytes : List Byte) : (syncSend d bytes s).mem = s.mem := rfl
@[simp] theorem syncSend_pending (d : Bool) (bytes : List Byte) : (syncSend d bytes s).pending = s.pending := rfl
@[simp] theorem syncSend_host (d : Bool) (bytes : List Byte) : (syncSend d bytes s).host = s.host := rfl
@[simp] theorem syncSend_env (d : Bool) (bytes : List Byte) : (syncSend d bytes s).env = s.env := rfl

/-! ### armTransfer -/

@[simp] theorem armTransfer_params (pix : List Pixel) : (armTransfer pix s).params = s.params := rfl
@[simp] theorem armTransfer_port (pix : List Pixel) : (armTransfer pix s).port = s.port := rfl
@[simp] theorem armTransfer_te (pix : List Pixel) : (armTransfer pix s).te = { s.te with
      scratch := pixRunBytes s.params.pixOrderDma pix ++ s.te.scratch.drop (2 * pix.length)
      xferSeq := s.te.xferSeq + 1
      dma := some { seq := s.te.xferSeq + 1, len := 2 * pix.length, pos := 0 }
      dc := true
      cs := true
      st := .dmaBusy } := rfl
@[simp] theorem armTransfer_wire (pix : List Pixel) : (armTransfer pix s).wire = s.wire ++ [WireEvent.sel] := rfl
@[simp] theorem armTransfer_surf (pix : List Pixel) : (armTransfer pix s).surf = s.surf := rfl
@[simp] theorem armTransfer_rsm (pix : List Pixel) : (armTransfer pix s).rsm = s.rsm := rfl
@[simp] theorem armTransfer_mem (pix : List Pixel) : (armTransfer pix s).mem = s.mem := rfl
@[simp] theorem armTransfer_pending (pix : List Pixel) : (armTransfer pix s).pending = s.pending := rfl
@[simp] theorem armTransfer_host (pix : List Pixel) : (armTransfer pix s).host = s.host := rfl
@[simp] theorem armTransfer_env (pix : List Pixel) : (armTransfer pix s).env = s.env := rfl

/-! ### takePixels -/

@[simp] theorem takePixels_params (n : Nat) : (takePixels n s).params = s.params := rfl
@[simp] theorem takePixels_port (n : Nat) : (takePixels n s).port = s.port := rfl
@[simp] theorem takePixels_te (n : Nat) : (takePixels n s).te = s.te := rfl
@[simp] theorem takePixels_wire (n : Nat) : (takePixels n s).wire = s.wire := rfl
@[simp] theorem takePixels_surf (n : Nat) : (takePixels n s).surf = { s.surf with win := { s.surf.win with remaining := s.surf.win.remaining - BitVec.ofNat 32 n } } := rfl
@[simp] theorem takePixels_rsm (n : Nat) : (takePixels n s).rsm = s.rsm := rfl
@[simp] theorem takePixels_mem (n : Nat) : (takePixels n s).mem = s.mem := rfl
@[simp] theorem takePixels_pending (n : Nat) : (takePixels n s).pending = s.pending := rfl
@[simp] theorem takePixels_host (n : Nat) : (takePixels n s).host = s.host := rfl
@[simp] theorem takePixels_env (n : Nat) : (takePixels n s).env = s.env := rfl

/-! ### drawn -/

@[simp] theorem drawn_params (n : Nat) : (drawn n s).params = s.params := rfl
@[simp] theorem drawn_port (n : Nat) : (drawn n s).port = s.port := rfl
@[simp] theorem drawn_te (n : Nat) : (drawn n s).te = s.te := rfl
@[simp] theorem drawn_wire (n : Nat) : (drawn n s).wire = s.wire := rfl
@[simp] theorem drawn_surf (n : Nat) : (drawn n s).surf = s.surf := rfl
@[simp] theorem drawn_rsm (n : Nat) : (drawn n s).rsm = s.rsm := rfl
@[simp] theorem drawn_mem (n : Nat) : (drawn n s).mem = s.mem := rfl
@[simp] theorem drawn_pending (n : Nat) : (drawn n s).pending = s.pending := rfl
@[simp] theorem drawn_host (n : Nat) : (drawn n s).host = s.host := rfl
@[simp] theorem drawn_env (n : Nat) : (drawn n s).env = { s.env with draws := s.env.draws + n } := rfl

/-! ### nativeGeometry -/

@[simp] theorem nativeGeometry_params : (nativeGeometry s).params = s.params := rfl
@[simp] theorem nativeGeometry_port : (nativeGeometry s).port = s.port := rfl
@[simp] theorem nativeGeometry_te : (nativeGeometry s).te = s.te := rfl
@[simp] theorem nativeGeometry_wire : (nativeGeometry s).wire = s.wire := rfl
@[simp] theorem nativeGeometry_surf : (nativeGeometry s).surf = { s.surf with
      rotation := 0, width := s.params.nativeW, height := s.params.nativeH
      win := { s.surf.win with armed := false } } := rfl
@[simp] theorem nativeGeometry_rsm : (nativeGeometry s).rsm = s.rsm := rfl
@[simp] theorem nativeGeometry_mem : (nativeGeometry s).mem = s.mem := rfl
@[simp] theorem nativeGeometry_pending : (nativeGeometry s).pending = s.pending := rfl
@[simp] theorem nativeGeometry_host : (nativeGeometry s).host = s.host := rfl
@[simp] theorem nativeGeometry_env : (nativeGeometry s).env = s.env := rfl

/-! ### armWindow -/

@[simp] theorem armWindow_params (c : Rect) : (armWindow c s).params = s.params := rfl
@[simp] theorem armWindow_port (c : Rect) : (armWindow c s).port = s.port := rfl
@[simp] theorem armWindow_te (c : Rect) : (armWindow c s).te = { s.te with st := .idle, cs := false, dc := false } := rfl
@[simp] theorem armWindow_surf (c : Rect) : (armWindow c s).surf = { s.surf with win := windowOf c } := rfl
@[simp] theorem armWindow_rsm (c : Rect) : (armWindow c s).rsm = s.rsm := rfl
@[simp] theorem armWindow_mem (c : Rect) : (armWindow c s).mem = s.mem := rfl
@[simp] theorem armWindow_pending (c : Rect) : (armWindow c s).pending = s.pending := rfl
@[simp] theorem armWindow_host (c : Rect) : (armWindow c s).host = s.host := rfl
@[simp] theorem armWindow_env (c : Rect) : (armWindow c s).env = s.env := rfl

/-! ### advance -/

@[simp] theorem advance_params : (advance s).params = s.params := rfl
@[simp] theorem advance_port : (advance s).port = s.port := rfl
@[simp] theorem advance_te : (advance s).te = s.te := rfl
@[simp] theorem advance_wire : (advance s).wire = s.wire := rfl
@[simp] theorem advance_surf : (advance s).surf = s.surf := rfl
@[simp] theorem advance_rsm : (advance s).rsm = s.rsm := rfl
@[simp] theorem advance_mem : (advance s).mem = s.mem := rfl
@[simp] theorem advance_pending : (advance s).pending = s.pending := rfl
@[simp] theorem advance_host : (advance s).host = { s.host with hpc := s.host.hpc + 1 } := rfl
@[simp] theorem advance_env : (advance s).env = s.env := rfl

/-! ### hostReads -/

@[simp] theorem hostReads_params (v : Word) : (hostReads v s).params = s.params := rfl
@[simp] theorem hostReads_port (v : Word) : (hostReads v s).port = s.port := rfl
@[simp] theorem hostReads_te (v : Word) : (hostReads v s).te = s.te := rfl
@[simp] theorem hostReads_wire (v : Word) : (hostReads v s).wire = s.wire := rfl
@[simp] theorem hostReads_surf (v : Word) : (hostReads v s).surf = s.surf := rfl
@[simp] theorem hostReads_rsm (v : Word) : (hostReads v s).rsm = s.rsm := rfl
@[simp] theorem hostReads_mem (v : Word) : (hostReads v s).mem = s.mem := rfl
@[simp] theorem hostReads_pending (v : Word) : (hostReads v s).pending = s.pending := rfl
@[simp] theorem hostReads_host (v : Word) : (hostReads v s).host = { s.host with reads := s.host.reads ++ [v] } := rfl
@[simp] theorem hostReads_env (v : Word) : (hostReads v s).env = s.env := rfl

/-! ### fifoPop -/

@[simp] theorem fifoPop_params (rest : List Word) : (fifoPop rest s).params = s.params := rfl
@[simp] theorem fifoPop_port (rest : List Word) : (fifoPop rest s).port = s.port := rfl
@[simp] theorem fifoPop_te (rest : List Word) : (fifoPop rest s).te = s.te := rfl
@[simp] theorem fifoPop_wire (rest : List Word) : (fifoPop rest s).wire = s.wire := rfl
@[simp] theorem fifoPop_surf (rest : List Word) : (fifoPop rest s).surf = s.surf := rfl
@[simp] theorem fifoPop_rsm (rest : List Word) : (fifoPop rest s).rsm = s.rsm := rfl
@[simp] theorem fifoPop_mem (rest : List Word) : (fifoPop rest s).mem = s.mem := rfl
@[simp] theorem fifoPop_pending (rest : List Word) : (fifoPop rest s).pending = s.pending := rfl
@[simp] theorem fifoPop_host (rest : List Word) : (fifoPop rest s).host = { s.host with fifo := rest } := rfl
@[simp] theorem fifoPop_env (rest : List Word) : (fifoPop rest s).env = s.env := rfl

/-! ### startLoop -/

@[simp] theorem startLoop_params (cfg : FrameCfg) : (startLoop cfg s).params = s.params := rfl
@[simp] theorem startLoop_port (cfg : FrameCfg) : (startLoop cfg s).port = s.port := rfl
@[simp] theorem startLoop_te (cfg : FrameCfg) : (startLoop cfg s).te = s.te := rfl
@[simp] theorem startLoop_wire (cfg : FrameCfg) : (startLoop cfg s).wire = s.wire := rfl
@[simp] theorem startLoop_surf (cfg : FrameCfg) : (startLoop cfg s).surf = s.surf := rfl
@[simp] theorem startLoop_rsm (cfg : FrameCfg) : (startLoop cfg s).rsm = s.rsm := rfl
@[simp] theorem startLoop_mem (cfg : FrameCfg) : (startLoop cfg s).mem = s.mem := rfl
@[simp] theorem startLoop_pending (cfg : FrameCfg) : (startLoop cfg s).pending = s.pending := rfl
@[simp] theorem startLoop_host (cfg : FrameCfg) : (startLoop cfg s).host = { s.host with loop := some { cfg := cfg, phase := .poll } } := rfl
@[simp] theorem startLoop_env (cfg : FrameCfg) : (startLoop cfg s).env = s.env := rfl

/-! ### loopAt -/

@[simp] theorem loopAt_params (ph : LoopPhase) (l : FrameLoop) : (loopAt ph l s).params = s.params := rfl
@[simp] theorem loopAt_port (ph : LoopPhase) (l : FrameLoop) : (loopAt ph l s).port = s.port := rfl
@[simp] theorem loopAt_te (ph : LoopPhase) (l : FrameLoop) : (loopAt ph l s).te = s.te := rfl
@[simp] theorem loopAt_wire (ph : LoopPhase) (l : FrameLoop) : (loopAt ph l s).wire = s.wire := rfl
@[simp] theorem loopAt_surf (ph : LoopPhase) (l : FrameLoop) : (loopAt ph l s).surf = s.surf := rfl
@[simp] theorem loopAt_rsm (ph : LoopPhase) (l : FrameLoop) : (loopAt ph l s).rsm = s.rsm := rfl
@[simp] theorem loopAt_mem (ph : LoopPhase) (l : FrameLoop) : (loopAt ph l s).mem = s.mem := rfl
@[simp] theorem loopAt_pending (ph : LoopPhase) (l : FrameLoop) : (loopAt ph l s).pending = s.pending := rfl
@[simp] theorem loopAt_host (ph : LoopPhase) (l : FrameLoop) : (loopAt ph l s).host = { s.host with loop := some { l with phase := ph } } := rfl
@[simp] theorem loopAt_env (ph : LoopPhase) (l : FrameLoop) : (loopAt ph l s).env = s.env := rfl

/-! ### loopIssue -/

@[simp] theorem loopIssue_params (acts : List HostAction) (ph : LoopPhase) (l : FrameLoop) : (loopIssue acts ph l s).params = s.params := rfl
@[simp] theorem loopIssue_port (acts : List HostAction) (ph : LoopPhase) (l : FrameLoop) : (loopIssue acts ph l s).port = s.port := rfl
@[simp] theorem loopIssue_te (acts : List HostAction) (ph : LoopPhase) (l : FrameLoop) : (loopIssue acts ph l s).te = s.te := rfl
@[simp] theorem loopIssue_wire (acts : List HostAction) (ph : LoopPhase) (l : FrameLoop) : (loopIssue acts ph l s).wire = s.wire := rfl
@[simp] theorem loopIssue_surf (acts : List HostAction) (ph : LoopPhase) (l : FrameLoop) : (loopIssue acts ph l s).surf = s.surf := rfl
@[simp] theorem loopIssue_rsm (acts : List HostAction) (ph : LoopPhase) (l : FrameLoop) : (loopIssue acts ph l s).rsm = s.rsm := rfl
@[simp] theorem loopIssue_mem (acts : List HostAction) (ph : LoopPhase) (l : FrameLoop) : (loopIssue acts ph l s).mem = s.mem := rfl
@[simp] theorem loopIssue_pending (acts : List HostAction) (ph : LoopPhase) (l : FrameLoop) : (loopIssue acts ph l s).pending = s.pending := rfl
@[simp] theorem loopIssue_host (acts : List HostAction) (ph : LoopPhase) (l : FrameLoop) : (loopIssue acts ph l s).host = { s.host with prog := acts, hpc := 0, loop := some { l with phase := ph } } := rfl
@[simp] theorem loopIssue_env (acts : List HostAction) (ph : LoopPhase) (l : FrameLoop) : (loopIssue acts ph l s).env = s.env := rfl

/-! ### clockStep -/

@[simp] theorem clockStep_params : (clockStep s).params = s.params := rfl
@[simp] theorem clockStep_port : (clockStep s).port = s.port := rfl
@[simp] theorem clockStep_te : (clockStep s).te = { s.te with nowMs := s.te.nowMs + 1 } := rfl
@[simp] theorem clockStep_wire : (clockStep s).wire = s.wire := rfl
@[simp] theorem clockStep_surf : (clockStep s).surf = s.surf := rfl
@[simp] theorem clockStep_rsm : (clockStep s).rsm = s.rsm := rfl
@[simp] theorem clockStep_mem : (clockStep s).mem = s.mem := rfl
@[simp] theorem clockStep_pending : (clockStep s).pending = s.pending := rfl
@[simp] theorem clockStep_host : (clockStep s).host = s.host := rfl
@[simp] theorem clockStep_env : (clockStep s).env = s.env := rfl

/-! ### sourceStep -/

@[simp] theorem sourceStep_params (w : Word) : (sourceStep w s).params = s.params := rfl
@[simp] theorem sourceStep_port (w : Word) : (sourceStep w s).port = s.port := rfl
@[simp] theorem sourceStep_te (w : Word) : (sourceStep w s).te = s.te := rfl
@[simp] theorem sourceStep_wire (w : Word) : (sourceStep w s).wire = s.wire := rfl
@[simp] theorem sourceStep_surf (w : Word) : (sourceStep w s).surf = s.surf := rfl
@[simp] theorem sourceStep_rsm (w : Word) : (sourceStep w s).rsm = s.rsm := rfl
@[simp] theorem sourceStep_mem (w : Word) : (sourceStep w s).mem = s.mem := rfl
@[simp] theorem sourceStep_pending (w : Word) : (sourceStep w s).pending = s.pending := rfl
@[simp] theorem sourceStep_host (w : Word) : (sourceStep w s).host = { s.host with fifo := s.host.fifo ++ [w] } := rfl
@[simp] theorem sourceStep_env (w : Word) : (sourceStep w s).env = s.env := rfl

/-! ### platformReset -/

@[simp] theorem platformReset_params : (platformReset s).params = s.params := rfl
@[simp] theorem platformReset_port : (platformReset s).port = Port.atReset := rfl
@[simp] theorem platformReset_te : (platformReset s).te = Engine.atReset s.params (freeUnspec s) := rfl
@[simp] theorem platformReset_wire : (platformReset s).wire = [] := rfl
@[simp] theorem platformReset_surf : (platformReset s).surf = Surface.atReset s.params := rfl
@[simp] theorem platformReset_rsm : (platformReset s).rsm = MapUnit.atReset := rfl
@[simp] theorem platformReset_mem : (platformReset s).mem = (freeUnspec s).mem := rfl
@[simp] theorem platformReset_pending : (platformReset s).pending = none := rfl
@[simp] theorem platformReset_host : (platformReset s).host = s.host := rfl
@[simp] theorem platformReset_env : (platformReset s).env = { s.env with draws := s.env.draws + 1 } := rfl

/-! ### raiseFault -/

@[simp] theorem raiseFault_params (op : Byte) (c : FaultCode) : (raiseFault op c s).params = s.params := by
  unfold raiseFault; split <;> rfl
@[simp] theorem raiseFault_te (op : Byte) (c : FaultCode) : (raiseFault op c s).te = s.te := by
  unfold raiseFault; split <;> rfl
@[simp] theorem raiseFault_wire (op : Byte) (c : FaultCode) : (raiseFault op c s).wire = s.wire := by
  unfold raiseFault; split <;> rfl
@[simp] theorem raiseFault_surf (op : Byte) (c : FaultCode) : (raiseFault op c s).surf = s.surf := by
  unfold raiseFault; split <;> rfl
@[simp] theorem raiseFault_rsm (op : Byte) (c : FaultCode) : (raiseFault op c s).rsm = s.rsm := by
  unfold raiseFault; split <;> rfl
@[simp] theorem raiseFault_mem (op : Byte) (c : FaultCode) : (raiseFault op c s).mem = s.mem := by
  unfold raiseFault; split <;> rfl
@[simp] theorem raiseFault_pending (op : Byte) (c : FaultCode) : (raiseFault op c s).pending = s.pending := by
  unfold raiseFault; split <;> rfl
@[simp] theorem raiseFault_host (op : Byte) (c : FaultCode) : (raiseFault op c s).host = s.host := by
  unfold raiseFault; split <;> rfl
@[simp] theorem raiseFault_env (op : Byte) (c : FaultCode) : (raiseFault op c s).env = s.env := by
  unfold raiseFault; split <;> rfl

/-! ### forgetScratch -/

@[simp] theorem fitScratch_length (n : Nat) (bs : List Byte) : (fitScratch n bs).length = n := by
  simp [fitScratch]

@[simp] theorem forgetScratch_params : (forgetScratch s).params = s.params := rfl
@[simp] theorem forgetScratch_port : (forgetScratch s).port = s.port := rfl
@[simp] theorem forgetScratch_te : (forgetScratch s).te = { s.te with
      scratch := fitScratch s.params.scratchBytes (Config.freeScratch s.env.draws) } := rfl
@[simp] theorem forgetScratch_wire : (forgetScratch s).wire = s.wire := rfl
@[simp] theorem forgetScratch_surf : (forgetScratch s).surf = s.surf := rfl
@[simp] theorem forgetScratch_rsm : (forgetScratch s).rsm = s.rsm := rfl
@[simp] theorem forgetScratch_mem : (forgetScratch s).mem = s.mem := rfl
@[simp] theorem forgetScratch_pending : (forgetScratch s).pending = s.pending := rfl
@[simp] theorem forgetScratch_host : (forgetScratch s).host = s.host := rfl
@[simp] theorem forgetScratch_env : (forgetScratch s).env = { s.env with draws := s.env.draws + 1 } := rfl

/-! ### abortTransfer -/

@[simp] theorem abortTransfer_params : (abortTransfer s).params = s.params := by
  unfold abortTransfer; split <;> rfl
@[simp] theorem abortTransfer_port : (abortTransfer s).port = s.port := by
  unfold abortTransfer; split <;> rfl
@[simp] theorem abortTransfer_rsm : (abortTransfer s).rsm = s.rsm := by
  unfold abortTransfer; split <;> rfl
@[simp] theorem abortTransfer_mem : (abortTransfer s).mem = s.mem := by
  unfold abortTransfer; split <;> rfl
@[simp] theorem abortTransfer_pending : (abortTransfer s).pending = s.pending := by
  unfold abortTransfer; split <;> rfl
@[simp] theorem abortTransfer_host : (abortTransfer s).host = s.host := by
  unfold abortTransfer; split <;> rfl
@[simp] theorem abortTransfer_env : (abortTransfer s).env = { s.env with
      draws := if s.te.st = .dmaBusy then s.env.draws + 1 else s.env.draws } := by
  unfold abortTransfer; split <;> rfl

/-- Everything an abort can do (R210): with a transfer in flight, the record gone, the frame closed, the window disarmed and `scratch`
unknown; else nothing. -/
theorem abortTransfer_cases :
    (s.te.st ≠ .dmaBusy ∧ abortTransfer s = s) ∨
    (s.te.st = .dmaBusy ∧ ∃ junk : List Byte, junk.length = s.params.scratchBytes ∧
      abortTransfer s = { s with
        te := { s.te with dma := none, st := .idle, cs := false, scratch := junk }
        wire := s.wire ++ [.desel]
        surf := { s.surf with win := { s.surf.win with armed := false } }
        env := { s.env with draws := s.env.draws + 1 } }) := by
  by_cases h : s.te.st = .dmaBusy
  · exact .inr ⟨h, _, fitScratch_length _ _, if_pos h⟩
  · exact .inl ⟨h, if_neg h⟩

/-! ### deliver -/

@[simp] theorem deliver_params (q : Nat) : (deliver q s).params = s.params := by
  unfold deliver; dsimp only; split <;> rfl
@[simp] theorem deliver_port (q : Nat) : (deliver q s).port = s.port := by
  unfold deliver; dsimp only; split <;> rfl
@[simp] theorem deliver_surf (q : Nat) : (deliver q s).surf = s.surf := by
  unfold deliver; dsimp only; split <;> rfl
@[simp] theorem deliver_rsm (q : Nat) : (deliver q s).rsm = s.rsm := by
  unfold deliver; dsimp only; split <;> rfl
@[simp] theorem deliver_mem (q : Nat) : (deliver q s).mem = s.mem := by
  unfold deliver; dsimp only; split <;> rfl
@[simp] theorem deliver_pending (q : Nat) : (deliver q s).pending = s.pending := by
  unfold deliver; dsimp only; split <;> rfl
@[simp] theorem deliver_host (q : Nat) : (deliver q s).host = s.host := by
  unfold deliver; dsimp only; split <;> rfl
@[simp] theorem deliver_env (q : Nat) : (deliver q s).env = { s.env with
      draws := if s.te.st = .dmaBusy ∧ s.te.xferSeq = q then s.env.draws + 1 else s.env.draws } := by
  unfold deliver; dsimp only; split <;> rfl

/-- Everything a delivery can do (R232, R234): its number gone, and, when it is that of the transfer in flight, the frame closed, the
engine idle and `scratch` unknown. -/
theorem deliver_cases (q : Nat) :
    (¬(s.te.st = .dmaBusy ∧ s.te.xferSeq = q) ∧
      deliver q s = { s with te := { s.te with notePending := noteRemove q s.te.notePending } }) ∨
    (s.te.st = .dmaBusy ∧ s.te.xferSeq = q ∧ ∃ junk : List Byte, junk.length = s.params.scratchBytes ∧
      deliver q s = { s with
        te := { s.te with
          notePending := noteRemove q s.te.notePending, cs := false, st := .idle, scratch := junk }
        wire := s.wire ++ [.desel]
        env := { s.env with draws := s.env.draws + 1 } }) := by
  by_cases h : s.te.st = .dmaBusy ∧ s.te.xferSeq = q
  · exact .inr ⟨h.1, h.2, _, fitScratch_length _ _, if_pos h⟩
  · exact .inl ⟨h, if_neg h⟩

/-! ### notifyStep -/

@[simp] theorem notifyStep_params (k : Nat) : (notifyStep k s).params = s.params := by
  unfold notifyStep; split <;> simp
@[simp] theorem notifyStep_port (k : Nat) : (notifyStep k s).port = s.port := by
  unfold notifyStep; split <;> simp
@[simp] theorem notifyStep_surf (k : Nat) : (notifyStep k s).surf = s.surf := by
  unfold notifyStep; split <;> simp
@[simp] theorem notifyStep_rsm (k : Nat) : (notifyStep k s).rsm = s.rsm := by
  unfold notifyStep; split <;> simp
@[simp] theorem notifyStep_mem (k : Nat) : (notifyStep k s).mem = s.mem := by
  unfold notifyStep; split <;> simp
@[simp] theorem notifyStep_pending (k : Nat) : (notifyStep k s).pending = s.pending := by
  unfold notifyStep; split <;> simp
@[simp] theorem notifyStep_host (k : Nat) : (notifyStep k s).host = s.host := by
  unfold notifyStep; split <;> simp
@[simp] theorem notifyStep_sched (k : Nat) : (notifyStep k s).env.sched = s.env.sched := by
  unfold notifyStep; split <;> simp
@[simp] theorem notifyStep_turn (k : Nat) : (notifyStep k s).env.turn = s.env.turn := by
  unfold notifyStep; split <;> simp

/-! ### dmaStep -/

@[simp] theorem dmaStep_params : (dmaStep s).params = s.params := by
  unfold dmaStep; split <;> [rfl; (split <;> rfl)]
@[simp] theorem dmaStep_port : (dmaStep s).port = s.port := by
  unfold dmaStep; split <;> [rfl; (split <;> rfl)]
@[simp] theorem dmaStep_surf : (dmaStep s).surf = s.surf := by
  unfold dmaStep; split <;> [rfl; (split <;> rfl)]
@[simp] theorem dmaStep_rsm : (dmaStep s).rsm = s.rsm := by
  unfold dmaStep; split <;> [rfl; (split <;> rfl)]
@[simp] theorem dmaStep_mem : (dmaStep s).mem = s.mem := by
  unfold dmaStep; split <;> [rfl; (split <;> rfl)]
@[simp] theorem dmaStep_pending : (dmaStep s).pending = s.pending := by
  unfold dmaStep; split <;> [rfl; (split <;> rfl)]
@[simp] theorem dmaStep_host : (dmaStep s).host = s.host := by
  unfold dmaStep; split <;> [rfl; (split <;> rfl)]
@[simp] theorem dmaStep_env : (dmaStep s).env = s.env := by
  unfold dmaStep; split <;> [rfl; (split <;> rfl)]

/-! ### turnTaken -/

@[simp] theorem turnTaken_params : (turnTaken s).params = s.params := by
  unfold turnTaken; split <;> rfl
@[simp] theorem turnTaken_port : (turnTaken s).port = s.port := by
  unfold turnTaken; split <;> rfl
@[simp] theorem turnTaken_te : (turnTaken s).te = s.te := by
  unfold turnTaken; split <;> rfl
@[simp] theorem turnTaken_wire : (turnTaken s).wire = s.wire := by
  unfold turnTaken; split <;> rfl
@[simp] theorem turnTaken_surf : (turnTaken s).surf = s.surf := by
  unfold turnTaken; split <;> rfl
@[simp] theorem turnTaken_rsm : (turnTaken s).rsm = s.rsm := by
  unfold turnTaken; split <;> rfl
@[simp] theorem turnTaken_mem : (turnTaken s).mem = s.mem := by
  unfold turnTaken; split <;> rfl
@[simp] theorem turnTaken_pending : (turnTaken s).pending = s.pending := by
  unfold turnTaken; split <;> rfl
@[simp] theorem turnTaken_host : (turnTaken s).host = s.host := by
  unfold turnTaken; split <;> rfl

end Sys2Proof.Machine
end

