-- ==== Sys2Proof/Laws/Ops.lean ====
section
/-!
SUPPORT. One lemma for each shared operation that says once what it can do, so that a proof cites it instead of unfolding the operation:
the order of the fault tests, what a frame leaves on the logical stream and on the bus, what handing over a chunk does, what a burst does
from any pixel on, what a step of a wait gives.
-/

namespace Sys2Proof.Machine

/-! ## Faults -/

@[simp] theorem firstFault_nil : firstFault [] = none := rfl
@[simp] theorem firstFault_none (l : List (Option FaultCode)) : firstFault (none :: l) = firstFault l := rfl
@[simp] theorem firstFault_some (c : FaultCode) (l : List (Option FaultCode)) : firstFault (some c :: l) = some c := rfl

/-- No test finds a cause exactly when every test passes. -/
theorem firstFault_eq_none {l : List (Option FaultCode)} : firstFault l = none ↔ ∀ t ∈ l, t = none := by
  induction l with
  | nil => simp
  | cons t l ih => cases t <;> simp [ih]

@[simp] theorem faultIf_true (c : FaultCode) : faultIf true c = some c := rfl
@[simp] theorem faultIf_false (c : FaultCode) : faultIf false c = none := rfl

theorem faultIf_eq_none {b : Bool} {c : FaultCode} : faultIf b c = none ↔ b = false := by
  cases b <;> simp

/-- The first fault latches (R340). -/
theorem raiseFault_fresh {s : State} (h : s.port.faulted = false) (op : Byte) (c : FaultCode) :
    raiseFault op c s = latched op c s := by
  simp [raiseFault, h, latched]

/-- A later fault changes nothing (R340). -/
theorem raiseFault_stuck {s : State} (h : s.port.faulted = true) (op : Byte) (c : FaultCode) :
    raiseFault op c s = s := by
  simp [raiseFault, h]

theorem guarded_pass {tests : List (Option FaultCode)} (h : firstFault tests = none) (op : Byte) (f : State → State)
    (s : State) : guarded op tests f s = f s := by
  simp [guarded, h]

theorem guarded_fault {tests : List (Option FaultCode)} {c : FaultCode} (h : firstFault tests = some c) (op : Byte)
    (f : State → State) (s : State) : guarded op tests f s = raiseFault op c s := by
  simp [guarded, h]

/-- A guarded operation performs its effect, all tests passed, or takes the fault of the first that fails (R343). -/
theorem guarded_cases (op : Byte) (tests : List (Option FaultCode)) (f : State → State) (s : State) :
    (firstFault tests = none ∧ guarded op tests f s = f s) ∨
      ∃ c, firstFault tests = some c ∧ guarded op tests f s = raiseFault op c s := by
  cases h : firstFault tests with
  | none => exact .inl ⟨rfl, guarded_pass h op f s⟩
  | some c => exact .inr ⟨c, rfl, guarded_fault h op f s⟩

/-- What both outcomes of a guarded operation have, the operation has. -/
theorem guarded_has {P : State → Prop} {op : Byte} {tests : List (Option FaultCode)} {f : State → State} {s : State}
    (hf : firstFault tests = none → P (f s)) (hr : ∀ c, P (raiseFault op c s)) : P (guarded op tests f s) := by
  rcases guarded_cases op tests f s with ⟨h, e⟩ | ⟨c, _, e⟩
  · rw [e]; exact hf h
  · rw [e]; exact hr c

theorem busTest_pass {s : State} : busTest s = none ↔ s.te.st = .idle := by
  unfold busTest faultIf
  split <;> simp_all

theorem busTest_fault {s : State} (h : s.te.st ≠ .idle) : busTest s = some .busConflict := by
  unfold busTest faultIf
  rw [if_pos (by simpa using h)]

theorem underrunTest_pass {s : State} : underrunTest s = none ↔ winPartly s.surf.win = false := by
  simp [underrunTest, faultIf_eq_none]

theorem underrunTest_fault {s : State} (h : winPartly s.surf.win = true) : underrunTest s = some .winUnderrun := by
  simp [underrunTest, h]

theorem dimTest_pass {w h : Nat} : dimTest w h = none ↔ w ≤ 65535 ∧ h ≤ 65535 := by
  unfold dimTest faultIf maxDim
  split <;> (simp_all; try omega)

theorem dimTest_fault {w h : Nat} (e : 65535 < w ∨ 65535 < h) : dimTest w h = some .param := by
  unfold dimTest faultIf maxDim
  rw [if_pos (by simpa using e)]

theorem checkBuf_align {p : Params} {a n : Nat} (h : a % 2 = 1) : checkBuf p a n 2 = some .align := by
  simp [checkBuf, h]

theorem checkBuf_buffer {p : Params} {a n align : Nat} (h : ¬(align = 2 ∧ a % 2 = 1)) (h' : p.memBytes < a + n) :
    checkBuf p a n align = some .buffer := by
  simp only [checkBuf, if_neg h]
  rw [if_pos (by omega)]

theorem checkBuf_pass {p : Params} {a n : Nat} (h : a % 2 = 0) (h' : a + n ≤ p.memBytes) : checkBuf p a n 2 = none :=
  checkBuf_none.2 ⟨by omega, h'⟩

/-! ## The logical stream (R81) -/

theorem logical_append (u v : List WireEvent) : logical (u ++ v) = logical u ++ logical v := by
  induction u with
  | nil => rfl
  | cons e u ih => cases e <;> simp [logical, ih]

theorem logical_bytes (d : Bool) (bs : List Byte) : logical (bs.map (.byte d)) = bs.map fun b => (d, b) := by
  induction bs with
  | nil => rfl
  | cons b bs ih => simp [logical, ih]

/-- A frame adds its bytes and nothing else to the logical stream. -/
@[simp] theorem logical_frameEvents (d : Bool) (bs : List Byte) :
    logical (frameEvents d bs) = bs.map fun b => (d, b) := by
  simp [frameEvents, logical, logical_append, logical_bytes]

theorem dataStream_append (u v : List Pixel) : dataStream (u ++ v) = dataStream u ++ dataStream v := by
  simp [dataStream]

/-- The bytes of a run in the synchronous order, as a data stream (R77). -/
theorem pixRunBytes_hiFirst (pix : List Pixel) :
    (pixRunBytes .hiFirst pix).map (fun b => (true, b)) = dataStream pix := by
  simp [pixRunBytes, dataStream, List.map_flatMap, pixBytes]

theorem pixRunBytes_length (o : PixOrder) (pix : List Pixel) : (pixRunBytes o pix).length = 2 * pix.length := by
  induction pix with
  | nil => rfl
  | cons p pix ih =>
    have e : pixRunBytes o (p :: pix) = pixBytes o p ++ pixRunBytes o pix := rfl
    have l : (pixBytes o p).length = 2 := by cases o <;> rfl
    rw [e, List.length_append, ih, l, List.length_cons]; omega

theorem pixRunBytes_append (o : PixOrder) (u v : List Pixel) : pixRunBytes o (u ++ v) = pixRunBytes o u ++ pixRunBytes o v := by
  simp [pixRunBytes]

/-! ## Bus discipline (R242) -/

theorem busScan_append (b : BusFrame) (u v : List WireEvent) :
    busScan b (u ++ v) = (busScan b u).bind fun b' => busScan b' v := by
  induction u generalizing b with
  | nil => simp [busScan]
  | cons e u ih =>
    simp only [List.cons_append, busScan]
    cases busNext b e with
    | none => rfl
    | some b' => exact ih b'

theorem busScan_data (bs : List Byte) : busScan .data (bs.map (.byte true)) = some .data := by
  induction bs with
  | nil => rfl
  | cons b bs ih => simpa [busScan, busNext] using ih

/-- A frame of data, of any length, opens and closes. -/
theorem busScan_frame_data (bs : List Byte) : busScan .closed (frameEvents true bs) = some .closed := by
  cases bs with
  | nil => rfl
  | cons b bs =>
    have := busScan_data bs
    simp [frameEvents, busScan, busNext, busScan_append, this]

/-- A frame of one command byte opens and closes. -/
theorem busScan_frame_command (b : Byte) : busScan .closed (frameEvents false [b]) = some .closed := rfl

/-! ## Handing over a chunk (R206) -/

/-- `BulkAsync` on a channel that is not busy: nothing to send, sent synchronously, or armed. -/
theorem bulkSend_cases (pix : List Pixel) (busy : Bool) (s : State) :
    (pix = [] ∧ bulkSend pix busy s = (s, false)) ∨
    (pix ≠ [] ∧ (s.te.dmaOk = false ∨ busy = true) ∧
      bulkSend pix busy s = (syncSend true (pixRunBytes .hiFirst pix) s, false)) ∨
    (pix ≠ [] ∧ s.te.dmaOk = true ∧ busy = false ∧ bulkSend pix busy s = (armTransfer pix s, true)) := by
  cases pix with
  | nil => exact .inl ⟨rfl, rfl⟩
  | cons p pix =>
    cases h : s.te.dmaOk <;> cases busy <;> simp [bulkSend, h]

/-! ## Bursts (R262) -/

/-- The pixels of a chunk, and of two chunks in a row. -/
@[simp] theorem pixChunk_length (m : Memory) (src : PixSrc) (i n : Nat) : (pixChunk m src i n).length = n := by
  simp [pixChunk]

theorem pixChunk_append (m : Memory) (src : PixSrc) (i j k : Nat) :
    pixChunk m src i (j + k) = pixChunk m src i j ++ pixChunk m src (i + j) k := by
  simp [pixChunk, List.range_add, Function.comp_def, Nat.add_assoc]

/-- The induction of `StreamBurst`: a property `P i s` of the pixel reached and the state, kept by a chunk that goes synchronously, leads
to `Q` where a chunk is armed, and to `Q` at the end, where all pixels have been handed over if a chunk has any. -/
theorem burstFrom_induction {p : Params} {src : PixSrc} {total : Nat} {P : Nat → State → Prop} {Q : State → Prop}
    (params : ∀ i s, P i s → s.params = p)
    (sync : ∀ i s, P i s → i < total →
      ∀ r, r = bulkSend (pixChunk s.mem src i (min p.chunkPix (total - i))) false s → r.2 = false →
        P (i + min p.chunkPix (total - i)) (takePixels (min p.chunkPix (total - i)) r.1))
    (arm : ∀ i s, P i s → i < total →
      ∀ r, r = bulkSend (pixChunk s.mem src i (min p.chunkPix (total - i))) false s → r.2 = true →
        Q { takePixels (min p.chunkPix (total - i)) r.1 with
          pending := some (.burst src total i (min p.chunkPix (total - i)) .start) })
    (done : ∀ i s, P i s → (1 ≤ p.chunkPix → total ≤ i) → Q (burstDone s)) :
    ∀ fuel i s, total - i ≤ fuel → P i s → Q (burstFrom fuel src total i s) := by
  intro fuel
  induction fuel with
  | zero =>
    intro i s hf hP
    exact done i s hP fun _ => by omega
  | succ fuel ih =>
    intro i s hf hP
    have hp := params i s hP
    simp only [burstFrom]
    split
    · next hi =>
      rw [hp]
      split
      · next hr => exact arm i s hP hi _ rfl hr
      · next hr =>
        have hP' := sync i s hP hi _ rfl (by simpa using hr)
        by_cases hc : 1 ≤ p.chunkPix
        · exact ih _ _ (by omega) hP'
        · refine (?_ : ∀ fuel i s, P i s → Q (burstFrom fuel src total i s)) fuel _ _ hP'
          intro fuel
          induction fuel with
          | zero => intro i s h; exact done i s h fun h' => absurd h' hc
          | succ fuel ih2 =>
            intro i s h
            have hp := params i s h
            simp only [burstFrom]
            split
            · next hi =>
              rw [hp]
              split
              · next hr => exact arm i s h hi _ rfl hr
              · next hr => exact ih2 _ _ (sync i s h hi _ rfl (by simpa using hr))
            · exact done i s h fun h' => absurd h' hc
    · exact done i s hP fun _ => by omega

/-- What `t` keeps of `s` when only the engine, the wire, the counts of the window, `RES` and the operation in progress may differ. -/
structure SameButBurst (s t : State) : Prop where
  params : t.params = s.params
  port : t.port = { s.port with res := t.port.res }
  surf : t.surf = { s.surf with win := { s.surf.win with armed := t.surf.win.armed, remaining := t.surf.win.remaining } }
  rsm : t.rsm = s.rsm
  mem : t.mem = s.mem
  host : t.host = s.host
  env : t.env = s.env

theorem SameButBurst.refl (s : State) : SameButBurst s s := ⟨rfl, rfl, rfl, rfl, rfl, rfl, rfl⟩

theorem SameButBurst.trans {s t u : State} (h : SameButBurst s t) (h' : SameButBurst t u) : SameButBurst s u := by
  obtain ⟨a, b, c, d, e, f, g⟩ := h
  obtain ⟨a', b', c', d', e', f', g'⟩ := h'
  refine ⟨a'.trans a, ?_, ?_, d'.trans d, e'.trans e, f'.trans f, g'.trans g⟩
  · rw [b', b]
  · rw [c', c]

theorem bulkSend_frame (pix : List Pixel) (busy : Bool) (s : State) : SameButBurst s (bulkSend pix busy s).1 := by
  rcases bulkSend_cases pix busy s with ⟨_, e⟩ | ⟨_, _, e⟩ | ⟨_, _, _, e⟩ <;> rw [e] <;> exact ⟨rfl, rfl, rfl, rfl, rfl, rfl, rfl⟩

/-- A burst touches the engine, the wire, the counts of the window, `RES` and the operation in progress, and nothing else. -/
theorem burstFrom_frame (src : PixSrc) (total fuel i : Nat) (s : State) (hf : total - i ≤ fuel) :
    SameButBurst s (burstFrom fuel src total i s) := by
  refine burstFrom_induction (P := fun _ t => SameButBurst s t) (p := s.params) (fun _ _ h => h.params) ?_ ?_ ?_ fuel i s hf
    (SameButBurst.refl s)
  · intro i t h _ r hr _
    subst hr
    exact (h.trans (bulkSend_frame _ _ _)).trans ⟨rfl, rfl, rfl, rfl, rfl, rfl, rfl⟩
  · intro i t h _ r hr _
    subst hr
    exact (h.trans (bulkSend_frame _ _ _)).trans ⟨rfl, rfl, rfl, rfl, rfl, rfl, rfl⟩
  · intro i t h _
    refine h.trans ?_
    unfold burstDone
    split <;> exact ⟨rfl, rfl, rfl, rfl, rfl, rfl, rfl⟩

theorem streamBurst_frame (src : PixSrc) (total : Nat) (s : State) : SameButBurst s (streamBurst src total s) :=
  burstFrom_frame src total total 0 s (by omega)

/-- Page rows touch the engine and the wire and nothing else. -/
theorem sendPages_frame (page0 n cx0 : Nat) (row : Nat → List Byte) (s : State) :
    sendPages page0 n cx0 row s =
      { s with te := (sendPages page0 n cx0 row s).te, wire := (sendPages page0 n cx0 row s).wire } := by
  unfold sendPages
  refine List.foldlRecOn (motive := fun t : State => t = { s with te := t.te, wire := t.wire }) _ _ rfl fun t h x _ => ?_
  simp only [sendPageRow, syncSend] at h ⊢
  rw [h]

/-- The initialization table touches the engine and the wire and nothing else. -/
theorem sendInit_frame (items : List InitItem) (s : State) :
    items.foldl sendInitItem s =
      { s with te := (items.foldl sendInitItem s).te, wire := (items.foldl sendInitItem s).wire } := by
  refine List.foldlRecOn (motive := fun t : State => t = { s with te := t.te, wire := t.wire }) _ _ rfl fun t h x _ => ?_
  unfold sendInitItem syncSend
  split
  · rw [h]
  · split
    · exact h
    · rw [h]

/-! ## Waiting (R208) -/

/-- What a step of a wait gives: it has seen the engine free, or it has run its abort, or it goes on, with the start time kept. -/
theorem waitStep_cases (ms : Nat) (ph : WaitPhase) (s : State) :
    (ph ≠ .abort ∧ s.te.st ≠ .dmaBusy ∧ waitStep ms ph s = (.done, s)) ∨
    (ph = .abort ∧ waitStep ms ph s = (.timedOut, abortTransfer s)) ∨
    (ph ≠ .abort ∧ s.te.st = .dmaBusy ∧ ∃ ph', waitStep ms ph s = (.again ph', s)) := by
  cases ph with
  | abort => exact .inr (.inl ⟨rfl, rfl⟩)
  | start =>
    by_cases h : s.te.st = .dmaBusy
    · refine .inr (.inr ⟨by simp, h, ?_⟩)
      simp only [waitStep, waitPass, h, ne_eq, not_true, if_false]
      split <;> exact ⟨_, rfl⟩
    · exact .inl ⟨by simp, h, by simp [waitStep, waitPass, h]⟩
  | poll t0 =>
    by_cases h : s.te.st = .dmaBusy
    · refine .inr (.inr ⟨by simp, h, ?_⟩)
      simp only [waitStep, waitPass, h, ne_eq, not_true, if_false]
      split <;> exact ⟨_, rfl⟩
    · exact .inl ⟨by simp, h, by simp [waitStep, waitPass, h]⟩

/-! ## Loops over pixels -/

/-- An invariant of a loop over the pixels of a buffer. -/
theorem forPixels_keeps {P : Memory → Prop} {w h : Nat} {f : Memory → Nat → Nat → Memory}
    (hf : ∀ m x y, x < w → y < h → P m → P (f m x y)) {m : Memory} (hm : P m) : P (forPixels w h f m) := by
  unfold forPixels
  refine List.foldlRecOn (motive := fun m => P m) _ _ hm fun m hm y hy => ?_
  refine List.foldlRecOn (motive := fun m => P m) _ _ hm fun m hm x hx => ?_
  exact hf m x y (List.mem_range.1 hx) (List.mem_range.1 hy) hm

/-- Pixels at different places of a buffer share no byte (R11). -/
theorem pixAddr_apart {base w x y x' y' : Nat} (hx : x < w) (hx' : x' < w) (h : x ≠ x' ∨ y ≠ y') :
    pixAddr base w x y + 2 ≤ pixAddr base w x' y' ∨ pixAddr base w x' y' + 2 ≤ pixAddr base w x y := by
  unfold pixAddr
  rcases Nat.lt_trichotomy y y' with hy | hy | hy
  · have : (y + 1) * w ≤ y' * w := Nat.mul_le_mul_right _ hy
    rw [Nat.add_mul] at this
    omega
  · subst hy
    have : x ≠ x' := by simpa using h
    omega
  · have : (y' + 1) * w ≤ y * w := Nat.mul_le_mul_right _ hy
    rw [Nat.add_mul] at this
    omega

/-- A pixel of a `w` × `h` buffer lies inside it (R75). -/
theorem pixAddr_inside {base w h x y : Nat} (hx : x < w) (hy : y < h) :
    base ≤ pixAddr base w x y ∧ pixAddr base w x y + 1 < base + 2 * w * h := by
  unfold pixAddr
  have : (y + 1) * w ≤ h * w := Nat.mul_le_mul_right _ hy
  rw [Nat.add_mul, Nat.mul_comm h w] at this
  have e : 2 * w * h = 2 * (w * h) := Nat.mul_assoc ..
  omega

end Sys2Proof.Machine
end

