-- ==== Sys2Proof/Laws/Step.lean ====
section
/-!
SUPPORT. Whose step it is: one lemma for each kind of step, with what the choice of the next agent costs, so that no proof unfolds
`step`, `hostStep` or `turnTaken`; and the words of the commands.
-/

namespace Sys2Proof.Machine

/-! ## The choice of the next agent -/

/-- Using the choice changes only the record of choices. -/
theorem turnTaken_eq (s : State) :
    turnTaken s = { s with env := { s.env with
      sched := s.env.sched.tail
      turn := if s.env.sched.isEmpty then s.env.turn + 1 else s.env.turn } } := by
  unfold turnTaken
  split <;> rename_i h <;> simp [h]

theorem turnTaken_draws (s : State) : (turnTaken s).env.draws = s.env.draws := by rw [turnTaken_eq]

/-! ## Steps by agent -/

theorem step_of_event {s : State} {e : Event} (h : nextEvent s = e) : step s = eventStep e (turnTaken s) := by
  rw [step, h]

theorem step_host {s : State} (h : nextEvent s = .host) : step s = hostStep (turnTaken s) := step_of_event h

/-- The host's step when it performs its next bus action. -/
theorem step_action {s : State} {act : HostAction} (h : hostNext s act) : step s = hostAction act (turnTaken s) := by
  rw [step_host h.1, hostStep]
  simp [h.2.1, h.2.2]

/-- The host's step when it goes on with its frame loop. -/
theorem step_frameLoop {s : State} {l : FrameLoop} (h : loopNext s l) : step s = loopStep l (turnTaken s) := by
  rw [step_host h.1, hostStep]
  simp [h.2.1, h.2.2.1, h.2.2.2]

/-- The host's step when an operation is in progress. -/
theorem step_pending {s : State} {op : PendingOp} (h : nextEvent s = .host) (hp : s.pending = some op) :
    step s = .next (resumeOp op { turnTaken s with pending := none }) := by
  rw [step_host h, hostStep]
  simp [hp]

/-! ## Issuing a command -/

theorem issue_faulted {w : Word} {s : State} (h : s.port.faulted = true) : issue w s = .next s := by
  simp [issue, h]

theorem issue_command {w : Word} {i : Instr} {s : State} (hf : s.port.faulted = false) (h : decode w = .command i) :
    issue w s = exec i s := by
  simp [issue, hf, h]

theorem issue_illegal {w : Word} {why : Illegal} {s : State} (hf : s.port.faulted = false) (h : decode w = .illegal why) :
    issue w s = .next (latched (opField w) .illegalCmd s) := by
  simp [issue, hf, h, raiseFault_fresh hf]

/-- Issuing a word ignores it, latches `ILLEGAL_CMD`, or runs the operation it encodes. -/
theorem issue_cases (w : Word) (s : State) :
    (s.port.faulted = true ∧ issue w s = .next s) ∨
    (s.port.faulted = false ∧ issue w s = .next (latched (opField w) .illegalCmd s)) ∨
    (s.port.faulted = false ∧ ∃ i, decode w = .command i ∧ issue w s = exec i s) := by
  cases hf : s.port.faulted with
  | true => exact .inl ⟨rfl, issue_faulted hf⟩
  | false =>
    cases h : decode w with
    | command i => exact .inr (.inr ⟨rfl, i, rfl, issue_command hf h⟩)
    | illegal why => exact .inr (.inl ⟨rfl, issue_illegal hf h⟩)

/-! ## The fields of a word -/

theorem opField_append (op : Byte) (imm : BitVec 24) : opField (op ++ imm) = op := by
  apply BitVec.eq_of_getLsbD_eq
  intro i hi
  have e : (op ++ imm : BitVec (8 + 24)).getLsbD (24 + i) = op.getLsbD i := by
    rw [BitVec.getLsbD_append]; simp
  simp only [opField, BitVec.getLsbD_extractLsb', hi, decide_true, Bool.true_and]
  exact e

theorem immField_append (op : Byte) (imm : BitVec 24) : immField (op ++ imm) = imm := by
  apply BitVec.eq_of_getLsbD_eq
  intro i hi
  have e : (op ++ imm : BitVec (8 + 24)).getLsbD (0 + i) = imm.getLsbD i := by
    rw [BitVec.getLsbD_append]; simp [hi]
  simp only [immField, BitVec.getLsbD_extractLsb', hi, decide_true, Bool.true_and]
  exact e

/-- A word is its two fields. -/
theorem fields_append (w : Word) : (opField w ++ immField w : Word) = w := by
  apply BitVec.eq_of_getLsbD_eq
  intro i hi
  refine (BitVec.getLsbD_append (x := w.extractLsb' 24 8) (y := w.extractLsb' 0 24)).trans ?_
  by_cases h : i < 24
  · simp [h]
  · have : i - 24 < 8 := by omega
    simp [h, this, show 24 + (i - 24) = i by omega]

theorem opField_toNat (w : Word) : (opField w).toNat = wordOp w := by
  simp [opField, wordOp, BitVec.extractLsb'_toNat, Nat.shiftRight_eq_div_pow]
  omega

theorem immField_toNat (w : Word) : (immField w).toNat = wordImm w := by
  simp [immField, wordImm, BitVec.extractLsb'_toNat]

theorem opField_encode (i : Instr) : opField (encode i) = i.opcode := opField_append _ _

theorem immField_encode (i : Instr) : immField (encode i) = i.imm := immField_append _ _

end Sys2Proof.Machine
end

