-- ==== Sys2Proof/Laws/Engine.lean ====
section
/-!
SUPPORT. What any step can do to the engine and the wire, said once: a property closed under the few updates that touch them is kept by
every command, by every operation in progress, and by every step. The invariants of the engine, the bus and the trace are instances.
-/

namespace Sys2Proof.Machine

/-! ## Closure under the updates -/

/-- A property that the updates of everything but the engine and the wire keep. -/
structure DataClosed (P : State → Prop) : Prop where
  port : ∀ s q, P s → P { s with port := q }
  surf : ∀ s u, P s → P { s with surf := u }
  rsm : ∀ s u, P s → P { s with rsm := u }
  mem : ∀ s m, P s → P { s with mem := m }
  pending : ∀ s o, P s → P { s with pending := o }
  host : ∀ s u, P s → P { s with host := u }
  env : ∀ s e, P s → P { s with env := e }

/-- A property `P` of the states inside an operation, kept by sending, and a property `Q` of the state it ends in, which `P` gives and to
which arming a transfer, an abort, a claim and a release lead; each with what is known where it is made. `P` knows that a chunk fits the
scratch buffer. -/
structure EngineClosed (P Q : State → Prop) : Prop where
  inside : DataClosed P
  ends : DataClosed Q
  weaken : ∀ s, P s → Q s
  chunk : ∀ s, P s → 2 * s.params.chunkPix ≤ s.params.scratchBytes
  send : ∀ s d bytes, P s → s.te.st ≠ .dmaBusy → (d = false → ∃ b, bytes = [b]) → P (syncSend d bytes s)
  arm : ∀ s pix, P s → s.te.st ≠ .dmaBusy → s.te.dmaOk = true → pix ≠ [] → 2 * pix.length ≤ s.params.scratchBytes →
    Q (armTransfer pix s)
  abort : ∀ s, P s → Q (abortTransfer s)
  claim : ∀ s ok, P s → (ok = true → s.params.dmaPresent = true) → s.te.inited = false →
    Q { s with te := { s.te with dmaOk := ok, inited := true } }
  free : ∀ s junk, Q s → s.te.st ≠ .dmaBusy → (junk = s.te.scratch ∨ junk.length = s.params.scratchBytes) →
    Q { s with te := { s.te with dmaOk := false, inited := false, scratch := junk } }

variable {P Q : State → Prop}

theorem DataClosed.complete (h : DataClosed P) {s : State} (r : Bool) (hp : P s) : P (Machine.complete r s) := h.port _ _ hp

theorem DataClosed.disarm (h : DataClosed P) {s : State} (hp : P s) : P (Machine.disarm s) := h.surf _ _ hp

theorem DataClosed.raiseFault (h : DataClosed P) {s : State} (op : Byte) (c : FaultCode) (hp : P s) :
    P (Machine.raiseFault op c s) := by
  unfold Machine.raiseFault
  split
  · exact hp
  · exact h.port _ _ hp

theorem DataClosed.guarded (h : DataClosed P) {op : Byte} {tests : List (Option FaultCode)} {f : State → State}
    {s : State} (hs : P s) (hf : firstFault tests = none → P (f s)) : P (Machine.guarded op tests f s) :=
  guarded_has hf fun c => h.raiseFault op c hs

/-- A property of one engine and one trace alone is kept by every other update. -/
theorem dataClosed_of_engine {R : Params → Engine → List WireEvent → Prop} :
    DataClosed fun s => R s.params s.te s.wire where
  port _ _ h := h
  surf _ _ h := h
  rsm _ _ h := h
  mem _ _ h := h
  pending _ _ h := h
  host _ _ h := h
  env _ _ h := h

/-! ## Inside an operation -/

/-- `P` together with what the sending operations rely on: no transfer in flight, and the parameters of the start. -/
def FreeAnd (p : Params) (P : State → Prop) (s : State) : Prop := P s ∧ s.te.st ≠ .dmaBusy ∧ s.params = p

theorem EngineClosed.syncSend (h : EngineClosed P Q) {p : Params} {s : State} {d : Bool} {bytes : List Byte}
    (hs : FreeAnd p P s) (hb : d = false → ∃ b, bytes = [b]) : FreeAnd p P (Machine.syncSend d bytes s) :=
  ⟨h.send s d bytes hs.1 hs.2.1 hb, by simp, hs.2.2⟩

theorem EngineClosed.armWindow (h : EngineClosed P Q) {p : Params} {s : State} (c : Rect) (hs : FreeAnd p P s) :
    FreeAnd p P (Machine.armWindow c s) := by
  have h1 := h.syncSend (d := false) (bytes := [s.params.opCaset]) hs fun _ => ⟨_, rfl⟩
  have h2 := h.syncSend (d := true) (bytes := rangeBytes (BitVec.ofNat 16 c.x0) (BitVec.ofNat 16 c.x1)) h1 (by simp)
  have h3 := h.syncSend (d := false) (bytes := [s.params.opRaset]) h2 fun _ => ⟨_, rfl⟩
  have h4 := h.syncSend (d := true) (bytes := rangeBytes (BitVec.ofNat 16 c.y0) (BitVec.ofNat 16 c.y1)) h3 (by simp)
  have h5 := h.syncSend (d := false) (bytes := [s.params.opRamwr]) h4 fun _ => ⟨_, rfl⟩
  exact ⟨h.inside.surf _ _ h5.1, h5.2.1, h5.2.2⟩

theorem EngineClosed.sendPageRow (h : EngineClosed P Q) {p : Params} {s : State} (page cx0 : Nat) (bytes : List Byte)
    (hs : FreeAnd p P s) : FreeAnd p P (Machine.sendPageRow page cx0 bytes s) :=
  h.syncSend (h.syncSend (h.syncSend (h.syncSend hs fun _ => ⟨_, rfl⟩) fun _ => ⟨_, rfl⟩) fun _ => ⟨_, rfl⟩) (by simp)

theorem EngineClosed.sendPages (h : EngineClosed P Q) {p : Params} {s : State} (page0 n cx0 : Nat) (row : Nat → List Byte)
    (hs : FreeAnd p P s) : FreeAnd p P (Machine.sendPages page0 n cx0 row s) :=
  List.foldlRecOn (motive := FreeAnd p P) _ _ hs fun _ ht _ _ => h.sendPageRow _ _ _ ht

theorem EngineClosed.sendInit (h : EngineClosed P Q) {p : Params} {s : State} (items : List InitItem) (hs : FreeAnd p P s) :
    FreeAnd p P (items.foldl sendInitItem s) := by
  refine List.foldlRecOn (motive := FreeAnd p P) _ _ hs fun t ht item _ => ?_
  unfold sendInitItem
  split
  · exact h.syncSend ht fun _ => ⟨_, rfl⟩
  · split
    · exact ht
    · exact h.syncSend ht (by simp)

/-- Handing over pixels that fit the scratch buffer, to an engine that is idle. -/
theorem EngineClosed.bulkSend (h : EngineClosed P Q) {p : Params} {s : State} {pix : List Pixel} {busy : Bool}
    (hs : FreeAnd p P s) (hn : busy = false → 2 * pix.length ≤ p.scratchBytes) :
    Q (Machine.bulkSend pix busy s).1 ∧
      ((Machine.bulkSend pix busy s).2 = false → FreeAnd p P (Machine.bulkSend pix busy s).1) := by
  rcases bulkSend_cases pix busy s with ⟨_, e⟩ | ⟨_, _, e⟩ | ⟨hne, hok, hb, e⟩ <;> rw [e]
  · exact ⟨h.weaken _ hs.1, fun _ => hs⟩
  · have := h.syncSend (d := true) (bytes := pixRunBytes .hiFirst pix) hs (by simp)
    exact ⟨h.weaken _ this.1, fun _ => this⟩
  · exact ⟨h.arm s pix hs.1 hs.2.1 hok hne (hs.2.2 ▸ hn hb), by simp⟩

theorem EngineClosed.burst (h : EngineClosed P Q) {p : Params} (src : PixSrc) (total fuel i : Nat) {s : State}
    (hs : FreeAnd p P s) (hf : total - i ≤ fuel) : Q (burstFrom fuel src total i s) := by
  have fits : ∀ i (m : Memory), false = false → 2 * (pixChunk m src i (min p.chunkPix (total - i))).length ≤ p.scratchBytes := by
    intro i m _
    have := hs.2.2 ▸ h.chunk s hs.1
    rw [pixChunk_length]
    omega
  refine burstFrom_induction (P := fun _ s => FreeAnd p P s) (p := p) (fun _ _ h => h.2.2) ?_ ?_ ?_ fuel i s hf hs
  · intro i s hs _ r hr h2
    subst hr
    have := (h.bulkSend hs (fits i s.mem)).2 h2
    exact ⟨h.inside.surf _ _ this.1, this.2.1, this.2.2⟩
  · intro i s hs _ r hr _
    subst hr
    exact h.ends.pending _ _ (h.ends.surf _ _ (h.bulkSend hs (fits i s.mem)).1)
  · intro i s hs _
    unfold burstDone
    split
    · exact h.ends.complete _ (h.ends.disarm (h.weaken _ hs.1))
    · exact h.ends.complete _ (h.weaken _ hs.1)

theorem EngineClosed.streamBurst (h : EngineClosed P Q) {p : Params} (src : PixSrc) (total : Nat) {s : State}
    (hs : FreeAnd p P s) : Q (Machine.streamBurst src total s) :=
  h.burst src total total 0 hs (by omega)

theorem EngineClosed.bulkReturn (h : EngineClosed P Q) {p : Params} {s : State} {pix : List Pixel} {busy : Bool}
    (hs : FreeAnd p P s) (hn : busy = false → 2 * pix.length ≤ p.scratchBytes) : Q (Machine.bulkReturn pix busy s) :=
  h.ends.complete _ (h.bulkSend hs hn).1

/-! ## Every command -/

theorem firstFault_cons {t : Option FaultCode} {l : List (Option FaultCode)} :
    firstFault (t :: l) = none ↔ t = none ∧ firstFault l = none := by
  cases t <;> simp

/-- A property closed under the updates is kept by every command. -/
theorem exec_engineClosed (h : EngineClosed P Q) {i : Instr} {s t : State} (hs : P s) (he : exec i s = .next t) : Q t := by
  have hw := h.weaken _ hs
  have idle : busTest s = none → FreeAnd s.params P s := fun hb => ⟨hs, by rw [busTest_pass.1 hb]; simp, rfl⟩
  cases i <;> injection he with he <;> subst he
  case wrcmd b =>
    refine h.ends.guarded hw fun hf => h.ends.complete _ (h.ends.disarm (h.weaken _ (h.syncSend (idle ?_) fun _ => ⟨_, rfl⟩).1))
    exact (firstFault_cons.1 hf).1
  case wrdat b =>
    refine h.ends.guarded hw fun hf => h.ends.complete _ (h.ends.disarm (h.weaken _ (h.syncSend (idle ?_) (by simp)).1))
    exact (firstFault_cons.1 hf).1
  case wrbulk =>
    refine h.ends.guarded hw fun hf => h.ends.complete _ (h.ends.disarm (h.weaken _ ?_))
    have hb := (firstFault_cons.1 (firstFault_cons.1 hf).2).1
    split
    · exact hs
    · exact (h.syncSend (idle hb) (by simp)).1
  case wrbulka =>
    refine h.ends.guarded hw fun hf => ?_
    dsimp only
    split
    · exact h.ends.pending _ _ (h.ends.disarm hw)
    · next hb =>
      have hn := of_decide_eq_false (faultIf_eq_none.1 (firstFault_cons.1 hf).1)
      exact h.bulkReturn (p := s.params) ⟨h.inside.disarm hs, hb, rfl⟩ fun _ => by rw [pixChunk_length]; omega
  case wait ms =>
    unfold waitOp
    rcases waitStep_cases ms.toNat .start s with ⟨_, _, e⟩ | ⟨hph, _⟩ | ⟨_, _, ph, e⟩
    · rw [e]; exact h.ends.complete _ hw
    · simp at hph
    · rw [e]; exact h.ends.pending _ _ hw
  case abort => exact h.ends.complete _ (h.abort s hs)
  case teinit =>
    split
    · exact h.ends.complete _ hw
    · next hi =>
      refine h.ends.complete _ (h.claim (drawn 2 s) _ (h.inside.env s _ hs) (fun hk => ?_) (by simpa using hi))
      revert hk; simp only [drawn_params]; cases s.params.dmaPresent <;> simp
  case tefree =>
    dsimp only
    have ha := h.abort s hs
    have hb : (abortTransfer s).te.st ≠ .dmaBusy := by
      unfold abortTransfer; split <;> simp_all
    split
    · refine h.ends.complete _ (h.free (drawn 1 (abortTransfer s)) _ (h.ends.env _ _ ha) hb (.inr ?_))
      exact fitScratch_length _ _
    · exact h.ends.complete _ (h.free (abortTransfer s) _ ha hb (.inl rfl))
  case setwin =>
    split
    · unfold setWinWindowed
      dsimp only
      split
      · exact h.ends.complete _ hw
      · split
        · exact h.ends.complete _ hw
        · refine h.ends.guarded hw fun hf => h.ends.complete _ (h.weaken _ (h.armWindow _ (idle (firstFault_cons.1 hf).1)).1)
    · exact h.ends.raiseFault _ _ hw
  case drawimg =>
    split
    · unfold drawImgWindowed
      split
      · exact h.ends.complete _ hw
      · refine h.ends.guarded hw fun hf => h.streamBurst _ _ (h.armWindow _ (idle ?_))
        exact (firstFault_cons.1 (firstFault_cons.1 hf).2).1
    · unfold drawImgPaged
      split
      · exact h.ends.complete _ hw
      · refine h.ends.guarded hw fun hf => h.ends.complete _ (h.weaken _ (h.sendPages _ _ _ _ (idle ?_)).1)
        exact (firstFault_cons.1 (firstFault_cons.1 hf).2).1
  case fillrect =>
    split
    · unfold fillRectWindowed fillWindowed
      split
      · exact h.ends.complete _ hw
      · exact h.ends.guarded hw fun hf => h.streamBurst _ _ (h.armWindow _ (idle (firstFault_cons.1 hf).1))
    · unfold fillRectPaged
      split
      · exact h.ends.complete _ hw
      · exact h.ends.guarded hw fun hf => h.ends.complete _ (h.weaken _ (h.sendPages _ _ _ _ (idle (firstFault_cons.1 hf).1)).1)
  case setrot rot =>
    split
    · refine h.ends.guarded hw fun hf => ?_
      have h1 := h.syncSend (d := false) (bytes := [s.params.opMadctl]) (idle (firstFault_cons.1 hf).1) fun _ => ⟨_, rfl⟩
      have h2 := h.syncSend (d := true) (bytes := [orientByte s.params.orient rot]) h1 (by simp)
      have h3 : ∀ u, FreeAnd s.params P { syncSend true [orientByte s.params.orient rot] (syncSend false [s.params.opMadctl] s)
          with surf := u } := fun u => ⟨h.inside.surf _ u h2.1, h2.2⟩
      dsimp only
      split
      · exact h.ends.complete _ (h.weaken _ (h.armWindow _ (h3 _)).1)
      · exact h.ends.complete _ (h.weaken _ (h3 _).1)
    · exact h.ends.guarded hw fun _ => h.ends.complete _ hw
  case pushpix =>
    split
    · refine h.ends.guarded hw fun hf => h.streamBurst (p := s.params) _ _ (idle ?_)
      exact (firstFault_cons.1 (firstFault_cons.1 hf).2).1
    · exact h.ends.raiseFault _ _ hw
  case clear =>
    split
    · unfold clearWindowed fillWindowed
      split
      · exact h.ends.complete _ hw
      · exact h.ends.guarded hw fun hf => h.streamBurst _ _ (h.armWindow _ (idle (firstFault_cons.1 hf).1))
    · exact h.ends.guarded hw fun hf => h.ends.complete _ (h.weaken _ (h.sendPages _ _ _ _ (idle (firstFault_cons.1 hf).1)).1)
  case surfinit =>
    refine h.ends.guarded hw fun hf => ?_
    exact h.ends.complete _ (h.ends.surf _ _ (h.ends.env _ _ (h.weaken _ (h.sendInit _ (idle (firstFault_cons.1 hf).1)).1)))
  case buildmaps => exact h.ends.guarded hw fun _ => h.ends.complete _ (h.ends.rsm _ _ hw)
  case resample => exact h.ends.guarded hw fun _ => h.ends.complete _ (h.ends.mem _ _ hw)
  case dithb => exact h.ends.guarded hw fun _ => h.ends.complete _ (h.ends.mem _ _ hw)
  case dithfs => exact h.ends.guarded hw fun _ => h.ends.complete _ (h.ends.mem _ _ hw)

/-- A property closed under the updates is kept by a step of an operation in progress. -/
theorem resumeOp_engineClosed (h : EngineClosed P Q) {op : PendingOp} {s : State} (hs : P s) : Q (resumeOp op s) := by
  have hw := h.weaken _ hs
  have idle : s.te.st ≠ .dmaBusy → FreeAnd s.params P s := fun hb => ⟨hs, hb, rfl⟩
  cases op with
  | wait ms ph =>
    unfold resumeOp waitOp
    rcases waitStep_cases ms ph s with ⟨_, _, e⟩ | ⟨_, e⟩ | ⟨_, _, ph', e⟩ <;> simp only [e]
    · exact h.ends.complete _ hw
    · exact h.ends.complete _ (h.abort s hs)
    · exact h.ends.pending _ _ hw
  | bulkHold pix =>
    unfold resumeOp bulkHoldOp
    dsimp only
    split
    · exact h.ends.pending _ _ hw
    · next hb => exact h.bulkReturn (p := s.params) (idle hb) (by simp)
  | burst src total i n ph =>
    unfold resumeOp burstOp
    dsimp only
    rcases waitStep_cases s.params.xferTimeoutMs.toNat ph s with ⟨_, hb, e⟩ | ⟨_, e⟩ | ⟨_, _, ph', e⟩ <;> simp only [e]
    · exact h.burst _ _ _ _ (idle hb) (Nat.le_refl _)
    · exact h.ends.complete _ (h.ends.disarm (h.abort s hs))
    · exact h.ends.pending _ _ hw

/-! ## Every step -/

theorem hostAccess_engineClosed {a : Nat} {check : Option FaultCode} {s t : State} (hs : P s)
    (he : hostAccess a check s = .next t) : P t := by
  unfold hostAccess at he
  split at he
  · injection he with he; exact he ▸ hs
  · simp at he
  · simp at he

/-- A property closed under the updates is kept by every bus action of the host. -/
theorem hostAction_engineClosed (h : EngineClosed P Q) {act : HostAction} {s t : State} (hs : P s)
    (he : hostAction act s = .next t) : Q t := by
  have adv : P (advance s) := h.inside.host _ _ hs
  have advw := h.weaken _ adv
  cases act with
  | wr n v =>
    simp only [hostAction] at he
    split at he
    · rcases issue_cases v (advance s) with ⟨_, e⟩ | ⟨_, e⟩ | ⟨_, i, _, e⟩ <;> rw [e] at he
      · injection he with he; exact he ▸ advw
      · injection he with he; exact he ▸ h.ends.port _ _ advw
      · exact exec_engineClosed h adv he
    · injection he with he; exact he ▸ h.ends.port _ _ advw
  | rd n => injection he with he; exact he ▸ h.ends.host _ _ advw
  | st8 a v => exact hostAccess_engineClosed (h.ends.mem _ _ advw) he
  | ld8 a => exact hostAccess_engineClosed (h.ends.host _ _ advw) he
  | st16 a v => exact hostAccess_engineClosed (h.ends.mem _ _ advw) he
  | ld16 a => exact hostAccess_engineClosed (h.ends.host _ _ advw) he
  | fifoRead =>
    simp only [hostAction] at he
    split at he <;> injection he with he <;> subst he
    · exact h.weaken _ hs
    · exact h.ends.host _ _ (h.ends.host _ _ advw)
  | runLoop cfg => injection he with he; exact he ▸ h.ends.host _ _ advw

/-- A property that the updates outside the engine keep is kept by every step of the frame loop. -/
theorem loopStep_dataClosed (h : DataClosed P) {l : FrameLoop} {s t : State} (hs : P s)
    (he : loopStep l s = .next t) : P t := by
  unfold loopStep at he
  split at he
  · split at he <;> injection he with he <;> subst he
    · exact hs
    · exact h.host _ _ (h.host _ _ hs)
  · split at he <;> injection he with he <;> subst he <;> exact h.host _ _ hs
  · exact hostAccess_engineClosed (h.mem _ _ (h.host _ _ (h.host _ _ hs))) he
  · split at he
    · split at he
      · injection he with he; exact he ▸ hs
      · exact hostAccess_engineClosed (h.mem _ _ (h.host _ _ (h.host _ _ hs))) he
    · injection he with he; exact he ▸ h.host _ _ hs
  all_goals (injection he with he; subst he; first | exact h.host _ _ hs | exact h.host _ _ (h.host _ _ hs))

/-- A property closed under the updates is kept by every step of the host. -/
theorem hostStep_engineClosed (h : EngineClosed P Q) {s t : State} (hs : P s) (he : hostStep s = .next t) : Q t := by
  unfold hostStep at he
  split at he
  · injection he with he
    exact he ▸ resumeOp_engineClosed h (h.inside.pending _ _ hs)
  · split at he
    · exact hostAction_engineClosed h hs he
    · split at he
      · exact loopStep_dataClosed h.ends (h.weaken _ hs) he
      · injection he with he; exact he ▸ h.weaken _ hs

/-- A property closed under the updates is kept by every step, when the other agents' steps keep it. -/
theorem step_engineClosed (h : EngineClosed P Q) {s t : State} (hs : P s)
    (dma : nextEvent s = .dma → P (turnTaken s) → Q (dmaStep (turnTaken s)))
    (notify : ∀ k, nextEvent s = .notify k → P (turnTaken s) → Q (notifyStep k (turnTaken s)))
    (clock : P (turnTaken s) → Q (clockStep (turnTaken s)))
    (reset : nextEvent s = .reset → Q (platformReset (turnTaken s))) (he : step s = .next t) : Q t := by
  have ht : P (turnTaken s) := by rw [turnTaken_eq]; exact h.inside.env _ _ hs
  cases e : nextEvent s <;> rw [step_of_event e] at he
  case host => exact hostStep_engineClosed h ht he
  all_goals injection he with he; subst he
  case dma => exact dma e ht
  case notify k => exact notify k e ht
  case clock => exact clock ht
  case source w => exact h.ends.host _ _ (h.weaken _ ht)
  case reset => exact reset e

end Sys2Proof.Machine
end

