-- ==== Sys2Proof/Laws/PerInstr.lean ====
section
/-!
SUPPORT. The laws stated for every instruction, one lemma per constructor.
-/

namespace Sys2Proof.Laws

/-- R100, R101: the word of an operation holds its opcode byte in bits [31:24] and its immediate in bits [23:0]. -/
def EncodingFields.Statement (i : Instr) : Prop := opField (encode i) = i.opcode ∧ immField (encode i) = i.imm

theorem EncodingFields.all (i : Instr) : EncodingFields.Statement i :=
  ⟨Sys2Proof.Machine.opField_encode i, Sys2Proof.Machine.immField_encode i⟩

theorem EncodingFields.wrcmd (b : Byte) : EncodingFields.Statement (.wrcmd b) := EncodingFields.all _
theorem EncodingFields.wrdat (b : Byte) : EncodingFields.Statement (.wrdat b) := EncodingFields.all _
theorem EncodingFields.wrbulk : EncodingFields.Statement .wrbulk := EncodingFields.all _
theorem EncodingFields.wrbulka : EncodingFields.Statement .wrbulka := EncodingFields.all _
theorem EncodingFields.wait (ms : BitVec 24) : EncodingFields.Statement (.wait ms) := EncodingFields.all _
theorem EncodingFields.abort : EncodingFields.Statement .abort := EncodingFields.all _
theorem EncodingFields.teinit : EncodingFields.Statement .teinit := EncodingFields.all _
theorem EncodingFields.tefree : EncodingFields.Statement .tefree := EncodingFields.all _
theorem EncodingFields.setwin : EncodingFields.Statement .setwin := EncodingFields.all _
theorem EncodingFields.drawimg : EncodingFields.Statement .drawimg := EncodingFields.all _
theorem EncodingFields.fillrect : EncodingFields.Statement .fillrect := EncodingFields.all _
theorem EncodingFields.setrot (rot : BitVec 2) : EncodingFields.Statement (.setrot rot) := EncodingFields.all _
theorem EncodingFields.pushpix : EncodingFields.Statement .pushpix := EncodingFields.all _
theorem EncodingFields.clear : EncodingFields.Statement .clear := EncodingFields.all _
theorem EncodingFields.surfinit : EncodingFields.Statement .surfinit := EncodingFields.all _
theorem EncodingFields.buildmaps : EncodingFields.Statement .buildmaps := EncodingFields.all _
theorem EncodingFields.resample : EncodingFields.Statement .resample := EncodingFields.all _
theorem EncodingFields.dithb : EncodingFields.Statement .dithb := EncodingFields.all _
theorem EncodingFields.dithfs : EncodingFields.Statement .dithfs := EncodingFields.all _

end Sys2Proof.Laws
end

