-- ==== Sys2Proof/Laws/Surface.lean ====
section
/-!
SUPPORT. What the shared operations of the surface do, said once: clipping, arming a window, a burst with and without the DMA channel.
-/

namespace Sys2Proof.Machine

/-! ## Clipping (R251) -/

/-- What a clipped rectangle satisfies. -/
theorem clipRect_some {W H : Nat} {x y w h : Int} {c : Rect} (hc : clipRect W H x y w h = some c) :
    0 < w ∧ 0 < h ∧ x ≤ c.x0 ∧ y ≤ c.y0 ∧ c.x0 ≤ c.x1 ∧ c.y0 ≤ c.y1 ∧ c.x1 < W ∧ c.y1 < H ∧
      (c.x1 : Int) < x + w ∧ (c.y1 : Int) < y + h := by
  unfold clipRect at hc
  simp only at hc
  split at hc
  · simp at hc
  · split at hc
    · simp at hc
    · simp only [Option.some.injEq] at hc
      subst hc
      simp only
      omega

/-- The whole panel clips to itself. -/
theorem clipRect_panel {W H : Nat} (hw : 1 ≤ W) (hh : 1 ≤ H) :
    clipRect W H 0 0 W H = some { x0 := 0, y0 := 0, x1 := W - 1, y1 := H - 1 } := by
  unfold clipRect
  rw [if_neg (by omega)]
  simp only
  rw [if_neg (by omega)]
  congr 2 <;> omega

theorem rectCount_pos (c : Rect) : 0 < rectCount c := by simp [rectCount, rectCols, rectRows]

/-! ## The window (R257) -/

theorem armWindow_wire (c : Rect) (s : State) : (armWindow c s).wire = s.wire ++ rectEvents s.params c := by
  simp [armWindow, rectEvents, windowEvents, frameEvents, rangeBytes]

theorem windowTests_pass {s : State} (h : surfaceReady s) : firstFault [busTest s, underrunTest s] = none := by
  rw [busTest_pass.2 h.1, underrunTest_pass.2 h.2]; rfl

/-! ## The pixels of a burst (R262) -/

theorem pixChunk_ne_nil {m : Memory} {src : PixSrc} {i n : Nat} (h : 1 ≤ n) : pixChunk m src i n ≠ [] := by
  intro e
  have := congrArg List.length e
  simp [pixChunk] at this
  omega

theorem pixChunk_solid (m : Memory) (c : Pixel) (i n : Nat) : pixChunk m (.solid c) i n = List.replicate n c := by
  apply List.ext_getElem <;> simp [pixChunk, pixAt]

theorem pixChunk_run (s : State) : pixChunk s.mem (.run s.port.a.a0.toNat) 0 s.port.a.a1.toNat = runPixels s := by
  simp [pixChunk, runPixels, pixAt]

/-- The pixels of a clipped image, in row-major order: the image's own pixel at each place of the panel (R264). -/
theorem pixChunk_image {s : State} {c : Rect} (hc : visible s = some c) :
    pixChunk s.mem (imageSrc s c) 0 (rectCount c) = rectPixels c (imagePixel s) := by
  have hf := clipRect_some hc
  simp only [pixChunk, rectPixels, pixAt, imageSrc, imagePixel, asCoord, asUnsigned, pixAddr]
  refine List.map_congr_left fun k hk => ?_
  simp only [List.mem_range, Nat.zero_add] at hk ⊢
  congr 2
  congr 1
  have hcol : 0 < rectCols c := by simp [rectCols]
  generalize k % rectCols c = p
  generalize k / rectCols c = q
  obtain ⟨w, hw⟩ : ∃ w : Nat, s.port.a.a2.toInt = w := ⟨_, (Int.toNat_of_nonneg (by omega)).symm⟩
  rw [hw]
  obtain ⟨dx, hdx⟩ : ∃ dx : Nat, (c.x0 : Int) - s.port.a.a0.toInt = dx := ⟨_, (Int.toNat_of_nonneg (by omega)).symm⟩
  obtain ⟨dy, hdy⟩ : ∃ dy : Nat, (c.y0 : Int) - s.port.a.a1.toInt = dy := ⟨_, (Int.toNat_of_nonneg (by omega)).symm⟩
  rw [hdx, hdy]
  have e1 : ((c.y0 + q : Nat) : Int) - s.port.a.a1.toInt = ((dy + q : Nat) : Int) := by omega
  have e2 : ((c.x0 + p : Nat) : Int) - s.port.a.a0.toInt = ((dx + p : Nat) : Int) := by omega
  rw [e1, e2]
  simp only [Int.toNat_natCast]
  rw [← Int.natCast_mul, ← Int.natCast_add, Int.toNat_natCast]

/-- The buffer test of DRAWIMG, on a rectangle with a visible part (R75, R264). -/
theorem checkBuf_image {s : State} {c : Rect} (hc : visible s = some c) (ha : s.port.a.a4.toNat % 2 = 0) :
    (imageInMem s → checkBuf s.params s.port.a.a4.toNat (imageBytes s) 2 = none) ∧
      (¬imageInMem s → checkBuf s.params s.port.a.a4.toNat (imageBytes s) 2 = some .buffer) := by
  have hf := clipRect_some hc
  obtain ⟨w, hw⟩ : ∃ w : Nat, s.port.a.a2.toInt = w := ⟨_, (Int.toNat_of_nonneg (by omega)).symm⟩
  obtain ⟨h, hh⟩ : ∃ h : Nat, s.port.a.a3.toInt = h := ⟨_, (Int.toNat_of_nonneg (by omega)).symm⟩
  have e : imageInMem s ↔ s.port.a.a4.toNat + 2 * w * h ≤ s.params.memBytes := by
    unfold imageInMem
    rw [hw, hh]
    exact ⟨fun h => by exact_mod_cast h.2, fun h => ⟨ha, by exact_mod_cast h⟩⟩
  have b : imageBytes s = 2 * w * h := by simp [imageBytes, asCoord, hw, hh]
  rw [e, b]
  exact ⟨fun h => checkBuf_pass ha h, fun h => checkBuf_buffer (by omega) (by omega)⟩

/-! ## A chunk (R206) -/

/-- Without the channel a chunk goes synchronously. -/
theorem bulkSend_sync {pix : List Pixel} {s : State} (h : pix ≠ []) (hok : s.te.dmaOk = false) :
    bulkSend pix false s = (syncSend true (pixRunBytes .hiFirst pix) s, false) := by
  cases pix with
  | nil => exact absurd rfl h
  | cons a l => simp [bulkSend, hok]

/-- With the channel a chunk is armed. -/
theorem bulkSend_arm {pix : List Pixel} {s : State} (h : pix ≠ []) (hok : s.te.dmaOk = true) :
    bulkSend pix false s = (armTransfer pix s, true) := by
  cases pix with
  | nil => exact absurd rfl h
  | cons a l => simp [bulkSend, hok]

/-! ## A burst (R262) -/

/-- All pixels sent: the burst ends. -/
theorem burstFrom_done {src : PixSrc} {total i : Nat} (fuel : Nat) (s : State) (h : total ≤ i) :
    burstFrom fuel src total i s = burstDone s := by
  cases fuel with
  | zero => rfl
  | succ fuel => rw [burstFrom, if_neg (by omega)]

/-- With the channel a burst with pixels left arms its next chunk. -/
theorem burstFrom_arm {src : PixSrc} {total i fuel : Nat} {s : State} (hi : i < total) (hf : total - i ≤ fuel)
    (hok : s.te.dmaOk = true) (hp : 1 ≤ s.params.chunkPix) :
    burstFrom fuel src total i s =
      { takePixels (min s.params.chunkPix (total - i))
          (armTransfer (pixChunk s.mem src i (min s.params.chunkPix (total - i))) s) with
        pending := some (.burst src total i (min s.params.chunkPix (total - i)) .start) } := by
  cases fuel with
  | zero => omega
  | succ fuel =>
    rw [burstFrom, if_pos hi]
    generalize hn : min s.params.chunkPix (total - i) = n
    have h1 : 1 ≤ n := by omega
    simp [bulkSend_arm (pixChunk_ne_nil h1) hok]

/-- Without the channel a burst sends all its pixels, high byte first, and ends. -/
theorem burstFrom_sync (src : PixSrc) (total : Nat) (fuel i : Nat) (s : State) (hf : total - i ≤ fuel) (hi : i ≤ total)
    (hok : s.te.dmaOk = false) (hp : 1 ≤ s.params.chunkPix) :
    ∃ es, logical es = dataStream (pixChunk s.mem src i (total - i)) ∧
      burstFrom fuel src total i s = burstDone (takePixels (total - i)
        { s with wire := s.wire ++ es, te := if i < total then restedAt true s.te else s.te }) := by
  induction fuel generalizing i s with
  | zero =>
    refine ⟨[], ?_, ?_⟩
    · rw [show total - i = 0 by omega]; rfl
    · rw [show total - i = 0 by omega, if_neg (by omega)]; simp [burstFrom, takePixels]
  | succ fuel ih =>
    unfold burstFrom
    by_cases h : i < total
    · rw [if_pos h]
      simp only
      rw [bulkSend_sync (pixChunk_ne_nil (by omega)) hok]
      simp only [Bool.false_eq_true, if_false]
      generalize hn : min s.params.chunkPix (total - i) = n
      obtain ⟨es, he, hb⟩ := ih (i + n) (takePixels n (syncSend true (pixRunBytes .hiFirst (pixChunk s.mem src i n)) s))
        (by omega) (by omega) (by simpa using hok) (by simpa using hp)
      refine ⟨frameEvents true (pixRunBytes .hiFirst (pixChunk s.mem src i n)) ++ es, ?_, ?_⟩
      · rw [logical_append, he, logical_frameEvents, pixRunBytes_hiFirst]
        simp only [takePixels_mem, syncSend_mem]
        rw [← dataStream_append, ← pixChunk_append]; congr 2; omega
      · rw [hb, if_pos h]
        simp only [takePixels, syncSend, restedAt, List.append_assoc]
        have e : s.surf.win.remaining - BitVec.ofNat 32 n - BitVec.ofNat 32 (total - (i + n)) =
            s.surf.win.remaining - BitVec.ofNat 32 (total - i) := by
          rw [BitVec.sub_sub, ← BitVec.ofNat_add]; congr 2; omega
        congr 1
        simp only [e, ite_self]
    · rw [if_neg h]
      refine ⟨[], ?_, ?_⟩
      · rw [show total - i = 0 by omega]; rfl
      · rw [show total - i = 0 by omega, if_neg (by omega)]; simp [takePixels]

/-! ## Page rows (R293, R295) and the table (R274) -/

theorem sendPageRow_eq (page cx0 : Nat) (bytes : List Byte) (s : State) :
    sendPageRow page cx0 bytes s =
      { s with te := restedAt true s.te, wire := s.wire ++ pageEvents s.params page cx0 bytes } := by
  have e (c : Nat) : c &&& 15 = c % 16 := Nat.and_two_pow_sub_one_eq_mod c 4
  simp [sendPageRow, syncSend, restedAt, pageEvents, frameEvents, opPage, e, Nat.shiftRight_eq_div_pow]

/-- At least one page: every row in ascending order, the line left high. -/
theorem sendPages_eq (n page0 cx0 : Nat) (row : Nat → List Byte) (s : State) :
    sendPages page0 (n + 1) cx0 row s =
      { s with
        te := restedAt true s.te
        wire := s.wire ++ (List.range (n + 1)).flatMap fun k => pageEvents s.params (page0 + k) cx0 (row (page0 + k)) } := by
  induction n with
  | zero => simp [sendPages, sendPageRow_eq]
  | succ n ih =>
    unfold sendPages at ih ⊢
    rw [List.range_succ, List.foldl_append, ih]
    simp [sendPageRow_eq, restedAt]

/-- The whole table, from an engine at rest. -/
theorem sendInit_eq (l : List InitItem) {s : State} (h1 : s.te.st = .idle) (h2 : s.te.cs = false) :
    l.foldl sendInitItem s =
      { s with te := { s.te with dc := levelAfter s.te.dc l }, wire := s.wire ++ l.flatMap initEvents } := by
  induction l generalizing s with
  | nil => simp [levelAfter]
  | cons a l ih =>
    rw [List.foldl_cons]
    rcases a with b | bs
    · rw [sendInitItem, ih rfl rfl]
      simp only [syncSend, levelAfter, initEvents, frameEvents, List.flatMap_cons, List.append_assoc, ← h1, ← h2]
      rfl
    · cases bs with
      | nil =>
        rw [show sendInitItem s (.data []) = s from rfl, ih h1 h2]
        simp [levelAfter, initEvents]
      | cons b bs =>
        simp only [sendInitItem]
        rw [if_neg (by simp), ih rfl rfl]
        simp only [syncSend, levelAfter, initEvents, frameEvents, List.flatMap_cons, List.append_assoc, List.cons_append, ← h1, ← h2]

/-! ## A step of the host inside a burst (R262) -/

/-- The transfer has ended: the next chunk, or the end. -/
theorem burstOp_ended {src : PixSrc} {total i n : Nat} {ph : WaitPhase} {s : State} (hp : ph ≠ .abort)
    (h : s.te.st ≠ .dmaBusy) : burstOp src total i n ph s = burstFrom (total - (i + n)) src total (i + n) s := by
  cases ph <;> simp_all [burstOp, waitStep, waitPass]

/-- The transfer has timed out: it is aborted and the rest dropped. -/
theorem burstOp_abort {src : PixSrc} {total i n : Nat} {s : State} :
    burstOp src total i n .abort s = complete false (disarm (abortTransfer s)) := rfl

/-- The transfer goes on: so does the wait. -/
theorem burstOp_waits {src : PixSrc} {total i n : Nat} {ph : WaitPhase} {t0 : Word} {s : State} (h : s.te.st = .dmaBusy)
    (hp : ph = .start ∧ t0 = s.te.nowMs ∨ ph = .poll t0) :
    burstOp src total i n ph s = { s with pending := some (.burst src total i n
      (if s.params.xferTimeoutMs.toNat ≤ (s.te.nowMs - t0).toNat then .abort else .poll t0)) } := by
  have e : waitStep s.params.xferTimeoutMs.toNat ph s =
      (.again (if s.params.xferTimeoutMs.toNat ≤ (s.te.nowMs - t0).toNat then .abort else .poll t0), s) := by
    rcases hp with ⟨rfl, rfl⟩ | rfl <;> simp only [waitStep, waitPass, h, ne_eq, not_true_eq_false, if_false] <;> split <;> rfl
  rw [burstOp, e]

/-- A difference of two readings of the clock, modulo 2^32. -/
theorem clock_difference (a b : Word) : (a - b).toNat = (a.toNat + 2 ^ 32 - b.toNat) % 2 ^ 32 := by
  rw [BitVec.toNat_sub]
  congr 1
  have := b.isLt
  omega

end Sys2Proof.Machine
end

