-- ==== Sys2Proof/Tests/Slice0.lean ====
section
/-!
SUPPORT. Tests: words written out from the encoding tables, ill-formed terms, worked examples of spec/95_test_vectors.md one step at a
time, and for every statement with hypotheses a state that meets them. Expected values come from the spec's tables, not from the model.
-/

namespace Sys2Proof.Tests

open Sys2Proof.Machine

/-! ## Small states -/

/-- A windowed build: 4 × 3 pixels, a scratch buffer of 2 pixels, 64 bytes of MEM. -/
def winBuild : Params :=
  { variant := .windowedRam, nativeW := 4, nativeH := 3, scratchBytes := 4, xferTimeoutMs := 5, dmaPresent := true, memBytes := 64
    mapMax := 8, orient := { r0 := 0xA0, r1 := 0xA1, r2 := 0xA2, r3 := 0xA3 }, initSeq := [.cmd 0x11, .data []]
    regBase := 0, memBase := 0x1000 }

/-- A paged build: 4 × 16 pixels. -/
def pagedBuild : Params := { winBuild with variant := .pagedMono, nativeH := 16 }

def fresh (p : Params) : State := State.resetWith p { mem := [], scratch := [], nowMs := 0 }

/-- The windowed build after reset. -/
def w0 : State := fresh winBuild

/-- The paged build after reset. -/
def p0 : State := fresh pagedBuild

/-- With the DMA channel claimed. -/
def withDma (s : State) : State := { s with te := { s.te with inited := true, dmaOk := true } }

/-- With operands in `A0` to `A4`. -/
def ops (a0 a1 a2 a3 a4 : Word) (s : State) : State :=
  { s with port := { s.port with a := { a0 := a0, a1 := a1, a2 := a2, a3 := a3, a4 := a4, a5 := 0, a6 := 0, a7 := 0 } } }

/-- With a first fault taken. -/
def faulted (s : State) : State := { s with port := { s.port with faulted := true, fault := 0x1001 } }

/-- A transfer of two pixels in flight, its number 1. -/
def busy : State := armTransfer [0x1234, 0xABCD] (withDma w0)

/-- All its bytes shifted and its completion pending. -/
def ended : State := { busy with te := { busy.te with dma := none, notePending := [1] } }

/-- With a window of the whole panel armed. -/
def armed (s : State) : State := armWindow { x0 := 0, y0 := 0, x1 := 3, y1 := 2 } s

/-- A burst into it, one pixel of twelve handed over. -/
def partly (s : State) : State := takePixels 1 (armed s)

/-- The agent `e` steps next. -/
def turn (e : Event) (s : State) : State := { s with env := { s.env with sched := [e] } }

/-- The host's next action is `act`, and it is the host's turn. -/
def does (act : HostAction) (s : State) : State := turn .host { s with host := { s.host with prog := [act], hpc := 0 } }

/-- The host is blocked in `op`, and it is its turn. -/
def blocked (op : PendingOp) (s : State) : State := turn .host { s with pending := some op }

def cfg : FrameCfg :=
  { src := 0, dst := 32, offx := 0, offy := 0, dw := 2, dh := 2, dither := .bayer, bg := some 0x1234
    pal := { p0 := 0xFFFF, p1 := 0xAD55, p2 := 0x52AA, p3 := 0 } }

/-- The host is at the phase `ph` of its frame loop, and it is its turn. -/
def loops (ph : LoopPhase) (fifo : List Word) (s : State) : State :=
  turn .host { s with host := { s.host with loop := some { cfg := cfg, phase := ph }, fifo := fifo } }

/-- One field of the state after a command that goes on. -/
def after {α : Type} (o : Host.Outcome State Fault Refusal) (f : State → α) : Option α :=
  match o with
  | .next t => some (f t)
  | .fault _ => none
  | .refused _ => none

/-! ## Decoding: words of the table of R104, opcode byte first -/

theorem test_decode_wrcmd : decode 0b00010000000000000000000000101010#32 = .command (.wrcmd 0x2A) := by decide
theorem test_decode_wrdat : decode 0b00010001000000000000000011111111#32 = .command (.wrdat 0xFF) := by decide
theorem test_decode_wrbulk : decode 0b00010010000000000000000000000000#32 = .command .wrbulk := by decide
theorem test_decode_wrbulka : decode 0b00010011000000000000000000000000#32 = .command .wrbulka := by decide
theorem test_decode_wait : decode 0b00010100100000000000000000000001#32 = .command (.wait 0x800001) := by decide
theorem test_decode_abort : decode 0b00010101000000000000000000000000#32 = .command .abort := by decide
theorem test_decode_teinit : decode 0b00010110000000000000000000000000#32 = .command .teinit := by decide
theorem test_decode_tefree : decode 0b00010111000000000000000000000000#32 = .command .tefree := by decide
theorem test_decode_setwin : decode 0b00100000000000000000000000000000#32 = .command .setwin := by decide
theorem test_decode_drawimg : decode 0b00100001000000000000000000000000#32 = .command .drawimg := by decide
theorem test_decode_fillrect : decode 0b00100010000000000000000000000000#32 = .command .fillrect := by decide
theorem test_decode_setrot : decode 0b00100011000000000000000000000011#32 = .command (.setrot 3) := by decide
theorem test_decode_pushpix : decode 0b00100100000000000000000000000000#32 = .command .pushpix := by decide
theorem test_decode_clear : decode 0b00100101000000000000000000000000#32 = .command .clear := by decide
theorem test_decode_surfinit : decode 0b00100110000000000000000000000000#32 = .command .surfinit := by decide
theorem test_decode_buildmaps : decode 0b01000000000000000000000000000000#32 = .command .buildmaps := by decide
theorem test_decode_resample : decode 0b01000001000000000000000000000000#32 = .command .resample := by decide
theorem test_decode_dithb : decode 0b01010000000000000000000000000000#32 = .command .dithb := by decide
theorem test_decode_dithfs : decode 0b01010001000000000000000000000000#32 = .command .dithfs := by decide

/-- The illegal words of spec/95_test_vectors.md. -/
theorem test_decode_illegal :
    decode 0x00000000 = .illegal (.unknownOpcode 0) ∧ decode 0x30000000 = .illegal (.unknownOpcode 0x30) ∧
      decode 0x1000012A = .illegal (.reservedBitSet 0x10) ∧ decode 0x23000004 = .illegal (.reservedBitSet 0x23) ∧
      decode 0x15000001 = .illegal (.reservedBitSet 0x15) := by decide

theorem test_table_word : decodeTableWord 32 0x14000064 = some (.wait 100) ∧ decodeTableWord 32 0x30000000 = none := by decide

/-- `SETWIN 10, 10, 19, 19` and `WAIT 100` as R108 expands them, CLEAR with its operand in `A4` (R104), and a line with `*`. -/
theorem test_assembler_lines :
    asmLine [10, 10, 19, 19] .setwin = [.wr 8 10, .wr 9 10, .wr 10 19, .wr 11 19, .wr 0 0x20000000] ∧
      asmLine [] (.wait 100) = [.wr 0 0x14000064] ∧ asmLine [7] .clear = [.wr 12 7, .wr 0 0x25000000] ∧
      asmStar .drawimg = [.wr 0 0x21000000] := by decide

/-! ## Ill-formed terms are refused -/

theorem test_paged_lacks_setwin : Instr.availableIn .pagedMono .setwin = false := by decide
theorem test_paged_lacks_pushpix : Instr.availableIn .pagedMono .pushpix = false := by decide
theorem test_paged_lacks_rotation : Instr.availableIn .pagedMono (.setrot 2) = false := by decide
theorem test_paged_has_rotation_zero : Instr.availableIn .pagedMono (.setrot 0) = true := by decide
theorem test_builds_wf : winBuild.wf = true ∧ pagedBuild.wf = true ∧ Config.build.wf = true := by decide
theorem test_wf_width : { winBuild with nativeW := 0 }.wf = false := by decide
theorem test_wf_height : { winBuild with nativeH := 0 }.wf = false := by decide
theorem test_wf_scratch_odd : { winBuild with scratchBytes := 5 }.wf = false := by decide
theorem test_wf_scratch_empty : { winBuild with scratchBytes := 0, chunkPix := 0 }.wf = false := by decide
theorem test_wf_chunk_default : winBuild.chunkPix = 2 ∧ Config.build.chunkPix = 4 := by decide
theorem test_wf_chunk_empty : { winBuild with chunkPix := 0 }.wf = false := by decide
theorem test_wf_chunk_too_long : { winBuild with chunkPix := 3 }.wf = false := by decide
theorem test_wf_chunk_short : { winBuild with chunkPix := 1 }.wf = true := by decide
theorem test_wf_mem_odd : { winBuild with memBytes := 63 }.wf = false := by decide
theorem test_wf_map_max : { winBuild with mapMax := 0 }.wf = false := by decide
theorem test_wf_bayer : { winBuild with bayer := [] }.wf = false := by decide
theorem test_wf_paged_height : { pagedBuild with nativeH := 12 }.wf = false := by decide
theorem test_wf_paged_pages : { pagedBuild with nativeH := 136 }.wf = false := by decide
theorem test_wf_paged_columns : { pagedBuild with nativeW := 253, colOffset := 4 }.wf = false := by decide

/-! ## One step of each command, from the examples of spec/95_test_vectors.md and the rules -/

theorem test_wrcmd : after (exec (.wrcmd 0x2A) w0) (·.wire) = some [.sel, .byte false 0x2A, .desel] := by decide
theorem test_wrdat : after (exec (.wrdat 0x60) w0) (·.wire) = some [.sel, .byte true 0x60, .desel] := by decide
theorem test_wrbulk :
    after (exec .wrbulk { ops 1 3 0 0 0 w0 with mem := [(1, 0x0A), (3, 0x13)] }) (·.wire) =
      some [.sel, .byte true 0x0A, .byte true 0x00, .byte true 0x13, .desel] := by decide
theorem test_wrbulka :
    after (exec .wrbulka { ops 0 2 0 0 0 (withDma w0) with mem := [(0, 0x34), (1, 0x12), (2, 0xCD), (3, 0xAB)] })
      (fun t => (t.te.scratch, t.port.res, t.wire)) = some ([0x12, 0x34, 0xAB, 0xCD], true, [.sel]) := by decide
theorem test_wait_zero : after (exec (.wait 0) busy) (·.pending) = some (some (.wait 0 .abort)) := by decide
theorem test_abort : after (exec .abort busy) (fun t => (t.te.st, t.te.cs, t.wire)) = some (.idle, false, [.sel, .desel]) := by
  decide
theorem test_teinit_again : after (exec .teinit (withDma w0)) (·.port.res) = some true := by decide
theorem test_tefree : after (exec .tefree busy) (fun t => (t.te.dmaOk, t.te.inited, t.te.st)) = some (false, false, .idle) := by
  decide
theorem test_setwin_clipped :
    after (exec .setwin (ops (-1) 1 9 1 0 w0)) (fun t => (t.surf.win.x0, t.surf.win.x1, t.surf.win.y0, t.surf.win.total)) =
      some (0, 3, 1, 4) := by decide
/-- Clipping keeps the image in place: the left column is cut off. -/
theorem test_drawimg :
    after (exec .drawimg { ops (-1) 0 2 1 0 w0 with mem := [(0, 0xA1), (1, 0xA0), (2, 0xB1), (3, 0xB0)] })
      (fun t => (logical t.wire).drop 11) = some [(true, 0xB0), (true, 0xB1)] := by decide
theorem test_fillrect :
    after (exec .fillrect (ops 3 2 5 5 0x1F800 w0)) (fun t => (logical t.wire).drop 11) = some [(true, 0xF8), (true, 0x00)] := by
  decide
theorem test_setrot :
    after (exec (.setrot 1) w0) (fun t => (t.wire.take 6, t.surf.width, t.surf.win.total)) =
      some ([.sel, .byte false 0x36, .desel, .sel, .byte true 0xA1, .desel], 3, 12) := by decide
theorem test_pushpix :
    after (exec .pushpix (ops 0 1 0 0 0 (armed w0))) (fun t => (t.surf.win.remaining, t.surf.win.armed)) = some (11, true) := by
  decide
theorem test_clear :
    after (exec .clear (ops 0 0 0 0 7 w0)) (fun t => ((logical t.wire).length, t.surf.win.armed)) = some (35, false) := by decide
theorem test_surfinit : after (exec .surfinit w0) (fun t => (t.wire, t.te.dc)) = some ([.sel, .byte false 0x11, .desel], false) := by
  decide
/-- Scale 1.5 (0x18000): 0, 0, 1, 2, 2, 3 (spec/41_scale_map.md). -/
theorem test_buildmaps :
    after (exec .buildmaps (ops 160 144 6 1 0x18000 w0)) (·.rsm.xmap) = some [0, 0, 1, 2, 2, 3] := by decide
theorem test_resample :
    after (exec .resample { ops 0 8 0 0 0 w0 with
      mem := [(0, 0x11), (2, 0x22)]
      rsm := { valid := true, sw := 2, sh := 1, dw := 3, dh := 1, xmap := [0, 0, 1], ymap := [0] } }) (·.mem) =
      some [(0, 0x11), (2, 0x22), (8, 0x11), (10, 0x11), (12, 0x22)] := by decide
/-- Two pixels 0x8410 between white and black give light, then dark (R190's example). -/
theorem test_dithfs :
    after (exec .dithfs { ops 0 2 1 0 0 w0 with
      mem := [(0, 0x10), (1, 0x84), (2, 0x10), (3, 0x84)], port := { (ops 0 2 1 0 0 w0).port with toneL := 0xFFFF } }) (·.mem) =
      some [(0, 0xFF), (1, 0xFF)] := by decide
/-- The two inner palette colours at (0, 0) and (1, 0): 0 < 21 is dark, 32 ≥ 21 light (R162 to R164). -/
theorem test_dithb :
    after (exec .dithb { ops 0 2 1 0 0 w0 with
      mem := [(0, 0x55), (1, 0xAD), (2, 0x55), (3, 0xAD)]
      port := { (ops 0 2 1 0 0 w0).port with
        toneL := 0xFFFF, pal := { p0 := 0xFFFF, p1 := 0xAD55, p2 := 0x52AA, p3 := 0 } } }) (·.mem) =
      some [(2, 0xFF), (3, 0xFF)] := by decide

/-- A faulting command, and the register it leaves: NOT_PALETTE of DITHB is 0x500A (R341). -/
theorem test_dithb_not_palette :
    after (exec .dithb { ops 0 1 1 0 0 w0 with mem := [(0, 0x55)] }) (fun t => (t.port.fault, t.mem)) =
      some (0x500A, [(0, 0x55)]) := by decide

/-- The frame loop maps a sample of index 1 with the host's own palette, the registers being zero (R317, R387). -/
theorem test_capture_uses_the_hosts_palette :
    after (step (loops (.first 0x20000000) [] w0)) (·.mem) = some [(0, 0x55), (1, 0xAD)] := by decide

/-! ## The hypotheses of the statements can be met -/

/-- The invariants hold in `busy`, with a transfer in flight. -/
theorem busy_engineInv : EngineInv busy := by
  constructor
  all_goals first | decide | skip
  · intro r hr
    obtain rfl : r = { seq := 1, len := 4, pos := 0 } := (Option.some.inj hr).symm
    exact ⟨by decide, by decide, by decide, by decide, by decide, by decide⟩

theorem busy_busInv : BusInv busy := ⟨.opened, by decide, by decide, by decide⟩

theorem busy_flightInv : FlightInv busy := by
  intro r hr
  obtain rfl : r = { seq := 1, len := 4, pos := 0 } := (Option.some.inj hr).symm
  exact ⟨[], by decide⟩

theorem ended_engineInv : EngineInv ended := by
  constructor
  all_goals first | decide | skip
  · intro r hr
    cases hr

theorem witness_DecodeInvertsEncode : decode 0x23000003 = .command (.setrot 3) := by decide

/-- One word for each clause of R105, at a boundary, and two legal ones. -/
theorem witness_IllegalWordsRaiseIllegalCmd :
    w0.port.faulted = false ∧ illegalWord .windowedRam 0x18000000 ∧ illegalWord .windowedRam 0x12800000 ∧
      illegalWord .windowedRam 0x10000100 ∧ illegalWord .windowedRam 0x23000004 ∧ illegalWord .pagedMono 0x20000000 ∧
      illegalWord .pagedMono 0x23000001 ∧ ¬illegalWord .windowedRam 0x23000003 ∧ ¬illegalWord .pagedMono 0x23000000 := by
  refine ⟨rfl, ?_, ?_, ?_, ?_, ?_, ?_, ?_, ?_⟩ <;> unfold illegalWord wordOp wordImm opsC0 <;> decide

theorem witness_StepRunsTheDecodedCommand :
    hostNext (does (.wr 0 0x15000000) busy) (.wr 0 0x15000000) ∧ busy.port.faulted = false ∧
      decode 0x15000000 = .command .abort := ⟨⟨rfl, rfl, rfl⟩, rfl, by decide⟩

theorem witness_FirstFaultLatches : (faulted w0).port.faulted = true ∧ w0.port.faulted = false := ⟨rfl, rfl⟩

theorem witness_FaultingCommandChangesOnlyFault :
    w0.port.faulted = false ∧ ∃ t, exec .resample w0 = .next t ∧ t.port.faulted = true := ⟨rfl, _, rfl, by decide⟩

theorem witness_FaultIsStickyUntilReset :
    hostNext (does (.wr 0 0x15000000) (faulted busy)) (.wr 0 0x15000000) ∧ (faulted busy).port.faulted = true ∧
      nextEvent (turn .dma (faulted busy)) ≠ .reset ∧ (∃ t, step (turn .dma (faulted busy)) = .next t) ∧
      FaultInv (turn .dma (faulted busy)) :=
  ⟨⟨rfl, rfl, rfl⟩, rfl, by decide, ⟨_, rfl⟩, ⟨by decide, fun _ => ⟨0x10, .illegalCmd, by decide⟩⟩⟩

theorem witness_OperationsLeaveHostRegisters : ∃ t, exec .abort busy = .next t := ⟨_, rfl⟩

theorem witness_CommandsKeepToTheirUnits :
    (∃ t, exec .abort busy = .next t) ∧ Instr.abort ∉ [Instr.resample, .dithb, .dithfs] ∧ Instr.abort ≠ .buildmaps ∧
      (∃ t, exec .dithfs w0 = .next t) ∧ Instr.dithfs ∈ [Instr.buildmaps, .resample, .dithb, .dithfs] :=
  ⟨⟨_, rfl⟩, by decide, by decide, ⟨_, rfl⟩, by decide⟩

theorem witness_WireOnlyGrows : nextEvent (turn .dma busy) ≠ .reset ∧ ∃ t, step (turn .dma busy) = .next t := ⟨by decide, _, rfl⟩

theorem witness_ByteCommandsSendOneFrame : w0.te.st = .idle ∧ busy.te.st ≠ .idle ∧ busy.port.faulted = false := by decide

/-- The last byte of MEM, and one byte too many. -/
theorem witness_WrbulkSendsTheBytes :
    (ops 63 1 0 0 0 w0).port.a.a0.toNat + (ops 63 1 0 0 0 w0).port.a.a1.toNat ≤ w0.params.memBytes ∧ w0.te.st = .idle ∧
      (ops 63 2 0 0 0 w0).port.faulted = false ∧
      w0.params.memBytes < (ops 63 2 0 0 0 w0).port.a.a0.toNat + (ops 63 2 0 0 0 w0).port.a.a1.toNat ∧ busy.te.st ≠ .idle := by
  decide

/-- As many pixels as the scratch buffer takes, at the end of MEM; and each fault. -/
theorem witness_WrbulkaArmsOrSends :
    (2 * (ops 60 2 0 0 0 w0).port.a.a1.toNat ≤ w0.params.scratchBytes ∧ runInMem (ops 60 2 0 0 0 w0) ∧
      (ops 60 2 0 0 0 w0).te.st ≠ .dmaBusy ∧ (ops 60 2 0 0 0 w0).port.a.a1 ≠ 0 ∧ w0.te.dmaOk = false ∧
      (withDma w0).te.dmaOk = true) ∧
    (runInMem (ops 64 0 0 0 0 w0) ∧ (ops 64 0 0 0 0 w0).port.a.a1 = 0) ∧ w0.port.faulted = false ∧
    w0.params.scratchBytes < 2 * (ops 0 3 0 0 0 w0).port.a.a1.toNat ∧
    (ops 1 2 0 0 0 w0).port.a.a0.toNat % 2 = 1 ∧
    w0.params.memBytes < (ops 62 2 0 0 0 w0).port.a.a0.toNat + 2 * (ops 62 2 0 0 0 w0).port.a.a1.toNat := by
  unfold runInMem
  decide

theorem witness_WrbulkaHoldsThenSends :
    (2 * (ops 60 2 0 0 0 busy).port.a.a1.toNat ≤ busy.params.scratchBytes ∧ runInMem (ops 60 2 0 0 0 busy) ∧
      busy.te.st = .dmaBusy) ∧
    (nextEvent (blocked (.bulkHold [1]) busy) = .host ∧ (blocked (.bulkHold [1]) busy).pending = some (.bulkHold [1]) ∧
      (blocked (.bulkHold [1]) busy).te.st = .dmaBusy) ∧
    (blocked (.bulkHold [1]) w0).te.st ≠ .dmaBusy ∧ (blocked (.bulkHold []) w0).pending = some (.bulkHold []) := by
  unfold runInMem
  decide

/-- A wait of 5 ms that has not run out, and one that just has, across the wrap of the clock. -/
theorem witness_WaitFollowsItsLoop :
    w0.te.st ≠ .dmaBusy ∧ busy.te.st = .dmaBusy ∧
      (blocked (.wait 5 (.poll 0xFFFFFFFC)) busy).pending = some (.wait 5 (.poll 0xFFFFFFFC)) ∧
      nextEvent (blocked (.wait 5 (.poll 0xFFFFFFFC)) busy) = .host ∧
      (busy.te.nowMs.toNat + 2 ^ 32 - (0xFFFFFFFC#32).toNat) % 2 ^ 32 < 5 ∧
      5 ≤ (busy.te.nowMs.toNat + 2 ^ 32 - (0xFFFFFFFB#32).toNat) % 2 ^ 32 ∧
      (blocked (.wait 5 .abort) busy).pending = some (.wait 5 .abort) := by decide

theorem witness_AbortEndsTheTransfer : busy.te.st = .dmaBusy ∧ w0.te.st ≠ .dmaBusy := by decide

theorem witness_TeinitClaimsTheChannel : (withDma w0).te.inited = true ∧ w0.te.inited = false := by decide

theorem witness_TefreeReleasesTheChannel :
    busy.te.inited = true ∧ w0.te.inited = false ∧ busy.te.st = .dmaBusy ∧ w0.te.st ≠ .dmaBusy := by decide

/-- The last byte, and the finish. -/
theorem witness_DmaShiftsThenFinishes :
    nextEvent (turn .dma w0) = .dma ∧ (turn .dma w0).te.dma = none ∧
      (∃ r, busy.te.dma = some r ∧ r.pos < r.len) ∧
      ∃ r, { busy.te with dma := some { seq := 1, len := 4, pos := 4 } }.dma = some r ∧ r.len ≤ r.pos :=
  ⟨rfl, rfl, ⟨_, rfl, by decide⟩, _, rfl, by decide⟩

theorem witness_NotificationEndsItsTransferOnly :
    nextEvent (turn (.notify 0) ended) = .notify 0 ∧ ended.te.notePending[0]? = some 1 ∧ ended.te.st = .dmaBusy ∧
      ended.te.xferSeq = 1 ∧ ended.te.notePending[1]? = none ∧
      { ended.te with notePending := [0] }.notePending[0]? = some 0 ∧ ended.te.xferSeq ≠ 0 := by decide

theorem witness_ClockTicksAndSourceSupplies :
    nextEvent (turn .clock w0) = .clock ∧ nextEvent (turn (.source 7) w0) = .source 7 := by decide

/-- The host arms a transfer by WRBULKA of one pixel. -/
theorem witness_TransfersAreArmedOnlyWhenFree :
    EngineInv (does (.wr 0 0x13000000) (ops 0 1 0 0 0 (withDma w0))) ∧
      nextEvent (does (.wr 0 0x13000000) (ops 0 1 0 0 0 (withDma w0))) ≠ .reset ∧
      ∃ t, step (does (.wr 0 0x13000000) (ops 0 1 0 0 0 (withDma w0))) = .next t ∧ t.te.xferSeq ≠ 0 := by
  refine ⟨?_, by decide, _, rfl, by decide⟩
  constructor
  all_goals first | decide | skip
  · intro r hr
    cases hr

theorem witness_BusyEndsOnlyByDeliveryOrAbort :
    busy.te.st = .dmaBusy ∧
      (∃ t, step (does (.wr 0 0x15000000) busy) = .next t ∧ t.te.st ≠ .dmaBusy) ∧
      (∃ t, step (turn (.notify 0) ended) = .next t ∧ t.te.st ≠ .dmaBusy) ∧
      ∃ t, step (blocked (.wait 5 .abort) busy) = .next t ∧ t.te.st ≠ .dmaBusy :=
  ⟨rfl, ⟨_, rfl, by decide⟩, ⟨_, rfl, by decide⟩, _, rfl, by decide⟩

theorem witness_EngineInvariantKept : EngineInv busy ∧ ∃ t, step (turn .dma busy) = .next t := ⟨busy_engineInv, _, rfl⟩

theorem witness_FlightBytesInvariantKept :
    EngineInv busy ∧ FlightInv busy ∧ ∃ t, step (turn .dma busy) = .next t := ⟨busy_engineInv, busy_flightInv, _, rfl⟩

theorem witness_BusDisciplineKept :
    EngineInv busy ∧ BusInv busy ∧ ∃ t, step (turn .dma busy) = .next t := ⟨busy_engineInv, busy_busInv, _, rfl⟩

theorem witness_ResetGivesTheTableOfValues : nextEvent (turn .reset busy) = .reset := by decide

theorem witness_ResetIsSafe :
    winBuild.wf = true ∧ Memory.wf [(3, 7), (63, 1)] = true ∧ memInside winBuild.memBytes [(3, 7), (63, 1)] = true := by decide

/-- A rectangle of which one pixel is visible, at the far corner. -/
theorem witness_ClipIsTheVisiblePart :
    clipRect 4 3 3 2 9 9 = some { x0 := 3, y0 := 2, x1 := 3, y1 := 2 } ∧ clipRect 4 3 4 0 1 1 = none := by decide

theorem witness_GeometryErrorsAreSilent : visible (ops 4 0 1 1 0 w0) = none := by decide

/-- The last pixel of the panel; an inverted window; one outside; an engine busy; a burst partly written. -/
theorem witness_SetwinArmsTheVisibleWindow :
    p0.params.variant = .pagedMono ∧ p0.port.faulted = false ∧ w0.params.variant = .windowedRam ∧
      (ops 1 0 0 0 0 w0).port.a.a2.toInt < (ops 1 0 0 0 0 w0).port.a.a0.toInt ∧
      clipRect 4 3 (ops 4 0 4 0 0 w0).port.a.a0.toInt 0 1 1 = none ∧
      clipRect 4 3 (ops 3 2 9 9 0 w0).port.a.a0.toInt (ops 3 2 9 9 0 w0).port.a.a1.toInt 7 8 =
        some { x0 := 3, y0 := 2, x1 := 3, y1 := 2 } ∧
      surfaceReady w0 ∧ busy.te.st ≠ .idle ∧ (partly w0).te.st = .idle ∧ winPartly (partly w0).surf.win = true := by
  unfold surfaceReady
  decide

theorem witness_FillSendsEveryPixel :
    w0.params.variant = .windowedRam ∧ w0.te.dmaOk = false ∧ 1 ≤ w0.params.chunkPix ∧ surfaceReady w0 ∧
      visible (ops 3 2 5 5 0 w0) = some { x0 := 3, y0 := 2, x1 := 3, y1 := 2 } ∧ 1 ≤ w0.surf.width.toNat ∧
      1 ≤ w0.surf.height.toNat := by
  unfold surfaceReady
  decide

/-- An image that ends where MEM ends. -/
theorem witness_DrawimgSendsTheVisiblePixels :
    w0.params.variant = .windowedRam ∧ w0.te.dmaOk = false ∧ 1 ≤ w0.params.chunkPix ∧ surfaceReady (ops (-1) 0 2 1 60 w0) ∧
      visible (ops (-1) 0 2 1 60 w0) = some { x0 := 0, y0 := 0, x1 := 0, y1 := 0 } ∧ imageInMem (ops (-1) 0 2 1 60 w0) := by
  unfold surfaceReady imageInMem
  decide

/-- A run as long as the window still takes. -/
theorem witness_PushpixSendsIntoTheWindow :
    (armed w0).params.variant = .windowedRam ∧ (armed w0).te.dmaOk = false ∧ 1 ≤ (armed w0).params.chunkPix ∧
      (armed w0).te.st = .idle ∧ runInMem (ops 40 12 0 0 0 (armed w0)) ∧ (armed w0).surf.win.armed = true ∧
      (ops 40 12 0 0 0 (armed w0)).port.a.a1.toNat ≤ (armed w0).surf.win.remaining.toNat := by
  unfold runInMem
  decide

theorem witness_WindowedFaultsInOrder :
    w0.params.variant = .windowedRam ∧ w0.port.faulted = false ∧ visible (ops 0 0 2 1 61 w0) ≠ none ∧
      (ops 0 0 2 1 61 w0).port.a.a4.toNat % 2 = 1 ∧ ¬imageInMem (ops 0 0 2 1 62 w0) ∧ visible (ops 0 0 2 1 62 w0) ≠ none ∧
      imageInMem (ops 0 0 2 1 60 busy) ∧ busy.te.st ≠ .idle ∧
      imageInMem (ops 0 0 2 1 60 (partly w0)) ∧ winPartly (partly w0).surf.win = true ∧ 1 ≤ w0.surf.width.toNat ∧
      1 ≤ w0.surf.height.toNat ∧ (ops 1 0 0 0 0 w0).port.a.a0.toNat % 2 = 1 ∧ ¬runInMem (ops 62 2 0 0 0 w0) ∧
      runInMem (ops 62 1 0 0 0 w0) ∧ w0.surf.win.armed = false ∧ runInMem (ops 0 12 0 0 0 (partly w0)) ∧
      (partly w0).surf.win.remaining.toNat < (ops 0 12 0 0 0 (partly w0)).port.a.a1.toNat := by
  unfold imageInMem runInMem
  decide

theorem witness_DrawingArmsTheFirstChunk :
    (w0.params.variant = .windowedRam ∧ (withDma w0).te.dmaOk = true ∧ 1 ≤ w0.params.chunkPix ∧
      surfaceReady (withDma w0) ∧ (withDma w0).pending = none ∧
      visible (ops 0 0 2 1 60 (withDma w0)) = some { x0 := 0, y0 := 0, x1 := 1, y1 := 0 } ∧
      imageInMem (ops 0 0 2 1 60 (withDma w0)) ∧ 1 ≤ w0.surf.width.toNat ∧ 1 ≤ w0.surf.height.toNat) ∧
    runInMem (ops 40 12 0 0 0 (armed (withDma w0))) ∧ (armed (withDma w0)).surf.win.armed = true ∧
    (armed (withDma w0)).te.st = .idle ∧
    (ops 40 12 0 0 0 (armed (withDma w0))).port.a.a1.toNat ≤ (armed (withDma w0)).surf.win.remaining.toNat ∧
    (ops 40 12 0 0 0 (armed (withDma w0))).port.a.a1 ≠ 0 ∧ (ops 40 0 0 0 0 (armed (withDma w0))).port.a.a1 = 0 := by
  unfold surfaceReady imageInMem runInMem
  decide

/-- Chunk 1 of 2 in flight; ended with pixels left; ended with none left; timed out. -/
theorem witness_BurstGoesOnChunkByChunk :
    (nextEvent (blocked (.burst (.solid 7) 3 0 2 .start) busy) = .host ∧
      (blocked (.burst (.solid 7) 3 0 2 .start) busy).pending = some (.burst (.solid 7) 3 0 2 .start) ∧ busy.te.st = .dmaBusy) ∧
    (withDma w0).te.st ≠ .dmaBusy ∧ (withDma w0).te.dmaOk = true ∧ 1 ≤ w0.params.chunkPix ∧ 0 + 2 < 3 ∧ 3 ≤ 2 + 1 ∧
    (blocked (.burst (.solid 7) 3 0 2 .abort) busy).pending = some (.burst (.solid 7) 3 0 2 .abort) ∧
    (blocked (.burst (.solid 7) 3 0 2 .abort) w0).te.st ≠ .dmaBusy := by decide

/-- A burst of two pixels of one colour, its only chunk in flight. -/
def bursting : State := { armTransfer [0x1234, 0x1234] (withDma w0) with pending := some (.burst (.solid 0x1234) 2 0 2 .start) }

theorem witness_BurstStreamKept :
    EngineInv bursting ∧ BurstStream [] bursting ∧ bursting.pending = some (.burst (.solid 0x1234) 2 0 2 .start) ∧
      1 ≤ bursting.params.chunkPix ∧ nextEvent (turn .dma bursting) ≠ .reset ∧ ∃ t, step (turn .dma bursting) = .next t := by
  refine ⟨?_, ⟨.solid 0x1234, 2, 0, 2, .start, rfl, by decide, by decide, by decide, .inl ⟨_, rfl, by decide⟩⟩, rfl, by decide,
    by decide, _, rfl⟩
  constructor
  all_goals first | decide | skip
  · intro r hr
    obtain rfl : r = { seq := 1, len := 4, pos := 0 } := (Option.some.inj hr).symm
    exact ⟨by decide, by decide, by decide, by decide, by decide, by decide⟩

theorem witness_SetrotSetsTheRotation :
    w0.params.variant = .windowedRam ∧ surfaceReady w0 ∧
      [w0.params.orient.r0, w0.params.orient.r1, w0.params.orient.r2, w0.params.orient.r3][(3#2).toNat]? = some 0xA3 ∧
      (2#2).toNat % 2 = w0.surf.rotation.toNat % 2 ∧ (3#2).toNat % 2 ≠ w0.surf.rotation.toNat % 2 ∧
      1 ≤ w0.surf.width.toNat ∧ 1 ≤ w0.surf.height.toNat ∧ w0.port.faulted = false ∧ busy.te.st ≠ .idle ∧
      winPartly (partly w0).surf.win = true ∧ p0.params.variant = .pagedMono := by
  unfold surfaceReady
  decide

theorem witness_SurfinitSendsTheTable :
    w0.te.st = .idle ∧ w0.te.cs = false ∧ busy.te.st ≠ .idle ∧ busy.port.faulted = false := by decide

/-- A burst in progress into an armed window. -/
theorem witness_SurfaceInvariantKept :
    SurfaceInv { partly w0 with pending := some (.burst (.solid 7) 12 0 1 .start) } ∧
      ∃ t, step (blocked (.burst (.solid 7) 12 0 1 .start) (partly w0)) = .next t :=
  ⟨⟨by decide, by unfold GeometryInv; decide, by unfold WindowInv; decide, by unfold BurstInv; decide⟩, _, rfl⟩

theorem witness_PageByteHoldsEightRows : (7 : Nat) < 8 := by decide

theorem witness_MagnificationNeverSkips : 65536 ≤ 65536 ∧ 1 ≤ 1 := by decide

theorem witness_PagedDrawingSendsPageRows :
    p0.params.variant = .pagedMono ∧ p0.te.st = .idle ∧
      visible (ops 3 14 1 4 60 p0) = some { x0 := 3, y0 := 14, x1 := 3, y1 := 15 } ∧ imageInMem (ops 3 14 1 2 60 p0) ∧
      8 ≤ p0.params.nativeH.toNat := by
  unfold imageInMem
  decide

theorem witness_PagedFaultsInOrder :
    p0.params.variant = .pagedMono ∧ p0.port.faulted = false ∧ visible (ops 0 0 1 2 61 p0) ≠ none ∧
      (ops 0 0 1 2 61 p0).port.a.a4.toNat % 2 = 1 ∧ ¬imageInMem (ops 0 0 1 2 62 p0) ∧ imageInMem (ops 0 0 1 2 60 p0) ∧
      (armTransfer [1] p0).te.st ≠ .idle := by
  unfold imageInMem
  decide

/-- The largest admitted sizes, and each fault at its boundary. -/
theorem witness_BuildmapsBuildsBothMaps :
    (ops 65535 1 8 0 1 w0).port.a.a0 ≠ 0 ∧ (ops 65535 1 8 0 1 w0).port.a.a0.toNat ≤ 65535 ∧
      (ops 65535 1 8 0 1 w0).port.a.a2.toNat ≤ w0.params.mapMax.toNat ∧ (ops 65535 1 8 0 1 w0).port.a.a4 ≠ 0 ∧
      w0.port.faulted = false ∧ 65535 < (ops 65536 1 8 0 1 w0).port.a.a0.toNat ∧ (ops 0 1 8 0 1 w0).port.a.a0 = 0 ∧
      w0.params.mapMax.toNat < (ops 1 1 9 0 1 w0).port.a.a2.toNat ∧ (ops 1 1 8 0 0 w0).port.a.a4 = 0 := by decide

/-- Maps of two source pixels to three. -/
def mapped : State :=
  { w0 with rsm := { valid := true, sw := 2, sh := 1, dw := 3, dh := 1, xmap := [0, 0, 1], ymap := [0] } }

theorem mapped_mapInv : MapInv mapped := by
  refine fun _ => ⟨⟨by decide, by decide, fun d hd => ?_⟩, ⟨by decide, by decide, fun d hd => ?_⟩, by decide, by decide⟩
  · have : d + 1 < 3 := hd
    have : d = 0 ∨ d = 1 := by omega
    rcases this with rfl | rfl <;> decide
  · have : d + 1 < 1 := hd
    omega

theorem witness_MapInvariantKept : MapInv mapped ∧ ∃ t, step (turn .clock mapped) = .next t := ⟨mapped_mapInv, _, rfl⟩

/-- Source and destination end to end at the end of MEM. -/
theorem witness_ResampleCopiesTheSelectedPixels :
    MemInv mapped ∧ MapInv mapped ∧ mapped.rsm.valid = true ∧ (54 : Nat) % 2 = 0 ∧
      54 + 2 * mapped.rsm.sw.toNat * mapped.rsm.sh.toNat ≤ mapped.params.memBytes ∧
      58 + 2 * mapped.rsm.dw.toNat * mapped.rsm.dh.toNat ≤ mapped.params.memBytes ∧
      ∀ b, 54 ≤ b → b < 54 + 2 * mapped.rsm.sw.toNat * mapped.rsm.sh.toNat →
        ¬(58 ≤ b ∧ b < 58 + 2 * mapped.rsm.dw.toNat * mapped.rsm.dh.toNat) := by
  refine ⟨⟨by decide, by decide⟩, mapped_mapInv, by decide, by decide, by decide, by decide, ?_⟩
  intro b _ h
  have e : 54 + 2 * mapped.rsm.sw.toNat * mapped.rsm.sh.toNat = 58 := by decide
  omega

/-- No maps; an odd source; a source past the end; an odd destination; an overlap of one byte pair. -/
theorem witness_ResampleFaultsInOrder :
    w0.rsm.valid = false ∧ mapped.rsm.valid = true ∧ mapped.port.faulted = false ∧
      (ops 1 8 0 0 0 mapped).port.a.a0.toNat % 2 = 1 ∧ mapped.params.memBytes < 62 + 2 * mapped.rsm.sw.toNat * mapped.rsm.sh.toNat ∧
      (ops 0 9 0 0 0 mapped).port.a.a1.toNat % 2 = 1 ∧
      mapped.params.memBytes < 60 + 2 * mapped.rsm.dw.toNat * mapped.rsm.dh.toNat ∧
      ∃ b, 0 ≤ b ∧ b < 0 + 2 * mapped.rsm.sw.toNat * mapped.rsm.sh.toNat ∧ 2 ≤ b ∧
        b < 2 + 2 * mapped.rsm.dw.toNat * mapped.rsm.dh.toNat := by
  refine ⟨by decide, by decide, by decide, by decide, by decide, by decide, by decide, 2, by decide, by decide, by decide, by decide⟩

theorem witness_DithbMapsEveryPixel :
    MemInv w0 ∧ 60 % 2 = 0 ∧ 60 + 2 * 2 * 1 ≤ w0.params.memBytes ∧ 65535 ≤ 65535 ∧
      ∀ x y, x < 2 → y < 1 → memReadPix w0.mem (60 + 2 * (y * 2 + x)) ∈
        [w0.port.pal.p0, w0.port.pal.p1, w0.port.pal.p2, w0.port.pal.p3] :=
  ⟨⟨by decide, by decide⟩, by decide, by decide, by decide, fun _ _ _ _ => by simp [w0, fresh, State.resetWith, memReadPix, memRead,
    memUnlisted, Port.atReset]⟩

theorem witness_DitherFaultsInOrder :
    w0.port.faulted = false ∧ 65535 < (ops 0 65536 1 0 0 w0).port.a.a1.toNat ∧ (ops 1 1 1 0 0 w0).port.a.a0.toNat % 2 = 1 ∧
      w0.params.memBytes < 60 + 2 * 3 * 1 ∧
      memReadPix [(60, 1)] (60 + 2 * (0 * 1 + 0)) ∉ [w0.port.pal.p0, w0.port.pal.p1, w0.port.pal.p2, w0.port.pal.p3] := by decide

theorem witness_DithfsIsErrorDiffusion : MemInv w0 ∧ 60 % 2 = 0 ∧ 60 + 2 * 1 * 2 ≤ w0.params.memBytes :=
  ⟨⟨by decide, by decide⟩, by decide, by decide⟩

/-- Black pixels between a white and a black tone. -/
theorem witness_DithfsPreservesExtremes :
    MemInv w0 ∧ w0.params.fsShare = .default ∧ luma winBuild 0 < luma winBuild 0xFFFF ∧
      (∀ x y, x < 2 → y < 1 → luma winBuild 0 ≤ luma winBuild (memReadPix w0.mem (60 + 2 * (y * 2 + x))) ∧
        luma winBuild (memReadPix w0.mem (60 + 2 * (y * 2 + x))) ≤ luma winBuild 0xFFFF) ∧
      ∃ t, exec .dithfs (ops 60 2 1 0 0 w0) = .next t := by
  refine ⟨⟨by decide, by decide⟩, by decide, by decide, fun x y _ _ => ?_, _, rfl⟩
  have e : memReadPix w0.mem (60 + 2 * (y * 2 + x)) = 0 := by
    simp [w0, fresh, State.resetWith, memReadPix, memRead, memUnlisted]
  rw [e]
  decide

theorem witness_RegisterWritesReadBack : hostNext (does (.wr 8 7) w0) (.wr 8 7) ∧ (8 : BitVec 6) ≠ 0 := ⟨⟨rfl, rfl, rfl⟩, by decide⟩

theorem witness_RegisterReadsShowTheState :
    hostNext (does (.rd 2) busy) (.rd 2) ∧
      (busy.te.st, 3) ∈ [(TeState.idle, 0), (.selectedCommand, 1), (.selectedData, 2), (.dmaBusy, 3), (.aborted, 4)] :=
  ⟨⟨rfl, rfl, rfl⟩, by decide⟩

/-- The last byte and the last pixel of MEM, and the first address past them. -/
theorem witness_HostAccessesMem :
    MemInv (does (.st8 63 7) w0) ∧ hostNext (does (.st8 63 7) w0) (.st8 63 7) ∧ 63 < w0.params.memBytes ∧
      hostNext (does (.ld8 64) w0) (.ld8 64) ∧ w0.params.memBytes ≤ 64 ∧ hostNext (does (.st16 62 7) w0) (.st16 62 7) ∧
      62 + 1 < w0.params.memBytes ∧ hostNext (does (.ld16 63) w0) (.ld16 63) ∧ 63 % 2 = 1 :=
  ⟨⟨by decide, by decide⟩, ⟨rfl, rfl, rfl⟩, by decide, ⟨rfl, rfl, rfl⟩, by decide, ⟨rfl, rfl, rfl⟩, by decide, ⟨rfl, rfl, rfl⟩,
    by decide⟩

theorem witness_MemInvariantKept : MemInv (does (.st8 63 7) w0) ∧ ∃ t, step (does (.st8 63 7) w0) = .next t :=
  ⟨⟨by decide, by decide⟩, _, rfl⟩

theorem witness_FrameLoopWaitsForTheEdge :
    loopNext (loops .poll [] w0) { cfg := cfg, phase := .poll } ∧
      loopNext (loops .poll [0x80000000] w0) { cfg := cfg, phase := .poll } := ⟨⟨rfl, rfl, rfl, rfl⟩, ⟨rfl, rfl, rfl, rfl⟩⟩

theorem witness_FrameLoopCapturesThePixels :
    MemInv w0 ∧ loopNext (loops (.first 0x60000000) [] w0) { cfg := cfg, phase := .first 0x60000000 } ∧
      cfg.src.toNat % 2 = 0 ∧ cfg.src.toNat + 2 * 31 + 1 < w0.params.memBytes ∧
      loopNext (loops (.capture 31) [0x20000000] w0) { cfg := cfg, phase := .capture 31 } ∧
      loopNext (loops (.capture 23040) [] w0) { cfg := cfg, phase := .capture 23040 } ∧
      loopNext { loops .resample [] w0 with port := { w0.port with pal := cfg.pal } } { cfg := cfg, phase := .resample } ∧
      PalettesAgree { loops .resample [] w0 with port := { w0.port with pal := cfg.pal } } :=
  ⟨⟨by decide, by decide⟩, ⟨rfl, rfl, rfl, rfl⟩, by decide, by decide, ⟨rfl, rfl, rfl, rfl⟩, ⟨rfl, rfl, rfl, rfl⟩,
    ⟨rfl, rfl, rfl, rfl⟩, fun _ h => by cases h; rfl⟩

theorem witness_FrameLoopIssuesItsCommands :
    loopNext (loops (.clear 0) [] w0) { cfg := cfg, phase := .clear 0 } ∧ w0.host.firstDone = false ∧
      loopNext (loops .resample [] w0) { cfg := cfg, phase := .resample } ∧
      loopNext (loops .dither [] w0) { cfg := cfg, phase := .dither } ∧
      loopNext (loops .draw [] w0) { cfg := cfg, phase := .draw } ∧
      loopNext (loops .finish [] w0) { cfg := cfg, phase := .finish } :=
  ⟨⟨rfl, rfl, rfl, rfl⟩, rfl, ⟨rfl, rfl, rfl, rfl⟩, ⟨rfl, rfl, rfl, rfl⟩, ⟨rfl, rfl, rfl, rfl⟩, ⟨rfl, rfl, rfl, rfl⟩⟩

end Sys2Proof.Tests
end

/-! # The scope of the block: reset, clipping, and what operations leave to the host -/

namespace Sys2Proof.Machine

/-! ## The state after reset (R60) meets each invariant -/

/-- R262: in an admitted build a chunk fits the scratch buffer. -/
theorem chunk_fits_of_wf {p : Params} (hp : p.wf = true) : 2 * p.chunkPix ≤ p.scratchBytes := by
  simp only [Params.wf, Params.chunkFits, Bool.and_eq_true, decide_eq_true_eq] at hp
  obtain ⟨⟨⟨⟨⟨-, -, hchunk⟩, -⟩, -⟩, -⟩, -⟩ := hp
  exact hchunk

theorem resetWith_engineInv {p : Params} (hchunk : 2 * p.chunkPix ≤ p.scratchBytes) (u : Unspec) :
    EngineInv (State.resetWith p u) where
  resting := .inl rfl
  idle _ := ⟨rfl, rfl⟩
  busy h := nomatch h
  ended h := nomatch h
  inFlight _ h := nomatch h
  notes _ h := nomatch h
  noteSet := List.nodup_nil
  claimed h := nomatch h
  scratch := fitScratch_length _ _
  chunk := hchunk

theorem resetWith_busInv (p : Params) (u : Unspec) : BusInv (State.resetWith p u) :=
  ⟨.closed, rfl, iff_of_true rfl rfl, fun h => nomatch h⟩

theorem resetWith_surfaceInv {p : Params} (hp : p.wf = true) (u : Unspec) : SurfaceInv (State.resetWith p u) where
  params := hp
  geometry := ⟨rfl, fun _ => rfl⟩
  window h := nomatch h
  burst := trivial

theorem resetWith_mapInv (p : Params) (u : Unspec) : MapInv (State.resetWith p u) := fun h => nomatch h

theorem resetWith_faultInv (p : Params) (u : Unspec) : FaultInv (State.resetWith p u) :=
  ⟨fun _ => rfl, fun h => nomatch h⟩

theorem resetWith_flightInv (p : Params) (u : Unspec) : FlightInv (State.resetWith p u) := fun _ h => nomatch h

/-! ## Clipping (R251), one axis at a time -/

/-- The visible part of an axis, as an interval: the places of `0 .. len - 1` that lie in `lo .. lo + n - 1`. -/
theorem axis_visible_iff (len : Nat) (lo n : Int) (i : Nat) :
    (max lo 0 ≤ (i : Int) ∧ (i : Int) ≤ min (lo + n - 1) ((len : Int) - 1)) ↔
      (i < len ∧ lo ≤ i ∧ (i : Int) < lo + n) := by
  omega

/-- An axis shows a place exactly when that interval is not empty. -/
theorem exists_axis_visible_iff (len : Nat) (lo n : Int) :
    (∃ i : Nat, i < len ∧ lo ≤ i ∧ (i : Int) < lo + n) ↔ max lo 0 ≤ min (lo + n - 1) ((len : Int) - 1) := by
  constructor
  · rintro ⟨i, hi⟩
    obtain ⟨hlo, hhi⟩ := (axis_visible_iff len lo n i).2 hi
    exact hlo.trans hhi
  · intro hle
    have hcast : ((max lo 0).toNat : Int) = max lo 0 := Int.toNat_of_nonneg (le_max_right lo 0)
    exact ⟨(max lo 0).toNat, (axis_visible_iff len lo n _).1 ⟨hcast.ge, hcast.le.trans hle⟩⟩

/-- `ClipRect` gives nothing exactly when one of the two intervals is empty; a width or height of 0 or less makes it so. -/
theorem clipRect_eq_none_iff {width height : Nat} {x y w h : Int} :
    clipRect width height x y w h = none ↔
      ¬(max x 0 ≤ min (x + w - 1) ((width : Int) - 1) ∧ max y 0 ≤ min (y + h - 1) ((height : Int) - 1)) := by
  unfold clipRect
  dsimp only
  split
  · next hempty => exact iff_of_true rfl (by omega)
  · split
    · next hempty => exact iff_of_true rfl (by omega)
    · next hsome => exact iff_of_false (by simp) (by omega)

/-- The corners `ClipRect` gives are the ends of the two intervals. -/
theorem clipRect_corners {width height : Nat} {x y w h : Int} {c : Rect} (hc : clipRect width height x y w h = some c) :
    (c.x0 : Int) = max x 0 ∧ (c.x1 : Int) = min (x + w - 1) ((width : Int) - 1) ∧
      (c.y0 : Int) = max y 0 ∧ (c.y1 : Int) = min (y + h - 1) ((height : Int) - 1) := by
  unfold clipRect at hc
  dsimp only at hc
  split at hc
  · cases hc
  · split at hc
    · cases hc
    · obtain rfl := Option.some.inj hc
      dsimp only
      omega

/-- A clipped rectangle holds exactly the visible pixels. -/
theorem mem_clipRect_iff {width height : Nat} {x y w h : Int} {c : Rect} (hc : clipRect width height x y w h = some c)
    (col row : Nat) :
    (c.x0 ≤ col ∧ col ≤ c.x1 ∧ c.y0 ≤ row ∧ row ≤ c.y1) ↔
      (col < width ∧ row < height ∧ x ≤ col ∧ (col : Int) < x + w ∧ y ≤ row ∧ (row : Int) < y + h) := by
  obtain ⟨hx0, hx1, hy0, hy1⟩ := clipRect_corners hc
  have hcol := axis_visible_iff width x w col
  have hrow := axis_visible_iff height y h row
  rw [← hx0, ← hx1] at hcol
  rw [← hy0, ← hy1] at hrow
  omega

/-- Nothing is clipped away to `none` while a pixel is visible. -/
theorem clipRect_none_iff_no_pixel {width height : Nat} {x y w h : Int} :
    clipRect width height x y w h = none ↔
      ¬∃ col row : Nat,
        col < width ∧ row < height ∧ x ≤ col ∧ (col : Int) < x + w ∧ y ≤ row ∧ (row : Int) < y + h := by
  rw [clipRect_eq_none_iff, ← exists_axis_visible_iff, ← exists_axis_visible_iff, not_iff_not]
  constructor
  · rintro ⟨⟨col, hcol, hx, hxw⟩, row, hrow, hy, hyh⟩
    exact ⟨col, row, hcol, hrow, hx, hxw, hy, hyh⟩
  · rintro ⟨col, row, hcol, hrow, hx, hxw, hy, hyh⟩
    exact ⟨⟨col, hcol, hx, hxw⟩, row, hrow, hy, hyh⟩

/-! ## What an operation leaves to the host (R21, R34)

An operation that goes through writes nothing of the host port but `RES`; one that faults writes `FAULT` and `faulted` as well. Neither
writes the host's own state or a parameter. -/

/-- `t` has the parameters, the host and the host port of `s`, but for `RES`. -/
structure SameButRes (s t : State) : Prop where
  port : t.port = { s.port with res := t.port.res }
  host : t.host = s.host
  params : t.params = s.params

/-- `t` has the parameters and the host of `s`, and of the host port every register that only the host writes. -/
structure SameHostRegs (s t : State) : Prop where
  operands : t.port.a = s.port.a
  palette : t.port.pal = s.port.pal
  toneL : t.port.toneL = s.port.toneL
  toneD : t.port.toneD = s.port.toneD
  mapSel : t.port.mapSel = s.port.mapSel
  host : t.host = s.host
  params : t.params = s.params

theorem SameButRes.refl (s : State) : SameButRes s s := ⟨rfl, rfl, rfl⟩

theorem SameButRes.trans {s t u : State} (h : SameButRes s t) (h' : SameButRes t u) : SameButRes s u := by
  obtain ⟨hport, hhost, hparams⟩ := h
  obtain ⟨hport', hhost', hparams'⟩ := h'
  exact ⟨by rw [hport', hport], hhost'.trans hhost, hparams'.trans hparams⟩

/-- Nothing of the port is written at all. -/
theorem SameButRes.of_port_eq {s t : State} (hport : t.port = s.port) (hhost : t.host = s.host)
    (hparams : t.params = s.params) : SameButRes s t :=
  ⟨by rw [hport], hhost, hparams⟩

/-- Completing an operation writes `RES` only (R27). -/
theorem SameButRes.complete {s t : State} (h : SameButRes s t) (r : Bool) : SameButRes s (complete r t) :=
  h.trans ⟨rfl, rfl, rfl⟩

theorem SameButBurst.sameButRes {s t : State} (h : SameButBurst s t) : SameButRes s t := ⟨h.port, h.host, h.params⟩

theorem SameButRes.sameHostRegs {s t : State} (h : SameButRes s t) : SameHostRegs s t := by
  obtain ⟨hport, hhost, hparams⟩ := h
  exact ⟨by rw [hport], by rw [hport], by rw [hport], by rw [hport], by rw [hport], hhost, hparams⟩

/-- A fault writes `FAULT` and `faulted` only (R340). -/
theorem raiseFault_sameHostRegs (op : Byte) (c : FaultCode) (s : State) : SameHostRegs s (raiseFault op c s) := by
  cases hf : s.port.faulted with
  | true => rw [raiseFault_stuck hf]; exact (SameButRes.refl s).sameHostRegs
  | false => rw [raiseFault_fresh hf]; exact ⟨rfl, rfl, rfl, rfl, rfl, rfl, rfl⟩

theorem guarded_sameHostRegs {op : Byte} {tests : List (Option FaultCode)} {f : State → State} {s : State}
    (hf : SameButRes s (f s)) : SameHostRegs s (guarded op tests f s) :=
  guarded_has (fun _ => hf.sameHostRegs) fun c => raiseFault_sameHostRegs op c s

/-! ### The shared operations -/

theorem disarm_sameButRes (s : State) : SameButRes s (disarm s) := ⟨rfl, rfl, rfl⟩

theorem armWindow_sameButRes (c : Rect) (s : State) : SameButRes s (armWindow c s) := ⟨rfl, rfl, rfl⟩

theorem abortTransfer_sameButRes (s : State) : SameButRes s (abortTransfer s) :=
  .of_port_eq (abortTransfer_port s) (abortTransfer_host s) (abortTransfer_params s)

theorem bulkReturn_sameButRes (pix : List Pixel) (wasBusy : Bool) (s : State) :
    SameButRes s (bulkReturn pix wasBusy s) :=
  (bulkSend_frame pix wasBusy s).sameButRes.complete _

theorem sendPages_sameButRes (page0 n cx0 : Nat) (row : Nat → List Byte) (s : State) :
    SameButRes s (sendPages page0 n cx0 row s) := by
  rw [sendPages_frame]
  exact ⟨rfl, rfl, rfl⟩

theorem sendInit_sameButRes (items : List InitItem) (s : State) : SameButRes s (items.foldl sendInitItem s) := by
  rw [sendInit_frame]
  exact ⟨rfl, rfl, rfl⟩

/-- Arming a window and then streaming into it, as DRAWIMG, FILLRECT and CLEAR do on a windowed panel. -/
theorem drawBurst_sameButRes (c : Rect) (src : PixSrc) (total : Nat) (s : State) :
    SameButRes s (streamBurst src total (armWindow c s)) :=
  (armWindow_sameButRes c s).trans (streamBurst_frame src total (armWindow c s)).sameButRes

/-- A step of a wait changes the state only by its abort. -/
theorem waitStep_sameButRes (ms : Nat) (ph : WaitPhase) (s : State) : SameButRes s (waitStep ms ph s).2 := by
  rcases waitStep_cases ms ph s with ⟨-, -, e⟩ | ⟨-, e⟩ | ⟨-, -, ph', e⟩ <;> rw [e]
  · exact .refl s
  · exact abortTransfer_sameButRes s
  · exact .refl s

theorem waitOp_sameButRes (ms : Nat) (ph : WaitPhase) (s : State) : SameButRes s (waitOp ms ph s) := by
  have hwait := waitStep_sameButRes ms ph s
  unfold waitOp
  split <;> rename_i e <;> rw [e] at hwait <;> exact hwait.trans ⟨rfl, rfl, rfl⟩

theorem burstOp_sameButRes (src : PixSrc) (total i n : Nat) (ph : WaitPhase) (s : State) :
    SameButRes s (burstOp src total i n ph s) := by
  have hwait := waitStep_sameButRes s.params.xferTimeoutMs.toNat ph s
  unfold burstOp
  split <;> rename_i e <;> rw [e] at hwait <;> refine hwait.trans ?_
  · exact (burstFrom_frame src total _ _ _ le_rfl).sameButRes
  · exact ⟨rfl, rfl, rfl⟩
  · exact ⟨rfl, rfl, rfl⟩

theorem fillWindowed_sameHostRegs (op : Byte) (clip : Option Rect) (col : Pixel) (s : State) :
    SameHostRegs s (fillWindowed op clip col s) := by
  unfold fillWindowed
  split
  · exact ((SameButRes.refl s).complete true).sameHostRegs
  · exact guarded_sameHostRegs (drawBurst_sameButRes _ _ _ s)

/-! ### Every command at its issue, and every operation in progress -/

theorem exec_sameHostRegs {i : Instr} {s t : State} (he : exec i s = .next t) : SameHostRegs s t := by
  have noOp : SameHostRegs s (complete true s) := ((SameButRes.refl s).complete true).sameHostRegs
  cases i <;> injection he with he <;> subst he
  case wrcmd b => exact guarded_sameHostRegs ⟨rfl, rfl, rfl⟩
  case wrdat b => exact guarded_sameHostRegs ⟨rfl, rfl, rfl⟩
  case wrbulk =>
    refine guarded_sameHostRegs ?_
    split <;> exact ⟨rfl, rfl, rfl⟩
  case wrbulka =>
    refine guarded_sameHostRegs ?_
    dsimp only
    split
    · exact ⟨rfl, rfl, rfl⟩
    · exact (disarm_sameButRes s).trans (bulkReturn_sameButRes _ false (disarm s))
  case wait ms => exact (waitOp_sameButRes _ _ s).sameHostRegs
  case abort => exact ((abortTransfer_sameButRes s).complete true).sameHostRegs
  case teinit => split <;> exact ⟨rfl, rfl, rfl, rfl, rfl, rfl, rfl⟩
  case tefree =>
    refine ((abortTransfer_sameButRes s).trans ?_).sameHostRegs
    dsimp only
    split <;> exact ⟨rfl, rfl, rfl⟩
  case setwin =>
    split
    · unfold setWinWindowed
      dsimp only
      split
      · exact noOp
      · split
        · exact noOp
        · exact guarded_sameHostRegs ⟨rfl, rfl, rfl⟩
    · exact raiseFault_sameHostRegs _ _ s
  case drawimg =>
    split
    · unfold drawImgWindowed
      split
      · exact noOp
      · exact guarded_sameHostRegs (drawBurst_sameButRes _ _ _ s)
    · unfold drawImgPaged
      split
      · exact noOp
      · exact guarded_sameHostRegs ((sendPages_sameButRes _ _ _ _ s).complete true)
  case fillrect =>
    split
    · exact fillWindowed_sameHostRegs _ _ _ s
    · unfold fillRectPaged
      split
      · exact noOp
      · exact guarded_sameHostRegs ((sendPages_sameButRes _ _ _ _ s).complete true)
  case setrot rot =>
    split
    · refine guarded_sameHostRegs ?_
      dsimp only
      split <;> exact ⟨rfl, rfl, rfl⟩
    · exact guarded_sameHostRegs ⟨rfl, rfl, rfl⟩
  case pushpix =>
    split
    · exact guarded_sameHostRegs (streamBurst_frame _ _ s).sameButRes
    · exact raiseFault_sameHostRegs _ _ s
  case clear =>
    split
    · exact fillWindowed_sameHostRegs _ _ _ s
    · exact guarded_sameHostRegs ((sendPages_sameButRes _ _ _ _ s).complete true)
  case surfinit =>
    exact guarded_sameHostRegs ((sendInit_sameButRes s.params.initSeq s).trans ⟨rfl, rfl, rfl⟩)
  case buildmaps => exact guarded_sameHostRegs ⟨rfl, rfl, rfl⟩
  case resample => exact guarded_sameHostRegs ⟨rfl, rfl, rfl⟩
  case dithb => exact guarded_sameHostRegs ⟨rfl, rfl, rfl⟩
  case dithfs => exact guarded_sameHostRegs ⟨rfl, rfl, rfl⟩

theorem resumeOp_sameButRes (op : PendingOp) (s : State) : SameButRes s (resumeOp op s) := by
  cases op with
  | wait ms ph => exact waitOp_sameButRes ms ph s
  | bulkHold pix =>
    by_cases hbusy : s.te.st = .dmaBusy
    · rw [resumeOp, bulkHoldOp, if_pos hbusy]
      exact ⟨rfl, rfl, rfl⟩
    · rw [resumeOp, bulkHoldOp, if_neg hbusy]
      exact bulkReturn_sameButRes pix true s
  | burst src total i n ph => exact burstOp_sameButRes src total i n ph s

end Sys2Proof.Machine

/-! ## The obligations -/

namespace Sys2Proof.Proofs

open Sys2Proof.Machine

/-- Settles O8: a command that goes through writes `RES` alone of the host port, one that faults the fault register. -/
theorem operationsLeaveHostRegisters : Obligations.OperationsLeaveHostRegisters := by
  unfold Obligations.OperationsLeaveHostRegisters
  constructor
  · intro i s t he
    obtain ⟨ha, hpal, hl, hd, hsel, hhost, hparams⟩ := exec_sameHostRegs he
    exact ⟨ha, hpal, hl, hd, hsel, hhost, hparams⟩
  · intro op s
    obtain ⟨hport, hhost, hparams⟩ := resumeOp_sameButRes op s
    exact ⟨hport, hhost, hparams⟩

/-- Settles O29, axis by axis. -/
theorem clipIsTheVisiblePart : Obligations.ClipIsTheVisiblePart := by
  unfold Obligations.ClipIsTheVisiblePart
  refine fun width height x y w h => ⟨clipRect_none_iff_no_pixel, fun c hc => ?_⟩
  obtain ⟨-, -, -, -, hx, hy, hwidth, hheight, -, -⟩ := clipRect_some hc
  exact ⟨hx, hwidth, hy, hheight, mem_clipRect_iff hc⟩

/-- Settles O28, invariant by invariant. -/
theorem resetIsSafe : Obligations.ResetIsSafe := by
  unfold Obligations.ResetIsSafe
  intro p u hp hwf hinside
  exact ⟨{ engine := resetWith_engineInv (chunk_fits_of_wf hp) u
           bus := resetWith_busInv p u
           surface := resetWith_surfaceInv hp u
           maps := resetWith_mapInv p u
           mem := ⟨hwf, hinside⟩
           fault := resetWith_faultInv p u }, resetWith_flightInv p u⟩

end Sys2Proof.Proofs

/-! # The state from step to step: the transfer engine (R52) -/

namespace Sys2Proof.Machine

/-! ## The engine's invariant is about the parameters and the engine -/

theorem EngineInv.congr {s t : State} (h : EngineInv s) (hparams : t.params = s.params) (hte : t.te = s.te) :
    EngineInv t := by
  obtain ⟨hrest, hidle, hbusy, hended, hflight, hnotes, hset, hclaimed, hscratch, hchunk⟩ := h
  constructor <;> simp only [DmaRecOk, hparams, hte] <;> assumption

theorem engineInv_dataClosed : DataClosed EngineInv where
  port _ _ h := h.congr rfl rfl
  surf _ _ h := h.congr rfl rfl
  rsm _ _ h := h.congr rfl rfl
  mem _ _ h := h.congr rfl rfl
  pending _ _ h := h.congr rfl rfl
  host _ _ h := h.congr rfl rfl
  env _ _ h := h.congr rfl rfl

/-- With no transfer in flight the engine is idle and has no record. -/
theorem EngineInv.at_rest {s : State} (h : EngineInv s) (hfree : s.te.st ≠ .dmaBusy) :
    s.te.st = .idle ∧ s.te.cs = false ∧ s.te.dma = none := by
  have hidle := h.resting.resolve_right hfree
  exact ⟨hidle, h.idle hidle⟩

/-- While the record of a transfer stands, its completion is not pending. -/
theorem EngineInv.record_not_pending {s : State} (h : EngineInv s) {r : DmaRec} (hr : s.te.dma = some r) :
    s.te.xferSeq ∉ s.te.notePending := by
  obtain ⟨-, hseq, hnot, -⟩ := h.inFlight r hr
  exact hseq ▸ hnot

/-! ## What the operations do to it -/

theorem syncSend_engineInv {s : State} (h : EngineInv s) (hfree : s.te.st ≠ .dmaBusy) (d : Bool) (bytes : List Byte) :
    EngineInv (syncSend d bytes s) where
  resting := .inl rfl
  idle _ := ⟨rfl, (h.at_rest hfree).2.2⟩
  busy hst := nomatch hst
  ended hst := nomatch hst
  inFlight r hr := absurd (h.inFlight r hr).1 hfree
  notes := h.notes
  noteSet := h.noteSet
  claimed := h.claimed
  scratch := h.scratch
  chunk := h.chunk

theorem armTransfer_engineInv {s : State} (h : EngineInv s) (hok : s.te.dmaOk = true) {pix : List Pixel} (hne : pix ≠ [])
    (hfits : 2 * pix.length ≤ s.params.scratchBytes) : EngineInv (armTransfer pix s) where
  resting := .inr rfl
  idle hst := nomatch hst
  busy _ := ⟨rfl, rfl, hok⟩
  ended _ hdma := nomatch hdma
  inFlight r hr := by
    obtain rfl := Option.some.inj hr
    have hpos : 0 < pix.length := List.length_pos_iff.2 hne
    have hfresh : s.te.xferSeq + 1 ∉ s.te.notePending := fun hmem => absurd (h.notes _ hmem) (by omega)
    exact ⟨rfl, rfl, hfresh, by dsimp only; omega, hfits, Nat.zero_le _⟩
  notes q hq := Nat.le_succ_of_le (h.notes q hq)
  noteSet := h.noteSet
  claimed := h.claimed
  scratch := by
    have hlen := h.scratch
    simp only [armTransfer_te, List.length_append, pixRunBytes_length, List.length_drop, armTransfer_params]
    omega
  chunk := h.chunk

theorem abortTransfer_engineInv {s : State} (h : EngineInv s) : EngineInv (abortTransfer s) := by
  rcases abortTransfer_cases s with ⟨-, e⟩ | ⟨-, junk, hjunk, e⟩ <;> rw [e]
  · exact h
  · exact {
      resting := .inl rfl
      idle := fun _ => ⟨rfl, rfl⟩
      busy := nofun
      ended := nofun
      inFlight := nofun
      notes := h.notes
      noteSet := h.noteSet
      claimed := h.claimed
      scratch := hjunk
      chunk := h.chunk }

/-- An engine that TEINIT has not set up has no transfer in flight. -/
theorem EngineInv.free_of_not_inited {s : State} (h : EngineInv s) (hinit : s.te.inited = false) :
    s.te.st ≠ .dmaBusy := by
  intro hst
  obtain ⟨-, -, hok⟩ := h.busy hst
  exact absurd (h.claimed hok).1 (by simp [hinit])

/-- Claiming or releasing the channel, which is done with no transfer in flight (R212, R213). -/
theorem EngineInv.resources {s : State} (h : EngineInv s) (hfree : s.te.st ≠ .dmaBusy) {ok inited : Bool}
    (hok : ok = true → inited = true ∧ s.params.dmaPresent = true) {junk : List Byte}
    (hjunk : junk.length = s.params.scratchBytes) :
    EngineInv { s with te := { s.te with dmaOk := ok, inited := inited, scratch := junk } } where
  resting := h.resting
  idle := h.idle
  busy hst := absurd hst hfree
  ended := h.ended
  inFlight r hr := absurd (h.inFlight r hr).1 hfree
  notes := h.notes
  noteSet := h.noteSet
  claimed := hok
  scratch := hjunk
  chunk := h.chunk

theorem engineInv_engineClosed : EngineClosed EngineInv EngineInv where
  inside := engineInv_dataClosed
  ends := engineInv_dataClosed
  weaken _ h := h
  chunk _ h := h.chunk
  send _ d bytes h hfree _ := syncSend_engineInv h hfree d bytes
  arm _ _ h _ hok hne hfits := armTransfer_engineInv h hok hne hfits
  abort _ h := abortTransfer_engineInv h
  claim _ _ h hok hinit := h.resources (h.free_of_not_inited hinit) (fun hk => ⟨rfl, hok hk⟩) h.scratch
  free _ _ h hfree hjunk := h.resources hfree (by simp) (hjunk.elim (fun e => e ▸ h.scratch) id)

/-! ## What the other agents do to it -/

theorem mem_noteAdd {q p : Nat} {notes : List Nat} : p ∈ noteAdd q notes ↔ p = q ∨ p ∈ notes := by
  unfold noteAdd
  split
  · next hq => exact ⟨.inr, fun h => h.elim (fun e => e ▸ hq) id⟩
  · simp [or_comm]

theorem noteAdd_nodup {q : Nat} {notes : List Nat} (h : notes.Nodup) : (noteAdd q notes).Nodup := by
  unfold noteAdd
  split
  · exact h
  · next hq => simpa [List.nodup_append, h] using fun a ha (e : a = q) => hq (e ▸ ha)

theorem mem_noteRemove {q p : Nat} {notes : List Nat} : p ∈ noteRemove q notes ↔ p ∈ notes ∧ p ≠ q := by
  simp [noteRemove]

/-- A shift moves the record on; the finish puts the number of the transfer among the completions (R230, R231). -/
theorem dmaStep_engineInv {s : State} (h : EngineInv s) : EngineInv (dmaStep s) := by
  unfold dmaStep
  split
  · exact h
  · next r hr =>
    obtain ⟨hst, hseq, hnot, hlen, hfits, hpos⟩ := h.inFlight r hr
    split
    · next hlt =>
      exact {
        resting := h.resting
        idle := fun hidle => absurd hst (by rw [hidle]; decide)
        busy := h.busy
        ended := nofun
        inFlight := fun r' hr' => by
          obtain rfl := Option.some.inj hr'
          exact ⟨hst, hseq, hnot, hlen, hfits, hlt⟩
        notes := h.notes
        noteSet := h.noteSet
        claimed := h.claimed
        scratch := h.scratch
        chunk := h.chunk }
    · exact {
        resting := h.resting
        idle := fun hidle => absurd hst (by rw [hidle]; decide)
        busy := h.busy
        ended := fun _ _ => mem_noteAdd.2 (.inl hseq.symm)
        inFlight := nofun
        notes := fun q hq => (mem_noteAdd.1 hq).elim (fun e => (e.trans hseq).le) (h.notes q)
        noteSet := noteAdd_nodup h.noteSet
        claimed := h.claimed
        scratch := h.scratch
        chunk := h.chunk }

/-- The current completion ends the transfer, a stale one is removed (R232, R234). -/
theorem deliver_engineInv {s : State} (h : EngineInv s) {q : Nat} (hq : q ∈ s.te.notePending) :
    EngineInv (deliver q s) := by
  have notes : ∀ p ∈ noteRemove q s.te.notePending, p ≤ s.te.xferSeq := fun p hp => h.notes p (mem_noteRemove.1 hp).1
  have noteSet : (noteRemove q s.te.notePending).Nodup := h.noteSet.filter _
  rcases deliver_cases s q with ⟨hstale, e⟩ | ⟨-, hcurrent, junk, hjunk, e⟩ <;> rw [e]
  · exact {
      resting := h.resting
      idle := h.idle
      busy := h.busy
      ended := fun hst hdma => mem_noteRemove.2 ⟨h.ended hst hdma, fun he => hstale ⟨hst, he⟩⟩
      inFlight := fun r hr => by
        obtain ⟨hst, hseq, hnot, hrange⟩ := h.inFlight r hr
        exact ⟨hst, hseq, fun hmem => hnot (mem_noteRemove.1 hmem).1, hrange⟩
      notes := notes
      noteSet := noteSet
      claimed := h.claimed
      scratch := h.scratch
      chunk := h.chunk }
  · have hnone : s.te.dma = none := by
      rw [Option.eq_none_iff_forall_ne_some]
      exact fun r hr => h.record_not_pending hr (hcurrent ▸ hq)
    exact {
      resting := .inl rfl
      idle := fun _ => ⟨rfl, hnone⟩
      busy := nofun
      ended := nofun
      inFlight := fun r hr => absurd (hnone.symm.trans hr) nofun
      notes := notes
      noteSet := noteSet
      claimed := h.claimed
      scratch := hjunk
      chunk := h.chunk }

theorem notifyStep_engineInv {s : State} (h : EngineInv s) (k : Nat) : EngineInv (notifyStep k s) := by
  unfold notifyStep
  split
  · exact h
  · next q hq => exact deliver_engineInv h (List.mem_of_getElem? hq)

theorem clockStep_engineInv {s : State} (h : EngineInv s) : EngineInv (clockStep s) :=
  ⟨h.resting, h.idle, h.busy, h.ended, h.inFlight, h.notes, h.noteSet, h.claimed, h.scratch, h.chunk⟩

/-- The platform's reset leaves the engine as it is right after reset. -/
theorem platformReset_engineInv {s : State} (hchunk : 2 * s.params.chunkPix ≤ s.params.scratchBytes) :
    EngineInv (platformReset s) :=
  (resetWith_engineInv hchunk (freeUnspec s)).congr rfl rfl

end Sys2Proof.Machine

namespace Sys2Proof.Proofs

open Sys2Proof.Machine

/-- Settles O25, update by update of the engine. -/
theorem engineInvariantKept : Obligations.EngineInvariantKept := by
  unfold Obligations.EngineInvariantKept
  intro s t hs he
  refine step_engineClosed engineInv_engineClosed hs (fun _ => dmaStep_engineInv) (fun k _ h => notifyStep_engineInv h k)
    clockStep_engineInv (fun _ => platformReset_engineInv ?_) he
  rw [turnTaken_params]
  exact hs.chunk

end Sys2Proof.Proofs

/-! # The host port: the fault register, reset, what a register reads and what a write stores -/

namespace Sys2Proof.Machine

/-! ## Numbers of words put together from fields -/

/-- A field above another, as a number. -/
theorem toNat_append_eq_add {m n : Nat} (x : BitVec m) (y : BitVec n) :
    (x ++ y).toNat = 2 ^ n * x.toNat + y.toNat := by
  rw [BitVec.toNat_append, Nat.shiftLeft_eq, Nat.mul_comm, Nat.two_pow_add_eq_or_of_lt y.isLt]

/-- Zeros above a field do not change its number. -/
theorem toNat_zero_append {m n : Nat} (y : BitVec n) : ((0 : BitVec m) ++ y).toNat = y.toNat := by
  simp

/-- The low bits of a word, as a number. -/
theorem toNat_lowBits {m : Nat} (x : BitVec m) (n : Nat) : (x.extractLsb' 0 n).toNat = x.toNat % 2 ^ n := by
  rw [BitVec.extractLsb'_toNat, Nat.shiftRight_zero]

@[simp] theorem low16_toNat (v : BitVec 16) : (low16 v).toNat = v.toNat := toNat_zero_append v

/-! ## Faults (R28, R341) -/

/-- The value of `FAULT`, as a number: the code below the opcode byte. -/
theorem faultWord_eq_ofNat (op : Byte) (c : FaultCode) :
    faultWord op c = BitVec.ofNat 32 (op.toNat * 256 + (faultCodeByte c).toNat) := by
  apply BitVec.eq_of_toNat_eq
  rw [faultWord, toNat_append_eq_add, toNat_zero_append, BitVec.toNat_ofNat]
  have hop := op.isLt
  have hcode := (faultCodeByte c).isLt
  omega

/-! ## Reset (R60) -/

theorem resetWith_atReset (p : Params) (u : Unspec) : AtReset (State.resetWith p u) where
  operands := rfl
  res := rfl
  fault := ⟨rfl, rfl⟩
  mapSel := rfl
  engine := ⟨rfl, rfl, rfl⟩
  resources := ⟨rfl, rfl, fitScratch_length _ _⟩
  transfers := ⟨rfl, rfl, rfl⟩
  wire := rfl
  geometry := ⟨rfl, rfl, rfl⟩
  window := ⟨rfl, rfl, rfl, rfl⟩
  maps := ⟨rfl, rfl, rfl, rfl, rfl⟩
  palette := ⟨rfl, rfl, rfl⟩
  idle := rfl

theorem regRead_winx (s : State) : regRead s 0x1A = winxWord s := rfl
theorem regRead_winy (s : State) : regRead s 0x1B = winyWord s := rfl
theorem regRead_winrem (s : State) : regRead s 0x1C = winremWord s := rfl

/-- The table speaks of the block alone: the host, MEM and the free choices may be any. -/
theorem AtReset.congr {s t : State} (h : AtReset s) (hparams : t.params = s.params) (hport : t.port = s.port)
    (hte : t.te = s.te) (hwire : t.wire = s.wire) (hsurf : t.surf = s.surf) (hrsm : t.rsm = s.rsm)
    (hpending : t.pending = s.pending) : AtReset t := by
  obtain ⟨hops, hres, hfault, hsel, heng, hown, htrans, hw, hgeom, hwin, hmaps, hpal, hidle⟩ := h
  have hx : regRead t 0x1A = regRead s 0x1A := by rw [regRead_winx, regRead_winx, winxWord, winxWord, hsurf]
  have hy : regRead t 0x1B = regRead s 0x1B := by rw [regRead_winy, regRead_winy, winyWord, winyWord, hsurf]
  have hrem : regRead t 0x1C = regRead s 0x1C := by rw [regRead_winrem, regRead_winrem, winremWord, winremWord, hsurf]
  constructor <;> simp only [hparams, hport, hte, hwire, hsurf, hrsm, hpending, hx, hy, hrem] <;> assumption

theorem platformReset_atReset (s : State) : AtReset (platformReset s) :=
  (resetWith_atReset s.params (freeUnspec s)).congr rfl rfl rfl rfl rfl rfl rfl

/-! ## What a write stores (R24) -/

/-- From `p` to `q` no register has changed but number `n`, and nothing that the host cannot write. -/
structure PortFrame (n : BitVec 6) (p q : Port) : Prop where
  res : q.res = p.res
  fault : q.fault = p.fault
  faulted : q.faulted = p.faulted
  a0 : n.toNat ≠ 8 → q.a.a0 = p.a.a0
  a1 : n.toNat ≠ 9 → q.a.a1 = p.a.a1
  a2 : n.toNat ≠ 10 → q.a.a2 = p.a.a2
  a3 : n.toNat ≠ 11 → q.a.a3 = p.a.a3
  a4 : n.toNat ≠ 12 → q.a.a4 = p.a.a4
  a5 : n.toNat ≠ 13 → q.a.a5 = p.a.a5
  a6 : n.toNat ≠ 14 → q.a.a6 = p.a.a6
  a7 : n.toNat ≠ 15 → q.a.a7 = p.a.a7
  p0 : n.toNat ≠ 16 → q.pal.p0 = p.pal.p0
  p1 : n.toNat ≠ 17 → q.pal.p1 = p.pal.p1
  p2 : n.toNat ≠ 18 → q.pal.p2 = p.pal.p2
  p3 : n.toNat ≠ 19 → q.pal.p3 = p.pal.p3
  toneL : n.toNat ≠ 20 → q.toneL = p.toneL
  toneD : n.toNat ≠ 21 → q.toneD = p.toneD
  mapSel : n.toNat ≠ 31 → q.mapSel = p.mapSel

/-- In each case of a write a field is untouched, or belongs to the very number written. -/
theorem portWrite_frame (p : Port) (n : BitVec 6) (v : Word) : PortFrame n p (portWrite p n v) := by
  unfold portWrite
  split <;> constructor <;> intros <;> first | rfl | contradiction

/-- A number with no register the host may write ignores the write. -/
theorem portWrite_ignored {n : BitVec 6} (h : n.toNat < 8 ∨ 21 < n.toNat ∧ n.toNat ≠ 31) (p : Port) (v : Word) :
    portWrite p n v = p := by
  unfold portWrite
  split
  case h_16 => rfl
  all_goals omega

/-- An operand register reads the value written. -/
theorem regRead_regWrite_operand {n : BitVec 6} (h : 8 ≤ n.toNat ∧ n.toNat ≤ 15) (s : State) (v : Word) :
    regRead (regWrite s n v) n = v := by
  have hn : n = 8 ∨ n = 9 ∨ n = 10 ∨ n = 11 ∨ n = 12 ∨ n = 13 ∨ n = 14 ∨ n = 15 := by bv_omega
  rcases hn with rfl | rfl | rfl | rfl | rfl | rfl | rfl | rfl <;> rfl

/-- A colour register reads the low half of the value written. -/
theorem regRead_regWrite_colour {n : BitVec 6} (h : 16 ≤ n.toNat ∧ n.toNat ≤ 21) (s : State) (v : Word) :
    regRead (regWrite s n v) n = low16 (v.extractLsb' 0 16) := by
  have hn : n = 16 ∨ n = 17 ∨ n = 18 ∨ n = 19 ∨ n = 20 ∨ n = 21 := by bv_omega
  rcases hn with rfl | rfl | rfl | rfl | rfl | rfl <;> rfl

/-- `MAPSEL` reads the low 17 bits of the value written. -/
theorem regRead_regWrite_mapSel (s : State) (v : Word) :
    regRead (regWrite s 31 v) 31 = (0 : BitVec 15) ++ v.extractLsb' 0 17 := rfl

theorem mapdataEntry_congr {s t : State} (hrsm : t.rsm = s.rsm) (hsel : t.port.mapSel = s.port.mapSel) :
    mapdataEntry t = mapdataEntry s := by
  rw [mapdataEntry, mapdataEntry, mapselAxis, mapselAxis, mapselIdx, mapselIdx, hrsm, hsel]

/-- Every other register reads what it read before; `MAPDATA` alone depends on another, `MAPSEL`. -/
theorem regRead_regWrite_other {m n : BitVec 6} (hne : m ≠ n) (hmap : m ≠ 0x20 ∨ n ≠ 0x1F) (s : State) (v : Word) :
    regRead (regWrite s n v) m = regRead s m := by
  have hnum : n.toNat ≠ m.toNat := fun e => hne (BitVec.eq_of_toNat_eq e.symm)
  have hmapNum : m.toNat = 32 → n.toNat ≠ 31 := by bv_omega
  obtain ⟨q, hq, frame⟩ : ∃ q, regWrite s n v = { s with port := q } ∧ PortFrame n s.port q :=
    ⟨_, rfl, portWrite_frame s.port n v⟩
  rw [hq]
  unfold regRead
  generalize m.toNat = k at hnum hmapNum ⊢
  split
  case h_1 => simp only [resWord, frame.res]
  case h_2 => simp only [statusWord, frame.faulted]
  case h_3 => exact frame.fault
  case h_5 => exact frame.a0 hnum
  case h_6 => exact frame.a1 hnum
  case h_7 => exact frame.a2 hnum
  case h_8 => exact frame.a3 hnum
  case h_9 => exact frame.a4 hnum
  case h_10 => exact frame.a5 hnum
  case h_11 => exact frame.a6 hnum
  case h_12 => exact frame.a7 hnum
  case h_13 => exact congrArg low16 (frame.p0 hnum)
  case h_14 => exact congrArg low16 (frame.p1 hnum)
  case h_15 => exact congrArg low16 (frame.p2 hnum)
  case h_16 => exact congrArg low16 (frame.p3 hnum)
  case h_17 => exact congrArg low16 (frame.toneL hnum)
  case h_18 => exact congrArg low16 (frame.toneD hnum)
  case h_26 => exact congrArg ((0 : BitVec 15) ++ ·) (frame.mapSel hnum)
  case h_27 => exact congrArg low16 (mapdataEntry_congr rfl (frame.mapSel (hmapNum rfl)))
  all_goals rfl

/-! ## What a read shows (R26 to R33) -/

/-- A number that is not in the table, and `CMD`, read 0 (R24). -/
theorem regRead_reserved {n : BitVec 6} (h : n.toNat ∈ [0, 5, 6, 7, 22, 23] ∨ 32 < n.toNat) (s : State) :
    regRead s n = 0 := by
  simp only [List.mem_cons, List.not_mem_nil, or_false] at h
  unfold regRead
  split
  case h_28 => rfl
  all_goals omega

/-- The registers show nothing of whose turn it is. -/
theorem regRead_turnTaken (s : State) (n : BitVec 6) : regRead (turnTaken s) n = regRead s n := by
  rw [turnTaken_eq]
  rfl

/-- `STATUS`, field by field (R26). -/
theorem statusWord_toNat (s : State) :
    (statusWord s).toNat = (teStateCode s.te.st).toNat + 2 ^ 3 * s.te.cs.toNat + 2 ^ 4 * s.te.dc.toNat +
      2 ^ 5 * s.te.dmaOk.toNat + 2 ^ 6 * s.surf.win.armed.toNat + 2 ^ 7 * s.rsm.valid.toNat +
      2 ^ 8 * s.port.faulted.toNat + 2 ^ 9 * s.te.inited.toNat := by
  simp only [statusWord, toNat_append_eq_add, BitVec.toNat_ofBool, BitVec.ofNat_eq_ofNat, BitVec.toNat_zero]
  omega

/-- The codes of `te_state` (R26). -/
theorem teStateCode_toNat {st : TeState} {code : Nat}
    (h : (st, code) ∈ [(TeState.idle, 0), (.selectedCommand, 1), (.selectedData, 2), (.dmaBusy, 3), (.aborted, 4)]) :
    (teStateCode st).toNat = code := by
  simp only [List.mem_cons, Prod.mk.injEq, List.not_mem_nil, or_false] at h
  rcases h with ⟨rfl, rfl⟩ | ⟨rfl, rfl⟩ | ⟨rfl, rfl⟩ | ⟨rfl, rfl⟩ | ⟨rfl, rfl⟩ <;> rfl

theorem resWord_toNat (s : State) : (resWord s).toNat = s.port.res.toNat := by
  rw [resWord, toNat_zero_append, BitVec.toNat_ofBool]

theorem winxWord_toNat (s : State) :
    (winxWord s).toNat = if s.surf.win.armed then 2 ^ 16 * s.surf.win.x1.toNat + s.surf.win.x0.toNat else 0 := by
  unfold winxWord
  split
  · exact toNat_append_eq_add _ _
  · rfl

theorem winyWord_toNat (s : State) :
    (winyWord s).toNat = if s.surf.win.armed then 2 ^ 16 * s.surf.win.y1.toNat + s.surf.win.y0.toNat else 0 := by
  unfold winyWord
  split
  · exact toNat_append_eq_add _ _
  · rfl

theorem mapselIdx_eq (s : State) : mapselIdx s = s.port.mapSel.toNat % 2 ^ 16 := toNat_lowBits _ _

/-- The axis is the top bit of the 17 (R33). -/
theorem mapselAxis_iff (s : State) : mapselAxis s = true ↔ 2 ^ 16 ≤ s.port.mapSel.toNat := by
  have hlt := s.port.mapSel.isLt
  rw [mapselAxis, BitVec.getLsbD, Nat.testBit_eq_decide_div_mod_eq, decide_eq_true_eq]
  omega

/-- `MAPDATA`, case by case (R33). -/
theorem mapdataEntry_toNat (s : State) :
    (mapdataEntry s).toNat =
      if s.rsm.valid = false then 0
      else if 2 ^ 16 ≤ s.port.mapSel.toNat then
        (if s.port.mapSel.toNat % 2 ^ 16 < s.rsm.dh.toNat then
          (s.rsm.ymap.getD (s.port.mapSel.toNat % 2 ^ 16) 0).toNat else 0)
      else
        (if s.port.mapSel.toNat % 2 ^ 16 < s.rsm.dw.toNat then
          (s.rsm.xmap.getD (s.port.mapSel.toNat % 2 ^ 16) 0).toNat else 0) := by
  cases hvalid : s.rsm.valid with
  | false => simp [mapdataEntry, hvalid]
  | true =>
    simp only [mapdataEntry, hvalid, mapselAxis_iff, mapselIdx_eq, if_true, Bool.true_eq_false, if_false,
      apply_ite BitVec.toNat, BitVec.ofNat_eq_ofNat, BitVec.toNat_zero]

/-! ## Whose command the next step runs (R22, R25, R109) -/

/-- A word of 32 bits is placed as it stands. -/
theorem withFetchWord_eq (s : State) (w : Word) : s.withFetchWord 32 w.toNat = placeCommand w s := by
  rw [State.withFetchWord, min_self, Nat.mod_eq_of_lt w.isLt, BitVec.ofNat_toNat, BitVec.setWidth_eq]

/-- The machine given a command word takes it with its next step. -/
theorem hostNext_placeCommand (w : Word) (s : State) : hostNext (placeCommand w s) (.wr 0 w) := ⟨rfl, rfl, rfl⟩

/-- The host's step at a write of a command word is the command, after the host's index has moved on. -/
theorem step_command {s : State} {w : Word} {i : Instr} (hn : hostNext s (.wr 0 w)) (hf : s.port.faulted = false)
    (hd : decode w = .command i) : step s = exec i (advance (turnTaken s)) := by
  have hfresh : (advance (turnTaken s)).port.faulted = false := by simpa using hf
  rw [step_action hn, hostAction, if_pos rfl, issue_command hfresh hd]

/-- Once a fault has been taken it is ignored (R340). -/
theorem step_command_ignored {s : State} {w : Word} (hn : hostNext s (.wr 0 w)) (hf : s.port.faulted = true) :
    step s = .next (advance (turnTaken s)) := by
  have hstuck : (advance (turnTaken s)).port.faulted = true := by simpa using hf
  rw [step_action hn, hostAction, if_pos rfl, issue_faulted hstuck]

end Sys2Proof.Machine

namespace Sys2Proof.Proofs

open Sys2Proof.Machine

/-- Settles O4: the step is `exec` after `advance` and `turnTaken`. -/
theorem stepRunsTheDecodedCommand : Obligations.StepRunsTheDecodedCommand := by
  unfold Obligations.StepRunsTheDecodedCommand
  constructor
  · intro s w i hn hf hd
    rw [step_command hn hf hd, turnTaken_eq]
    rfl
  · intro s w i hf hd
    rw [withFetchWord_eq, step_command (hostNext_placeCommand w s) hf hd]
    rfl

/-- Settles O5: the table of R341 code by code, the latch by its two laws. -/
theorem firstFaultLatches : Obligations.FirstFaultLatches := by
  unfold Obligations.FirstFaultLatches
  refine ⟨fun op c s hf => raiseFault_stuck hf op c, fun op s hf p hp => ?_⟩
  have hcode : (faultCodeByte p.1).toNat = p.2 := by
    revert p
    decide
  rw [raiseFault_fresh hf, latched, faultWord_eq_ofNat, hcode]

/-- Settles O27: the reset state has the table's values, and the reset input gives the block of that state. -/
theorem resetGivesTheTableOfValues : Obligations.ResetGivesTheTableOfValues := by
  unfold Obligations.ResetGivesTheTableOfValues
  refine ⟨fun p u => ⟨resetWith_atReset p u, rfl⟩, fun s hn => ?_⟩
  exact ⟨_, step_of_event hn, platformReset_atReset _, turnTaken_params s, turnTaken_host s⟩

/-- Settles O54, by the ranges of register numbers. -/
theorem registerWritesReadBack : Obligations.RegisterWritesReadBack := by
  unfold Obligations.RegisterWritesReadBack
  constructor
  · intro s n v hn hne
    rw [step_action hn, hostAction, if_neg hne]
  · intro s n v _
    refine ⟨fun h => regRead_regWrite_operand h s v, fun h => ?_, fun h => ?_, fun h => ?_,
      fun m hm hmap => regRead_regWrite_other hm hmap s v, rfl⟩
    · rw [regRead_regWrite_colour h, low16_toNat, toNat_lowBits]
    · obtain rfl : n = 31 := BitVec.eq_of_toNat_eq h
      rw [regRead_regWrite_mapSel, toNat_zero_append, toNat_lowBits]
    · rw [regWrite, portWrite_ignored h]

/-- Settles O55, register by register. -/
theorem registerReadsShowTheState : Obligations.RegisterReadsShowTheState := by
  unfold Obligations.RegisterReadsShowTheState
  constructor
  · intro s n hn
    rw [step_action hn, hostAction, regRead_turnTaken]
  · intro s
    refine ⟨resWord_toNat s, fun code hcode => ?_, rfl, rfl, rfl, rfl, rfl, rfl, rfl, rfl, rfl, rfl, low16_toNat _, low16_toNat _,
      low16_toNat _, low16_toNat _, low16_toNat _, low16_toNat _, toNat_append_eq_add _ _, toNat_zero_append _,
      winxWord_toNat s, winyWord_toNat s, rfl, toNat_append_eq_add _ _, toNat_append_eq_add _ _, toNat_zero_append _,
      (low16_toNat _).trans (mapdataEntry_toNat s), fun n hn => regRead_reserved hn s⟩
    rw [← teStateCode_toNat hcode]
    exact statusWord_toNat s

end Sys2Proof.Proofs

/-! # What a step can do, and what every operation keeps -/

namespace Sys2Proof.Machine

/-! ## The host's own actions (R107, R316) -/

/-- `t` is `s` but for MEM and the host's own state. -/
def SameButHost (s t : State) : Prop := ∃ m u, t = { s with mem := m, host := u }

/-- An access that does not stop has happened. -/
theorem hostAccess_next {a : Nat} {check : Option FaultCode} {s t : State} (he : hostAccess a check s = .next t) :
    t = s := by
  unfold hostAccess at he
  split at he <;> cases he
  rfl

/-- An action of the host issues a command word, writes another register, or leaves the block but for MEM alone. -/
theorem hostAction_cases {act : HostAction} {s t : State} (he : hostAction act s = .next t) :
    (∃ w, act = .wr 0 w ∧ issue w (advance s) = .next t) ∨
    (∃ n v, t = regWrite (advance s) n v) ∨ SameButHost s t := by
  cases act with
  | wr n v =>
    rw [hostAction] at he
    split at he
    · next hn => exact .inl ⟨v, by rw [hn], he⟩
    · cases he; exact .inr (.inl ⟨n, v, rfl⟩)
  | rd n => cases he; exact .inr (.inr ⟨_, _, rfl⟩)
  | st8 a v => cases hostAccess_next he; exact .inr (.inr ⟨_, _, rfl⟩)
  | ld8 a => cases hostAccess_next he; exact .inr (.inr ⟨_, _, rfl⟩)
  | st16 a v => cases hostAccess_next he; exact .inr (.inr ⟨_, _, rfl⟩)
  | ld16 a => cases hostAccess_next he; exact .inr (.inr ⟨_, _, rfl⟩)
  | fifoRead =>
    rw [hostAction] at he
    split at he <;> cases he <;> exact .inr (.inr ⟨_, _, rfl⟩)
  | runLoop cfg => cases he; exact .inr (.inr ⟨_, _, rfl⟩)

/-- The frame loop touches MEM and the host's own state alone; it acts on the block through the actions it issues. -/
theorem loopStep_sameButHost {l : FrameLoop} {s t : State} (he : loopStep l s = .next t) : SameButHost s t := by
  unfold loopStep at he
  split at he
  case h_1 => split at he <;> cases he <;> exact ⟨_, _, rfl⟩
  case h_2 => split at he <;> cases he <;> exact ⟨_, _, rfl⟩
  case h_3 => cases hostAccess_next he; exact ⟨_, _, rfl⟩
  case h_4 =>
    split at he
    · split at he
      · cases he; exact ⟨_, _, rfl⟩
      · cases hostAccess_next he; exact ⟨_, _, rfl⟩
    · cases he; exact ⟨_, _, rfl⟩
  all_goals cases he; exact ⟨_, _, rfl⟩

/-! ## What a step can do -/

/-- Every way a step goes through, by agent; the host's by what it is at. -/
inductive StepCase (s t : State) : Prop
  | resumed (op : PendingOp) (hop : s.pending = some op) (ht : t = resumeOp op { turnTaken s with pending := none })
  | issued (w : Word) (hn : hostNext s (.wr 0 w)) (hi : issue w (advance (turnTaken s)) = .next t)
  | wrote (n : BitVec 6) (v : Word) (hidle : s.pending = none) (ht : t = regWrite (advance (turnTaken s)) n v)
  | ownWork (hidle : s.pending = none) (ht : SameButHost (turnTaken s) t)
  | dma (ht : t = dmaStep (turnTaken s))
  | notify (k : Nat) (ht : t = notifyStep k (turnTaken s))
  | clock (ht : t = clockStep (turnTaken s))
  | source (w : Word) (ht : t = sourceStep w (turnTaken s))
  | reset (hturn : nextEvent s = .reset) (ht : t = platformReset (turnTaken s))

theorem hostStep_cases {s t : State} (hturn : nextEvent s = .host) (he : hostStep (turnTaken s) = .next t) :
    StepCase s t := by
  unfold hostStep at he
  split at he
  · next op hop =>
    cases he
    exact .resumed op (by simpa using hop) rfl
  · next hidle =>
    rw [turnTaken_pending] at hidle
    split at he
    · next act hact =>
      rw [turnTaken_host] at hact
      rcases hostAction_cases he with ⟨w, rfl, hi⟩ | ⟨n, v, ht⟩ | ht
      · exact .issued w ⟨hturn, hidle, hact⟩ hi
      · exact .wrote n v hidle ht
      · exact .ownWork hidle ht
    · split at he
      · exact .ownWork hidle (loopStep_sameButHost he)
      · cases he; exact .ownWork hidle ⟨_, _, rfl⟩

theorem step_cases {s t : State} (he : step s = .next t) : StepCase s t := by
  cases hturn : nextEvent s <;> rw [step_of_event hturn] at he
  case host => exact hostStep_cases hturn he
  all_goals cases he
  case dma => exact .dma rfl
  case notify k => exact .notify k rfl
  case clock => exact .clock rfl
  case source w => exact .source w rfl
  case reset => exact .reset hturn rfl

/-! ## The shared operations, as far as they touch the engine and the wire -/

/-- Handing over a chunk touches the engine and appends to the wire. -/
theorem bulkSend_eq (pix : List Pixel) (busy : Bool) (s : State) :
    ∃ e es, (bulkSend pix busy s).1 = { s with te := e, wire := s.wire ++ es } := by
  rcases bulkSend_cases pix busy s with ⟨-, e⟩ | ⟨-, -, e⟩ | ⟨-, -, -, e⟩ <;> rw [e]
  · exact ⟨s.te, [], by rw [List.append_nil]⟩
  · exact ⟨_, _, rfl⟩
  · exact ⟨_, _, rfl⟩

/-- A step of the channel likewise. -/
theorem dmaStep_eq (s : State) : ∃ e es, dmaStep s = { s with te := e, wire := s.wire ++ es } := by
  unfold dmaStep
  split
  · exact ⟨s.te, [], by rw [List.append_nil]⟩
  · split
    · exact ⟨_, _, rfl⟩
    · exact ⟨_, [], by rw [List.append_nil]⟩

/-- A delivery touches the engine and the count of free values, and appends to the wire. -/
theorem notifyStep_eq (k : Nat) (s : State) :
    ∃ e es v, notifyStep k s = { s with te := e, wire := s.wire ++ es, env := v } := by
  unfold notifyStep
  split
  · exact ⟨s.te, [], s.env, by rw [List.append_nil]⟩
  · next q _ =>
    rcases deliver_cases s q with ⟨-, e⟩ | ⟨-, -, junk, -, e⟩ <;> rw [e]
    · exact ⟨_, [], s.env, by rw [List.append_nil]⟩
    · exact ⟨_, _, _, rfl⟩

/-! ## What a command is made of -/

/-- The rectangle lies on the panel at its current size, the corners included. -/
def OnPanel (c : Rect) (s : State) : Prop :=
  c.x0 ≤ c.x1 ∧ c.x1 ≤ s.surf.width.toNat - 1 ∧ c.y0 ≤ c.y1 ∧ c.y1 ≤ s.surf.height.toNat - 1

/-- An armed window takes `k` more pixels. -/
def WindowTakes (k : Nat) (s : State) : Prop := s.surf.win.armed = true → k ≤ s.surf.win.remaining.toNat

/-- The surface turned to `r`: the sizes swapped when the parity of the rotation changes, no window (R270). -/
def turned (r : BitVec 2) (u : Surface) : Surface :=
  { u with
    rotation := r
    width := if rotSwaps u.rotation r then u.height else u.width
    height := if rotSwaps u.rotation r then u.width else u.height
    win := { u.win with armed := false } }

/-- Maps that a build may leave: complete, in range, no larger than the build's parameter (R47, R143). -/
def MapsOk (p : Params) (u : MapUnit) : Prop :=
  MapOk u.xmap u.dw u.sw ∧ MapOk u.ymap u.dh u.sh ∧ u.dw.toNat ≤ p.mapMax.toNat ∧ u.dh.toNat ≤ p.mapMax.toNat

/-- A property `P` kept by the updates a command is made of, each with what is known where it is made, and a property `Q` of the state a
command ends in: `P` gives it, and waiting, holding and a burst lead to it. -/
structure CommandClosed (P Q : State → Prop) : Prop where
  weaken : ∀ s, P s → Q s
  engine : ∀ s e, P s → P { s with te := e }
  wire : ∀ s es, P s → P { s with wire := s.wire ++ es }
  env : ∀ s e, P s → P { s with env := e }
  mem : ∀ s m, P s → P { s with mem := m }
  result : ∀ s r, P s → P (complete r s)
  fault : ∀ s op c, P s → P (raiseFault op c s)
  maps : ∀ s u, P s → MapsOk s.params u → P { s with rsm := u }
  disarm : ∀ s, P s → P (disarm s)
  window : ∀ s c, P s → s.params.variant = .windowedRam → OnPanel c s →
    P { s with surf := { s.surf with win := windowOf c } }
  turn : ∀ s r, P s → s.params.variant = .windowedRam → P { s with surf := turned r s.surf }
  native : ∀ s, P s → P (nativeGeometry s)
  wait : ∀ s ms ph, P s → Q { s with pending := some (.wait ms ph) }
  hold : ∀ s pix, P s → Q { s with pending := some (.bulkHold pix) }
  burst : ∀ s src total i, P s → s.params.variant = .windowedRam → WindowTakes (total - i) s →
    Q (burstFrom (total - i) src total i s)

/-! ### Rectangles of the panel -/

theorem onPanel_of_clip {s : State} {x y w h : Int} {c : Rect} (hc : clipToPanel s x y w h = some c) : OnPanel c s := by
  obtain ⟨-, -, -, -, hx, hy, hwidth, hheight, -, -⟩ := clipRect_some hc
  exact ⟨hx, Nat.le_sub_one_of_lt hwidth, hy, Nat.le_sub_one_of_lt hheight⟩

theorem fullScreen_onPanel (s : State) : OnPanel (fullScreen s) s := ⟨Nat.zero_le _, le_rfl, Nat.zero_le _, le_rfl⟩

/-- The count of a window fits its register (R45). -/
theorem OnPanel.rectCount_lt {c : Rect} {s : State} (h : OnPanel c s) : rectCount c < 2 ^ 32 := by
  obtain ⟨-, hx, -, hy⟩ := h
  have hw := s.surf.width.isLt
  have hh := s.surf.height.isLt
  have hcols : rectCols c ≤ 65535 := by unfold rectCols; omega
  have hrows : rectRows c ≤ 65535 := by unfold rectRows; omega
  calc rectCount c ≤ 65535 * 65535 := Nat.mul_le_mul hcols hrows
    _ < 2 ^ 32 := by decide

/-- A window that has just been armed takes all its pixels. -/
theorem OnPanel.windowTakes {c : Rect} {s : State} (h : OnPanel c s) : WindowTakes (rectCount c) (armWindow c s) := by
  intro _
  rw [armWindow_surf, windowOf, BitVec.toNat_ofNat, Nat.mod_eq_of_lt h.rectCount_lt]

/-! ### The shared operations -/

section
variable {P Q : State → Prop} {s : State}

theorem CommandClosed.engineWire (h : CommandClosed P Q) (e : Engine) (es : List WireEvent) (hs : P s) :
    P { s with te := e, wire := s.wire ++ es } :=
  h.wire _ es (h.engine s e hs)

theorem CommandClosed.engineEnv (h : CommandClosed P Q) (e : Engine) (v : Env) (hs : P s) :
    P { s with te := e, env := v } :=
  h.env _ v (h.engine s e hs)

theorem CommandClosed.syncSend (h : CommandClosed P Q) (d : Bool) (bytes : List Byte) (hs : P s) :
    P (Machine.syncSend d bytes s) :=
  h.engineWire _ _ hs

theorem CommandClosed.forgetScratch (h : CommandClosed P Q) (hs : P s) : P (Machine.forgetScratch s) :=
  h.engineEnv _ _ hs

theorem CommandClosed.abortTransfer (h : CommandClosed P Q) (hs : P s) : P (Machine.abortTransfer s) := by
  rcases abortTransfer_cases s with ⟨-, e⟩ | ⟨-, junk, -, e⟩ <;> rw [e]
  · exact hs
  · exact h.engineEnv _ _ (h.wire _ [.desel] (h.disarm s hs))

theorem CommandClosed.bulkSend (h : CommandClosed P Q) (pix : List Pixel) (busy : Bool) (hs : P s) :
    P (Machine.bulkSend pix busy s).1 := by
  obtain ⟨e, es, heq⟩ := bulkSend_eq pix busy s
  rw [heq]
  exact h.engineWire e es hs

theorem CommandClosed.bulkReturn (h : CommandClosed P Q) (pix : List Pixel) (busy : Bool) (hs : P s) :
    P (Machine.bulkReturn pix busy s) :=
  h.result _ _ (h.bulkSend pix busy hs)

theorem CommandClosed.armWindow (h : CommandClosed P Q) {c : Rect} (hs : P s) (hv : s.params.variant = .windowedRam)
    (hc : OnPanel c s) : P (Machine.armWindow c s) :=
  h.window _ c (h.syncSend _ _ (h.syncSend _ _ (h.syncSend _ _ (h.syncSend _ _ (h.syncSend _ _ hs))))) hv hc

/-- Arming a window and streaming its pixels into it, as DRAWIMG, FILLRECT and CLEAR do. -/
theorem CommandClosed.drawBurst (h : CommandClosed P Q) {c : Rect} (src : PixSrc) (hs : P s)
    (hv : s.params.variant = .windowedRam) (hc : OnPanel c s) :
    Q (streamBurst src (rectCount c) (Machine.armWindow c s)) :=
  h.burst _ src (rectCount c) 0 (h.armWindow hs hv hc) hv hc.windowTakes

theorem CommandClosed.sendPages (h : CommandClosed P Q) (page0 n cx0 : Nat) (row : Nat → List Byte) (hs : P s) :
    P (Machine.sendPages page0 n cx0 row s) :=
  List.foldlRecOn (motive := P) _ _ hs fun _ ht _ _ =>
    h.syncSend _ _ (h.syncSend _ _ (h.syncSend _ _ (h.syncSend _ _ ht)))

theorem CommandClosed.sendInit (h : CommandClosed P Q) (items : List InitItem) (hs : P s) :
    P (items.foldl sendInitItem s) := by
  refine List.foldlRecOn (motive := P) _ _ hs fun t ht item _ => ?_
  unfold sendInitItem
  split
  · exact h.syncSend _ _ ht
  · split
    · exact ht
    · exact h.syncSend _ _ ht

theorem CommandClosed.guarded (h : CommandClosed P Q) {op : Byte} {tests : List (Option FaultCode)} {f : State → State}
    (hs : P s) (hf : firstFault tests = none → Q (f s)) : Q (Machine.guarded op tests f s) :=
  guarded_has hf fun c => h.weaken _ (h.fault s op c hs)

/-- One step of a WAIT. -/
theorem CommandClosed.waitOp (h : CommandClosed P Q) (ms : Nat) (ph : WaitPhase) (hs : P s) :
    Q (Machine.waitOp ms ph s) := by
  unfold Machine.waitOp
  rcases waitStep_cases ms ph s with ⟨-, -, e⟩ | ⟨-, e⟩ | ⟨-, -, ph', e⟩ <;> rw [e]
  · exact h.weaken _ (h.result s true hs)
  · exact h.weaken _ (h.result _ false (h.abortTransfer hs))
  · exact h.wait s ms ph' hs

theorem CommandClosed.fillWindowed (h : CommandClosed P Q) {op : Byte} {x y w h' : Int} (col : Pixel) (hs : P s)
    (hv : s.params.variant = .windowedRam) : Q (Machine.fillWindowed op (clipToPanel s x y w h') col s) := by
  unfold Machine.fillWindowed
  split
  · exact h.weaken _ (h.result s true hs)
  · next hc => exact h.guarded hs fun _ => h.drawBurst _ hs hv (onPanel_of_clip hc)

/-! ### BUILDMAPS (R141 to R143) -/

theorem mapEntry_lt {n : Nat} (hn : 0 < n) (d q : Nat) : mapEntry d q n < n :=
  lt_of_le_of_lt (min_le_right _ _) (Nat.sub_one_lt (Nat.ne_of_gt hn))

theorem mapEntry_mono (d q n : Nat) : mapEntry d q n ≤ mapEntry (d + 1) q n :=
  min_le_min_right _ (Nat.div_le_div_right (Nat.mul_le_mul_right _ (Nat.le_succ d)))

theorem buildMap_getD {len n : Nat} (hn : 0 < n) (hmax : n ≤ maxDim) (q : Nat) {d : Nat} (hd : d < len) :
    ((buildMap len q n).getD d 0).toNat = mapEntry d q n := by
  have hlt := mapEntry_lt hn d q
  have hmax' : n ≤ 65535 := hmax
  rw [List.getD_eq_getElem _ _ (by simpa [buildMap] using hd)]
  simp only [buildMap, List.getElem_map, List.getElem_range, BitVec.toNat_ofNat]
  omega

/-- A map that has been built is valid (R143). -/
theorem buildMap_ok {len n : Nat} (hn : 0 < n) (hmax : n ≤ maxDim) (hlen : len ≤ maxDim) (q : Nat) :
    MapOk (buildMap len q n) (BitVec.ofNat 16 len) (BitVec.ofNat 16 n) := by
  have hlenNum : (BitVec.ofNat 16 len).toNat = len := Nat.mod_eq_of_lt (Nat.lt_succ_of_le hlen)
  have hnNum : (BitVec.ofNat 16 n).toNat = n := Nat.mod_eq_of_lt (Nat.lt_succ_of_le hmax)
  rw [MapOk, hlenNum, hnNum]
  refine ⟨by simp [buildMap], fun d hd => ?_, fun d hd => ?_⟩
  · rw [buildMap_getD hn hmax q hd]
    exact mapEntry_lt hn d q
  · rw [buildMap_getD hn hmax q (Nat.lt_of_succ_lt hd), buildMap_getD hn hmax q hd]
    exact mapEntry_mono d q n

theorem CommandClosed.buildmaps (h : CommandClosed P Q) {t : State} (hs : P s) (he : execBuildmaps s = .next t) : Q t := by
  cases he
  refine h.guarded hs fun hpass => h.weaken _ (h.result _ true (h.maps s _ hs ?_))
  simp only [firstFault_eq_none, List.mem_cons, List.not_mem_nil, or_false, forall_eq_or_imp, forall_eq, faultIf_eq_none,
    Bool.or_eq_false_iff, decide_eq_false_iff_not, Nat.not_lt, beq_eq_false_iff_ne] at hpass
  obtain ⟨⟨⟨⟨hsw, hsh⟩, hdw⟩, hdh⟩, ⟨hsw0, hsh0⟩, ⟨hdwMax, hdhMax⟩, -⟩ := hpass
  refine ⟨buildMap_ok (Nat.pos_of_ne_zero hsw0) hsw hdw _, buildMap_ok (Nat.pos_of_ne_zero hsh0) hsh hdh _, ?_, ?_⟩
  · exact (Nat.mod_le _ _).trans hdwMax
  · exact (Nat.mod_le _ _).trans hdhMax

/-! ### Every command -/

theorem exec_commandClosed (h : CommandClosed P Q) {i : Instr} {t : State} (hs : P s) (he : exec i s = .next t) : Q t := by
  have noOp : Q (complete true s) := h.weaken _ (h.result s true hs)
  have illegal : ∀ op, Q (raiseFault op .illegalCmd s) := fun op => h.weaken _ (h.fault s op _ hs)
  have sent : ∀ {u r}, P u → Q (complete r u) := fun hu => h.weaken _ (h.result _ _ hu)
  cases i
  case buildmaps => exact h.buildmaps hs he
  all_goals cases he
  case wrcmd b => exact h.guarded hs fun _ => sent (h.disarm _ (h.syncSend _ _ hs))
  case wrdat b => exact h.guarded hs fun _ => sent (h.disarm _ (h.syncSend _ _ hs))
  case wrbulk =>
    refine h.guarded hs fun _ => sent (h.disarm _ ?_)
    split
    · exact hs
    · exact h.syncSend _ _ hs
  case wrbulka =>
    refine h.guarded hs fun _ => ?_
    dsimp only
    split
    · exact h.hold _ _ (h.disarm s hs)
    · exact h.weaken _ (h.bulkReturn _ _ (h.disarm s hs))
  case wait ms => exact h.waitOp _ _ hs
  case abort => exact sent (h.abortTransfer hs)
  case teinit =>
    split
    · exact sent hs
    · exact sent (h.engine _ _ (h.env s _ hs))
  case tefree =>
    dsimp only
    split
    · exact sent (h.engine _ _ (h.forgetScratch (h.abortTransfer hs)))
    · exact sent (h.engine _ _ (h.abortTransfer hs))
  case setwin =>
    split
    · next hv =>
      unfold setWinWindowed
      dsimp only
      split
      · exact noOp
      · split
        · exact noOp
        · next hc => exact h.guarded hs fun _ => sent (h.armWindow hs hv (onPanel_of_clip hc))
    · exact illegal _
  case drawimg =>
    split
    · next hv =>
      unfold drawImgWindowed
      split
      · exact noOp
      · next hc => exact h.guarded hs fun _ => h.drawBurst _ hs hv (onPanel_of_clip hc)
    · unfold drawImgPaged
      split
      · exact noOp
      · exact h.guarded hs fun _ => sent (h.sendPages _ _ _ _ hs)
  case fillrect =>
    split
    · next hv => exact h.fillWindowed _ hs hv
    · unfold fillRectPaged
      split
      · exact noOp
      · exact h.guarded hs fun _ => sent (h.sendPages _ _ _ _ hs)
  case setrot rot =>
    split
    · next hv =>
      refine h.guarded hs fun _ => ?_
      have hturned := h.turn _ rot (h.syncSend true [orientByte s.params.orient rot]
        (h.syncSend false [s.params.opMadctl] hs)) hv
      dsimp only
      split
      · next hswap =>
        simp only [turned, syncSend_surf, hswap, if_true] at hturned
        exact sent (h.armWindow hturned hv (fullScreen_onPanel _))
      · next hswap =>
        simp only [turned, syncSend_surf, hswap] at hturned
        exact sent hturned
    · exact h.guarded hs fun _ => noOp
  case pushpix =>
    split
    · next hv =>
      refine h.guarded hs fun hpass => h.burst s _ _ 0 hs hv fun _ => ?_
      simp only [firstFault_cons, faultIf_eq_none, decide_eq_false_iff_not, Nat.not_lt] at hpass
      obtain ⟨-, -, -, hroom, -⟩ := hpass
      exact hroom
    · exact illegal _
  case clear =>
    split
    · next hv => exact h.fillWindowed _ hs hv
    · exact h.guarded hs fun _ => sent (h.sendPages _ _ _ _ hs)
  case surfinit => exact h.guarded hs fun _ => sent (h.native _ (h.env _ _ (h.sendInit _ hs)))
  case resample => exact h.guarded hs fun _ => sent (h.mem s _ hs)
  case dithb => exact h.guarded hs fun _ => sent (h.mem s _ hs)
  case dithfs => exact h.guarded hs fun _ => sent (h.mem s _ hs)

/-- Issuing a word. -/
theorem issue_commandClosed (h : CommandClosed P Q) {w : Word} {t : State} (hs : P s) (he : issue w s = .next t) :
    Q t := by
  rcases issue_cases w s with ⟨-, e⟩ | ⟨hf, e⟩ | ⟨-, i, -, e⟩ <;> rw [e] at he
  · cases he; exact h.weaken _ hs
  · cases he
    rw [← raiseFault_fresh hf]
    exact h.weaken _ (h.fault s _ _ hs)
  · exact exec_commandClosed h hs he

/-- Going on with an operation, given what a burst does. -/
theorem resumeOp_commandClosed (h : CommandClosed P Q) {op : PendingOp} (hs : P s)
    (hburst : ∀ src total i n ph, op = .burst src total i n ph → Q (burstOp src total i n ph s)) : Q (resumeOp op s) := by
  cases op with
  | wait ms ph => exact h.waitOp ms ph hs
  | bulkHold pix =>
    rw [resumeOp, bulkHoldOp]
    split
    · exact h.hold s pix hs
    · exact h.weaken _ (h.bulkReturn pix true hs)
  | burst src total i n ph => exact hburst src total i n ph rfl

/-! ### Every step -/

/-- A property that every update of the machine but reset keeps, whatever the rest of the state: a fault and a build of maps with what is
known where they are made. -/
structure OpClosed (P : State → Prop) : Prop where
  engine : ∀ s e, P s → P { s with te := e }
  wire : ∀ s es, P s → P { s with wire := s.wire ++ es }
  env : ∀ s e, P s → P { s with env := e }
  mem : ∀ s m, P s → P { s with mem := m }
  surf : ∀ s u, P s → P { s with surf := u }
  pending : ∀ s o, P s → P { s with pending := o }
  host : ∀ s u, P s → P { s with host := u }
  result : ∀ s r, P s → P (complete r s)
  fault : ∀ s op c, P s → P (raiseFault op c s)
  maps : ∀ s u, P s → MapsOk s.params u → P { s with rsm := u }
  regs : ∀ s n v, P s → P (regWrite s n v)

theorem OpClosed.bulkSend (h : OpClosed P) (pix : List Pixel) (busy : Bool) (hs : P s) :
    P (Machine.bulkSend pix busy s).1 := by
  obtain ⟨e, es, heq⟩ := bulkSend_eq pix busy s
  rw [heq]
  exact h.wire _ es (h.engine s e hs)

theorem OpClosed.burst (h : OpClosed P) (src : PixSrc) (total i : Nat) (hs : P s) :
    P (burstFrom (total - i) src total i s) := by
  refine burstFrom_induction (p := s.params) (P := fun _ u => P u ∧ u.params = s.params) (fun _ _ hu => hu.2)
    ?_ ?_ ?_ (total - i) i s le_rfl ⟨hs, rfl⟩
  · rintro i u ⟨hu, hparams⟩ - r rfl -
    exact ⟨h.surf _ _ (h.bulkSend _ _ hu), ((bulkSend_frame _ _ u).params).trans hparams⟩
  · rintro i u ⟨hu, -⟩ - r rfl -
    exact h.pending _ _ (h.surf _ _ (h.bulkSend _ _ hu))
  · rintro i u ⟨hu, -⟩ -
    unfold burstDone
    split
    · exact h.result _ _ (h.surf _ _ hu)
    · exact h.result _ _ hu

theorem OpClosed.commandClosed (h : OpClosed P) : CommandClosed P P where
  weaken _ hs := hs
  engine := h.engine
  wire := h.wire
  env := h.env
  mem := h.mem
  result := h.result
  fault := h.fault
  maps := h.maps
  disarm s := h.surf s _
  window s _ hs _ _ := h.surf s _ hs
  turn s _ hs _ := h.surf s _ hs
  native s := h.surf s _
  wait s _ _ := h.pending s _
  hold s _ := h.pending s _
  burst _ src total i hs _ _ := h.burst src total i hs

theorem OpClosed.resumeOp (h : OpClosed P) (op : PendingOp) (hs : P s) : P (Machine.resumeOp op s) := by
  refine resumeOp_commandClosed h.commandClosed hs fun src total i n ph _ => ?_
  unfold burstOp
  rcases waitStep_cases s.params.xferTimeoutMs.toNat ph s with ⟨-, -, e⟩ | ⟨-, e⟩ | ⟨-, -, ph', e⟩ <;> rw [e]
  · exact h.burst src total (i + n) hs
  · exact h.result _ false (h.surf _ _ (h.commandClosed.abortTransfer hs))
  · exact h.pending s _ hs

/-- Such a property is kept by every step, when the platform's reset restores it. -/
theorem OpClosed.step (h : OpClosed P) {t : State} (hs : P s)
    (hreset : nextEvent s = .reset → P (platformReset (turnTaken s))) (he : Machine.step s = .next t) : P t := by
  have hturn : P (turnTaken s) := by
    rw [turnTaken_eq]
    exact h.env s _ hs
  have hadv : P (advance (turnTaken s)) := h.host _ _ hturn
  cases step_cases he with
  | resumed op _ ht => exact ht ▸ h.resumeOp op (h.pending _ none hturn)
  | issued w _ hi => exact issue_commandClosed h.commandClosed hadv hi
  | wrote n v _ ht => exact ht ▸ h.regs _ n v hadv
  | ownWork _ ht =>
    obtain ⟨m, u, rfl⟩ := ht
    exact h.host _ u (h.mem _ m hturn)
  | dma ht =>
    obtain ⟨e, es, heq⟩ := dmaStep_eq (turnTaken s)
    rw [ht, heq]
    exact h.wire _ es (h.engine _ e hturn)
  | notify k ht =>
    obtain ⟨e, es, v, heq⟩ := notifyStep_eq k (turnTaken s)
    rw [ht, heq]
    exact h.env _ v (h.wire _ es (h.engine _ e hturn))
  | clock ht => exact ht ▸ h.engine _ _ hturn
  | source w ht => exact ht ▸ h.host _ _ hturn
  | reset hturned ht => exact ht ▸ hreset hturned

end

/-! ## What is already on the wire stays (R43, R80) -/

/-- The wire carries `sent` and then possibly more. -/
def WireExtends (sent : List WireEvent) (s : State) : Prop := ∃ es, s.wire = sent ++ es

theorem wireExtends_opClosed (sent : List WireEvent) : OpClosed (WireExtends sent) where
  engine _ _ h := h
  wire s es h := by
    obtain ⟨es', hwire⟩ := h
    exact ⟨es' ++ es, by rw [hwire, List.append_assoc]⟩
  env _ _ h := h
  mem _ _ h := h
  surf _ _ h := h
  pending _ _ h := h
  host _ _ h := h
  result _ _ h := h
  fault s op c h := by rwa [WireExtends, raiseFault_wire]
  maps _ _ h _ := h
  regs _ _ _ h := h

/-! ## The maps (R47, R143) -/

theorem mapInv_opClosed : OpClosed MapInv where
  engine _ _ h := h
  wire _ _ h := h
  env _ _ h := h
  mem _ _ h := h
  surf _ _ h := h
  pending _ _ h := h
  host _ _ h := h
  result _ _ h := h
  fault s op c h := by rwa [MapInv, raiseFault_rsm, raiseFault_params]
  maps _ _ _ hu _ := hu
  regs _ _ _ h := h

theorem platformReset_mapInv (s : State) : MapInv (platformReset s) := nofun

/-! ## The fault register (R28, R340) -/

theorem faultInv_opClosed : OpClosed FaultInv where
  engine _ _ h := h
  wire _ _ h := h
  env _ _ h := h
  mem _ _ h := h
  surf _ _ h := h
  pending _ _ h := h
  host _ _ h := h
  result _ _ h := h
  fault s op c h := by
    cases hf : s.port.faulted with
    | true => rwa [raiseFault_stuck hf]
    | false =>
      rw [raiseFault_fresh hf]
      exact ⟨nofun, fun _ => ⟨op, c, rfl⟩⟩
  maps _ _ h _ := h
  regs s n v h := by
    have frame := portWrite_frame s.port n v
    rwa [FaultInv, regWrite, frame.fault, frame.faulted]

theorem platformReset_faultInv (s : State) : FaultInv (platformReset s) := ⟨fun _ => rfl, nofun⟩

/-- What a step keeps of the fault register, and of `RES` when no operation is in progress, once a fault has been taken. -/
structure FaultKept (s t : State) : Prop where
  faulted : t.port.faulted = s.port.faulted
  fault : t.port.fault = s.port.fault
  res : s.pending = none → t.port.res = s.port.res

theorem FaultKept.of_port_eq {s t : State} (h : t.port = s.port) : FaultKept s t :=
  ⟨by rw [h], by rw [h], fun _ => by rw [h]⟩

/-- After a fault no step but reset changes the fault register (R347). -/
theorem step_faultKept {s t : State} (hf : s.port.faulted = true) (hn : nextEvent s ≠ .reset) (he : step s = .next t) :
    FaultKept s t := by
  cases step_cases he with
  | resumed op hop ht =>
    have hport := (resumeOp_sameButRes op { turnTaken s with pending := none }).port
    rw [← ht] at hport
    simp only [turnTaken_port] at hport
    exact ⟨by rw [hport], by rw [hport], fun hidle => by simp [hidle] at hop⟩
  | issued w hnext _ =>
    rw [step_command_ignored hnext hf] at he
    cases he
    exact .of_port_eq (turnTaken_port s)
  | wrote n v _ ht =>
    have frame := portWrite_frame s.port n v
    have hport : t.port = portWrite s.port n v := by rw [ht, regWrite, advance_port, turnTaken_port]
    exact ⟨by rw [hport, frame.faulted], by rw [hport, frame.fault], fun _ => by rw [hport, frame.res]⟩
  | ownWork _ ht =>
    obtain ⟨m, u, rfl⟩ := ht
    exact .of_port_eq (turnTaken_port s)
  | dma ht => exact .of_port_eq (by rw [ht, dmaStep_port, turnTaken_port])
  | notify k ht => exact .of_port_eq (by rw [ht, notifyStep_port, turnTaken_port])
  | clock ht => exact .of_port_eq (by rw [ht, clockStep_port, turnTaken_port])
  | source w ht => exact .of_port_eq (by rw [ht, sourceStep_port, turnTaken_port])
  | reset hturn _ => exact absurd hturn hn

end Sys2Proof.Machine

namespace Sys2Proof.Proofs

open Sys2Proof.Machine

/-- Settles O7: what stays by the cases of a step, the form of `FAULT` update by update. -/
theorem faultIsStickyUntilReset : Obligations.FaultIsStickyUntilReset := by
  unfold Obligations.FaultIsStickyUntilReset
  refine ⟨fun s w hn hf => step_command_ignored hn hf, fun s t hf hn he => ?_, fun s t hs he => ?_⟩
  · obtain ⟨hfaulted, hfault, hres⟩ := step_faultKept hf hn he
    exact ⟨hfaulted.trans hf, hfault, hres⟩
  · exact faultInv_opClosed.step hs (fun _ => platformReset_faultInv _) he

/-- Settles O10, update by update of the wire. -/
theorem wireOnlyGrows : Obligations.WireOnlyGrows := by
  unfold Obligations.WireOnlyGrows
  intro s t hn he
  exact (wireExtends_opClosed s.wire).step ⟨[], (List.append_nil _).symm⟩ (fun hturn => absurd hturn hn) he

/-- Settles O47: BUILDMAPS alone writes the maps. -/
theorem mapInvariantKept : Obligations.MapInvariantKept := by
  unfold Obligations.MapInvariantKept
  exact fun s t hs he => mapInv_opClosed.step hs (fun _ => platformReset_mapInv _) he

end Sys2Proof.Proofs

/-! # The surface from step to step: geometry, window and burst (R44, R45, R253, R262) -/

namespace Sys2Proof.Machine

/-! ## The surface with no operation in progress -/

/-- What `SurfaceInv` says of a state in which no operation is in progress. -/
def SurfaceResting (s : State) : Prop := s.pending = none ∧ s.params.wf = true ∧ GeometryInv s ∧ WindowInv s

theorem SurfaceInv.resting {s : State} (h : SurfaceInv s) (hidle : s.pending = none) : SurfaceResting s :=
  ⟨hidle, h.params, h.geometry, h.window⟩

theorem SurfaceResting.surfaceInv {s : State} (h : SurfaceResting s) : SurfaceInv s := by
  obtain ⟨hidle, hparams, hgeom, hwin⟩ := h
  refine ⟨hparams, hgeom, hwin, ?_⟩
  rw [BurstInv, hidle]
  trivial

/-- A burst left in progress: what it must satisfy beyond the resting surface. -/
theorem SurfaceResting.park_burst {s : State} (h : SurfaceResting s) (hv : s.params.variant = .windowedRam)
    {total i n : Nat} (hn : 1 ≤ n) (hle : i + n ≤ total) (hroom : WindowTakes (total - (i + n)) s) (src : PixSrc)
    (ph : WaitPhase) : SurfaceInv { s with pending := some (.burst src total i n ph) } := by
  obtain ⟨-, hparams, hgeom, hwin⟩ := h
  exact ⟨hparams, hgeom, hwin, hv, hn, hle, hroom⟩

/-- The invariant is about the parameters, the surface and the operation in progress. -/
theorem SurfaceInv.congr {s t : State} (h : SurfaceInv s) (hparams : t.params = s.params) (hsurf : t.surf = s.surf)
    (hpending : t.pending = s.pending) : SurfaceInv t := by
  obtain ⟨hp, hgeom, hwin, hburst⟩ := h
  constructor
  · rwa [hparams]
  · rwa [GeometryInv, hparams, hsurf]
  · rwa [WindowInv, hparams, hsurf]
  · rwa [BurstInv, hpending, hparams, hsurf]

/-! ## Sizes and windows -/

/-- In an admitted build the panel has a pixel, and a chunk has one. -/
theorem wf_sizes {p : Params} (hp : p.wf = true) : 1 ≤ p.nativeW.toNat ∧ 1 ≤ p.nativeH.toNat ∧ 1 ≤ p.chunkPix := by
  simp only [Params.wf, Params.chunkFits, Bool.and_eq_true, decide_eq_true_eq] at hp
  obtain ⟨⟨⟨⟨⟨⟨⟨hw, hh⟩, -⟩, hchunk, -⟩, -⟩, -⟩, -⟩, -⟩ := hp
  exact ⟨hw, hh, hchunk⟩

/-- So has the panel as it is turned. -/
theorem GeometryInv.size_pos {s : State} (h : GeometryInv s) (hp : s.params.wf = true) :
    1 ≤ s.surf.width.toNat ∧ 1 ≤ s.surf.height.toNat := by
  obtain ⟨hw, hh, -⟩ := wf_sizes hp
  obtain ⟨hsize, -⟩ := h
  split at hsize <;> obtain ⟨ew, eh⟩ := Prod.mk.inj hsize <;> rw [ew, eh]
  · exact ⟨hw, hh⟩
  · exact ⟨hh, hw⟩

/-- A rectangle of the panel makes a window that satisfies R45 (R257). -/
theorem windowOf_windowInv {s : State} {c : Rect} (hv : s.params.variant = .windowedRam) (hc : OnPanel c s)
    (hw : 1 ≤ s.surf.width.toNat) (hh : 1 ≤ s.surf.height.toNat) :
    WindowInv { s with surf := { s.surf with win := windowOf c } } := by
  intro _
  have hcount : (BitVec.ofNat 32 (rectCount c)).toNat = rectCount c := by
    rw [BitVec.toNat_ofNat, Nat.mod_eq_of_lt hc.rectCount_lt]
  obtain ⟨hx, hx1, hy, hy1⟩ := hc
  have hwlt := s.surf.width.isLt
  have hhlt := s.surf.height.isLt
  have small : ∀ k, k < 2 ^ 16 → (BitVec.ofNat 16 k).toNat = k := fun k hk => by
    rw [BitVec.toNat_ofNat, Nat.mod_eq_of_lt hk]
  simp only [windowOf, hcount, small c.x0 (by omega), small c.x1 (by omega), small c.y0 (by omega),
    small c.y1 (by omega)]
  exact ⟨hv, hx, by omega, hy, by omega, rfl, le_rfl⟩

/-- Turning the panel keeps the size in step with the rotation (R44, R270). -/
theorem turned_geometryInv {s : State} (h : GeometryInv s) (hv : s.params.variant = .windowedRam) (r : BitVec 2) :
    GeometryInv { s with surf := turned r s.surf } := by
  obtain ⟨hsize, -⟩ := h
  refine ⟨?_, fun hpaged => by simp [hv] at hpaged⟩
  have hswap : rotSwaps s.surf.rotation r = true ↔ r.toNat % 2 ≠ s.surf.rotation.toNat % 2 := by simp [rotSwaps]
  simp only [turned, hswap]
  by_cases hold : s.surf.rotation.toNat % 2 = 0 <;> by_cases hnew : r.toNat % 2 = 0 <;>
    simp_all

/-- Handing over no more than the window takes keeps its count in range (R253). -/
theorem takePixels_remaining {s : State} {k n : Nat} (hroom : WindowTakes k s) (hn : n ≤ k)
    (harmed : s.surf.win.armed = true) :
    (takePixels n s).surf.win.remaining.toNat = s.surf.win.remaining.toNat - n := by
  have hk := hroom harmed
  have hlt := s.surf.win.remaining.isLt
  simp only [takePixels_surf, BitVec.toNat_sub, BitVec.toNat_ofNat]
  omega

theorem takePixels_takes {s : State} {k n : Nat} (hroom : WindowTakes k s) (hn : n ≤ k) :
    WindowTakes (k - n) (takePixels n s) := by
  intro harmed
  rw [takePixels_remaining hroom hn harmed]
  exact Nat.sub_le_sub_right (hroom harmed) n

theorem takePixels_resting {s : State} {k n : Nat} (h : SurfaceResting s) (hroom : WindowTakes k s) (hn : n ≤ k) :
    SurfaceResting (takePixels n s) := by
  obtain ⟨hidle, hparams, hgeom, hwin⟩ := h
  refine ⟨hidle, hparams, hgeom, fun harmed => ?_⟩
  obtain ⟨hv, hx, hx1, hy, hy1, htotal, hrem⟩ := hwin harmed
  refine ⟨hv, hx, hx1, hy, hy1, htotal, ?_⟩
  rw [takePixels_remaining hroom hn harmed]
  exact (Nat.sub_le _ _).trans hrem

/-! ## A burst (R262) -/

/-- Where a burst stands between two chunks: nothing else in progress, and the window takes the rest. -/
structure BurstResting (total i : Nat) (s : State) : Prop where
  resting : SurfaceResting s
  windowed : s.params.variant = .windowedRam
  room : WindowTakes (total - i) s

/-- After a chunk it stands `n` pixels further. -/
theorem BurstResting.chunk {total i : Nat} {s : State} (h : BurstResting total i s) {n : Nat} (hn : n ≤ total - i)
    (pix : List Pixel) (busy : Bool) : BurstResting total (i + n) (takePixels n (bulkSend pix busy s).1) := by
  obtain ⟨e, es, heq⟩ := bulkSend_eq pix busy s
  rw [heq]
  refine ⟨takePixels_resting (k := total - i) h.resting h.room hn, h.windowed, ?_⟩
  have hrest := takePixels_takes (s := { s with te := e, wire := s.wire ++ es }) h.room hn
  rwa [Nat.sub_sub] at hrest

theorem disarm_resting {s : State} (h : SurfaceResting s) : SurfaceResting (disarm s) := by
  obtain ⟨hidle, hparams, hgeom, -⟩ := h
  exact ⟨hidle, hparams, hgeom, nofun⟩

theorem burstFrom_surfaceInv {src : PixSrc} {total i : Nat} {s : State} (h : BurstResting total i s) :
    SurfaceInv (burstFrom (total - i) src total i s) := by
  obtain ⟨-, -, hpix⟩ := wf_sizes h.resting.2.1
  refine burstFrom_induction (p := s.params) (P := fun i u => BurstResting total i u ∧ u.params = s.params)
    (fun _ _ hu => hu.2) ?_ ?_ ?_ (total - i) i s le_rfl ⟨h, rfl⟩
  · rintro i u ⟨hu, hparams⟩ - r rfl -
    exact ⟨hu.chunk (min_le_right _ _) _ _, ((bulkSend_frame _ _ u).params).trans hparams⟩
  · rintro i u ⟨hu, -⟩ hi r rfl -
    obtain ⟨hrest, hv, hroom⟩ := hu.chunk (min_le_right s.params.chunkPix (total - i))
      (pixChunk u.mem src i (min s.params.chunkPix (total - i))) false
    exact hrest.park_burst hv (by omega) (by omega) hroom src .start
  · rintro i u ⟨hu, -⟩ -
    unfold burstDone
    split
    · exact (disarm_resting hu.resting).surfaceInv.congr rfl rfl rfl
    · exact hu.resting.surfaceInv.congr rfl rfl rfl

/-! ## Every command, and every operation in progress -/

theorem surface_commandClosed : CommandClosed SurfaceResting SurfaceInv where
  weaken _ h := h.surfaceInv
  engine _ _ h := h
  wire _ _ h := h
  env _ _ h := h
  mem _ _ h := h
  result _ _ h := h
  fault s op c h := by
    cases hf : s.port.faulted with
    | true => rwa [raiseFault_stuck hf]
    | false => rwa [raiseFault_fresh hf]
  maps _ _ h _ := h
  disarm _ h := disarm_resting h
  window s c h hv hc := by
    obtain ⟨hidle, hparams, hgeom, -⟩ := h
    obtain ⟨hw, hh⟩ := hgeom.size_pos hparams
    exact ⟨hidle, hparams, hgeom, windowOf_windowInv hv hc hw hh⟩
  turn s r h hv := by
    obtain ⟨hidle, hparams, hgeom, -⟩ := h
    exact ⟨hidle, hparams, turned_geometryInv hgeom hv r, nofun⟩
  native s h := by
    obtain ⟨hidle, hparams, -, -⟩ := h
    exact ⟨hidle, hparams, ⟨rfl, fun _ => rfl⟩, nofun⟩
  wait s ms ph h := by
    obtain ⟨-, hparams, hgeom, hwin⟩ := h
    exact ⟨hparams, hgeom, hwin, trivial⟩
  hold s pix h := by
    obtain ⟨-, hparams, hgeom, hwin⟩ := h
    exact ⟨hparams, hgeom, hwin, trivial⟩
  burst s src total i h hv hroom := burstFrom_surfaceInv ⟨h, hv, hroom⟩

/-- A step of the host inside a burst: the wait goes on, the burst goes on, or the transfer has timed out (R262, R263). -/
theorem burstOp_surfaceInv {src : PixSrc} {total i n : Nat} {ph : WaitPhase} {s : State}
    (h : BurstResting total (i + n) s) (hn : 1 ≤ n) (hle : i + n ≤ total) :
    SurfaceInv (burstOp src total i n ph s) := by
  unfold burstOp
  rcases waitStep_cases s.params.xferTimeoutMs.toNat ph s with ⟨-, -, e⟩ | ⟨-, e⟩ | ⟨-, -, ph', e⟩ <;> rw [e]
  · exact burstFrom_surfaceInv h
  · have hrest := disarm_resting (surface_commandClosed.abortTransfer h.resting)
    exact hrest.surfaceInv.congr rfl rfl rfl
  · exact h.resting.park_burst h.windowed hn hle h.room src ph'

theorem resumeOp_surfaceInv {s : State} {op : PendingOp} (h : SurfaceInv s) (hop : s.pending = some op) :
    SurfaceInv (resumeOp op { s with pending := none }) := by
  have hrest : SurfaceResting { s with pending := none } := ⟨rfl, h.params, h.geometry, h.window⟩
  refine resumeOp_commandClosed surface_commandClosed hrest fun src total i n ph e => ?_
  have hburst := h.burst
  rw [BurstInv, hop, e] at hburst
  obtain ⟨hv, hn, hle, hroom⟩ := hburst
  exact burstOp_surfaceInv ⟨hrest, hv, hroom⟩ hn hle

/-! ## Every step -/

theorem platformReset_surfaceInv {s : State} (hp : s.params.wf = true) : SurfaceInv (platformReset s) :=
  (resetWith_surfaceInv hp (freeUnspec s)).congr rfl rfl rfl

theorem step_surfaceInv {s t : State} (h : SurfaceInv s) (he : step s = .next t) : SurfaceInv t := by
  have hturn : SurfaceInv (turnTaken s) := h.congr (turnTaken_params s) (turnTaken_surf s) (turnTaken_pending s)
  cases step_cases he with
  | resumed op hop ht => exact ht ▸ resumeOp_surfaceInv hturn ((turnTaken_pending s).trans hop)
  | issued w hn hi =>
    obtain ⟨-, hidle, -⟩ := hn
    have hrest := hturn.resting ((turnTaken_pending s).trans hidle)
    exact issue_commandClosed surface_commandClosed (s := advance (turnTaken s)) hrest hi
  | wrote n v _ ht => exact hturn.congr (by rw [ht]; rfl) (by rw [ht]; rfl) (by rw [ht]; rfl)
  | ownWork _ ht =>
    obtain ⟨m, u, rfl⟩ := ht
    exact hturn.congr rfl rfl rfl
  | dma ht => exact hturn.congr (by rw [ht, dmaStep_params]) (by rw [ht, dmaStep_surf]) (by rw [ht, dmaStep_pending])
  | notify k ht =>
    exact hturn.congr (by rw [ht, notifyStep_params]) (by rw [ht, notifyStep_surf]) (by rw [ht, notifyStep_pending])
  | clock ht => exact ht ▸ hturn.congr rfl rfl rfl
  | source w ht => exact ht ▸ hturn.congr rfl rfl rfl
  | reset _ ht => exact ht ▸ platformReset_surfaceInv hturn.params

end Sys2Proof.Machine

namespace Sys2Proof.Proofs

open Sys2Proof.Machine

/-- Settles O41, by the cases of a step. -/
theorem surfaceInvariantKept : Obligations.SurfaceInvariantKept := by
  unfold Obligations.SurfaceInvariantKept
  exact fun s t => step_surfaceInv

end Sys2Proof.Proofs

/-! # The transfer in flight and the burst, byte by byte (R211, R262, R263) -/

namespace Sys2Proof.Machine

/-! ## A step of the channel -/

/-- One more of a list is its next element. -/
theorem take_succ_eq_append_getD {α : Type} {l : List α} {k : Nat} (h : k < l.length) (d : α) :
    l.take (k + 1) = l.take k ++ [l.getD k d] := by
  rw [List.take_add_one, List.getElem?_eq_getElem h, List.getD_eq_getElem _ _ h, Option.toList_some]

/-- Everything a step of the channel can do (R230, R231): nothing, a shift, or the finish. -/
theorem dmaStep_cases (s : State) :
    (s.te.dma = none ∧ dmaStep s = s) ∨
    (∃ r, s.te.dma = some r ∧ r.pos < r.len ∧
      dmaStep s = { s with
        wire := s.wire ++ [.byte true (s.te.scratch.getD r.pos 0)]
        te := { s.te with dma := some { r with pos := r.pos + 1 } } }) ∨
    (∃ r, s.te.dma = some r ∧ r.len ≤ r.pos ∧
      dmaStep s = { s with te := { s.te with dma := none, notePending := noteAdd r.seq s.te.notePending } }) := by
  unfold dmaStep
  split
  · next hnone => exact .inl ⟨hnone, rfl⟩
  · next r hr =>
    split
    · next hlt => exact .inr (.inl ⟨r, hr, hlt, rfl⟩)
    · next hge => exact .inr (.inr ⟨r, hr, Nat.le_of_not_lt hge, rfl⟩)

/-- The byte the channel shifts next lies in the scratch buffer. -/
theorem EngineInv.pos_lt_scratch {s : State} (h : EngineInv s) {r : DmaRec} (hr : s.te.dma = some r)
    (hlt : r.pos < r.len) : r.pos < s.te.scratch.length := by
  obtain ⟨-, -, -, -, hfits, -⟩ := h.inFlight r hr
  rw [h.scratch]
  exact hlt.trans_le hfits

/-- Once the completion of the current transfer is pending, no record stands (R52). -/
theorem EngineInv.no_record_of_pending {s : State} (h : EngineInv s) (hq : s.te.xferSeq ∈ s.te.notePending) :
    s.te.dma = none := by
  rw [Option.eq_none_iff_forall_ne_some]
  exact fun r hr => h.record_not_pending hr hq

/-! ## The bytes of the transfer in flight (R211) -/

theorem flightInv_of_no_record {s : State} (h : s.te.dma = none) : FlightInv s :=
  fun _ hr => absurd (h.symm.trans hr) nofun

theorem FlightInv.congr {s t : State} (h : FlightInv s) (hdma : t.te.dma = s.te.dma)
    (hscratch : t.te.scratch = s.te.scratch) (hwire : t.wire = s.wire) : FlightInv t := by
  rwa [FlightInv, hdma, hscratch, hwire]

/-- A transfer is armed with nothing shifted, and its frame has just been opened (R206). -/
theorem armTransfer_flightInv (pix : List Pixel) (s : State) : FlightInv (armTransfer pix s) := by
  intro r hr
  obtain rfl := Option.some.inj hr
  exact ⟨s.wire, rfl⟩

theorem abortTransfer_flightInv {s : State} (h : FlightInv s) : FlightInv (abortTransfer s) := by
  rcases abortTransfer_cases s with ⟨-, e⟩ | ⟨-, junk, -, e⟩ <;> rw [e]
  · exact h
  · exact flightInv_of_no_record rfl

/-- A shift puts the next byte of `scratch` on the wire; the finish forgets the record (R230, R231). -/
theorem dmaStep_flightInv {s : State} (hs : EngineInv s) (h : FlightInv s) : FlightInv (dmaStep s) := by
  rcases dmaStep_cases s with ⟨-, e⟩ | ⟨r, hr, hlt, e⟩ | ⟨r, -, -, e⟩ <;> rw [e]
  · exact h
  · intro r' hr'
    obtain rfl := Option.some.inj hr'
    obtain ⟨before, hwire⟩ := h r hr
    refine ⟨before, ?_⟩
    dsimp only
    rw [take_succ_eq_append_getD (hs.pos_lt_scratch hr hlt) 0, hwire, List.map_append, List.append_assoc,
      List.cons_append, List.map_singleton]
  · exact flightInv_of_no_record rfl

/-- The current completion comes after the record is gone; a stale one changes neither the record nor the wire (R232, R234). -/
theorem notifyStep_flightInv {s : State} (hs : EngineInv s) (h : FlightInv s) (k : Nat) : FlightInv (notifyStep k s) := by
  unfold notifyStep
  split
  · exact h
  · next q hq =>
    rcases deliver_cases s q with ⟨-, e⟩ | ⟨-, rfl, junk, -, e⟩ <;> rw [e]
    · exact h.congr rfl rfl rfl
    · exact flightInv_of_no_record (hs.no_record_of_pending (List.mem_of_getElem? hq))

/-- The bytes in flight, with the engine's own invariant, which they rest on. -/
def FlightSafe (s : State) : Prop := EngineInv s ∧ FlightInv s

theorem flightSafe_dataClosed : DataClosed FlightSafe where
  port _ _ h := ⟨engineInv_dataClosed.port _ _ h.1, h.2⟩
  surf _ _ h := ⟨engineInv_dataClosed.surf _ _ h.1, h.2⟩
  rsm _ _ h := ⟨engineInv_dataClosed.rsm _ _ h.1, h.2⟩
  mem _ _ h := ⟨engineInv_dataClosed.mem _ _ h.1, h.2⟩
  pending _ _ h := ⟨engineInv_dataClosed.pending _ _ h.1, h.2⟩
  host _ _ h := ⟨engineInv_dataClosed.host _ _ h.1, h.2⟩
  env _ _ h := ⟨engineInv_dataClosed.env _ _ h.1, h.2⟩

/-- Only arming opens a record; what else the engine does, it does with none, or leaves the record and the wire alone. -/
theorem flightSafe_engineClosed : EngineClosed FlightSafe FlightSafe where
  inside := flightSafe_dataClosed
  ends := flightSafe_dataClosed
  weaken _ h := h
  chunk _ h := h.1.chunk
  send _ d bytes h hfree _ :=
    ⟨syncSend_engineInv h.1 hfree d bytes, flightInv_of_no_record (h.1.at_rest hfree).2.2⟩
  arm s pix h _ hok hne hfits := ⟨armTransfer_engineInv h.1 hok hne hfits, armTransfer_flightInv pix s⟩
  abort _ h := ⟨abortTransfer_engineInv h.1, abortTransfer_flightInv h.2⟩
  claim s ok h hok hinit := ⟨engineInv_engineClosed.claim s ok h.1 hok hinit, h.2⟩
  free s junk h hfree hjunk :=
    ⟨engineInv_engineClosed.free s junk h.1 hfree hjunk, flightInv_of_no_record (h.1.at_rest hfree).2.2⟩

theorem step_flightSafe {s t : State} (h : FlightSafe s) (he : step s = .next t) : FlightSafe t := by
  refine step_engineClosed flightSafe_engineClosed h (fun _ hs => ?_) (fun k _ hs => ?_) (fun hs => ?_) (fun _ => ?_) he
  · exact ⟨dmaStep_engineInv hs.1, dmaStep_flightInv hs.1 hs.2⟩
  · exact ⟨notifyStep_engineInv hs.1 k, notifyStep_flightInv hs.1 hs.2 k⟩
  · exact ⟨clockStep_engineInv hs.1, hs.2⟩
  · refine ⟨platformReset_engineInv ?_, flightInv_of_no_record rfl⟩
    rw [turnTaken_params]
    exact h.1.chunk

/-! ## The bytes of a burst on the channel (R262) -/

/-- The bytes of `m` pixels of a burst from number `k`, in the order of the DMA path, with the line high. -/
def burstBytes (s : State) (src : PixSrc) (k m : Nat) : List (Bool × Byte) :=
  (pixRunBytes s.params.pixOrderDma (pixChunk s.mem src k m)).map fun b => (true, b)

@[simp] theorem burstBytes_length (s : State) (src : PixSrc) (k m : Nat) : (burstBytes s src k m).length = 2 * m := by
  rw [burstBytes, List.length_map, pixRunBytes_length, pixChunk_length]

theorem burstBytes_append (s : State) (src : PixSrc) (k m n : Nat) :
    burstBytes s src k (m + n) = burstBytes s src k m ++ burstBytes s src (k + m) n := by
  rw [burstBytes, pixChunk_append, pixRunBytes_append, List.map_append, burstBytes, burstBytes]

theorem burstBytes_congr {s t : State} (hparams : t.params = s.params) (hmem : t.mem = s.mem) :
    burstBytes t = burstBytes s := by
  funext src k m
  rw [burstBytes, burstBytes, hparams, hmem]

/-- The chunk of `n` pixels from number `i` is being shifted: all before it is on the wire, and of it what the channel has shifted. -/
def ChunkInFlight (base : List (Bool × Byte)) (src : PixSrc) (i n : Nat) (s : State) : Prop :=
  ∃ r, s.te.dma = some r ∧ r.len = 2 * n ∧
    (s.te.scratch.take r.len).map (fun b => (true, b)) = burstBytes s src i n ∧
    logical s.wire = base ++ burstBytes s src 0 i ++ (burstBytes s src i n).take r.pos

/-- The channel has shifted all of the first `k` pixels and has no record. -/
def ChunksShifted (base : List (Bool × Byte)) (src : PixSrc) (k : Nat) (s : State) : Prop :=
  s.te.dma = none ∧ logical s.wire = base ++ burstBytes s src 0 k

theorem ChunkInFlight.congr {base : List (Bool × Byte)} {src : PixSrc} {i n : Nat} {s t : State}
    (h : ChunkInFlight base src i n s) (hparams : t.params = s.params) (hmem : t.mem = s.mem)
    (hdma : t.te.dma = s.te.dma) (hscratch : t.te.scratch = s.te.scratch) (hwire : t.wire = s.wire) :
    ChunkInFlight base src i n t := by
  rwa [ChunkInFlight, burstBytes_congr hparams hmem, hdma, hscratch, hwire]

theorem ChunksShifted.congr {base : List (Bool × Byte)} {src : PixSrc} {k : Nat} {s t : State}
    (h : ChunksShifted base src k s) (hparams : t.params = s.params) (hmem : t.mem = s.mem)
    (hdma : t.te.dma = s.te.dma) (hwire : logical t.wire = logical s.wire) : ChunksShifted base src k t := by
  rwa [ChunksShifted, burstBytes_congr hparams hmem, hdma, hwire]

/-- The chunk of a burst with its channel: still being shifted, or all shifted. -/
structure BurstAt (base : List (Bool × Byte)) (src : PixSrc) (total i n : Nat) (s : State) : Prop where
  channel : s.te.dmaOk = true
  pixels : 1 ≤ n
  inBurst : i + n ≤ total
  chunk : ChunkInFlight base src i n s ∨ ChunksShifted base src (i + n) s

/-- `BurstStream` at the burst in progress. -/
theorem burstStream_iff {base : List (Bool × Byte)} {s : State} {src : PixSrc} {total i n : Nat} {ph : WaitPhase}
    (hp : s.pending = some (.burst src total i n ph)) : BurstStream base s ↔ BurstAt base src total i n s := by
  constructor
  · rintro ⟨src', total', i', n', ph', hp', hok, hn, hle, hchunk⟩
    cases hp.symm.trans hp'
    exact ⟨hok, hn, hle, hchunk⟩
  · rintro ⟨hok, hn, hle, hchunk⟩
    exact ⟨src, total, i, n, ph, hp, hok, hn, hle, hchunk⟩

section
variable {base : List (Bool × Byte)} {src : PixSrc} {total i n : Nat} {s : State}

theorem BurstAt.congr {t : State} (h : BurstAt base src total i n s) (hparams : t.params = s.params)
    (hmem : t.mem = s.mem) (hok : t.te.dmaOk = s.te.dmaOk) (hdma : t.te.dma = s.te.dma)
    (hscratch : t.te.scratch = s.te.scratch) (hwire : t.wire = s.wire) : BurstAt base src total i n t where
  channel := hok.trans h.channel
  pixels := h.pixels
  inBurst := h.inBurst
  chunk := h.chunk.imp (fun hc => hc.congr hparams hmem hdma hscratch hwire)
    (fun hc => hc.congr hparams hmem hdma (congrArg logical hwire))

/-- With no record all bytes of the chunk are out. -/
theorem BurstAt.shifted (h : BurstAt base src total i n s) (hnone : s.te.dma = none) :
    ChunksShifted base src (i + n) s :=
  h.chunk.resolve_left fun ⟨_, hr, _⟩ => absurd (hnone.symm.trans hr) nofun

/-- A shift puts the next byte of the chunk on the stream (R230). -/
theorem ChunkInFlight.shift (h : ChunkInFlight base src i n s) {r : DmaRec} (hr : s.te.dma = some r) (hlt : r.pos < r.len)
    (hpos : r.pos < s.te.scratch.length) :
    ChunkInFlight base src i n { s with
      wire := s.wire ++ [.byte true (s.te.scratch.getD r.pos 0)]
      te := { s.te with dma := some { r with pos := r.pos + 1 } } } := by
  obtain ⟨r', hr', hlen, hscratch, hwire⟩ := h
  cases hr.symm.trans hr'
  refine ⟨_, rfl, hlen, hscratch, ?_⟩
  have hnext : (burstBytes s src i n).getD r.pos (true, 0) = (true, s.te.scratch.getD r.pos 0) := by
    rw [← hscratch, List.getD_eq_getElem _ _ (by simp [hlt, hpos]), List.getD_eq_getElem _ _ hpos, List.getElem_map,
      List.getElem_take]
  calc logical (s.wire ++ [.byte true (s.te.scratch.getD r.pos 0)])
      = logical s.wire ++ [(true, s.te.scratch.getD r.pos 0)] := logical_append _ _
    _ = base ++ burstBytes s src 0 i ++ ((burstBytes s src i n).take r.pos ++ [(true, s.te.scratch.getD r.pos 0)]) := by
        rw [hwire, List.append_assoc]
    _ = base ++ burstBytes s src 0 i ++ (burstBytes s src i n).take (r.pos + 1) := by
        rw [take_succ_eq_append_getD (by rw [burstBytes_length, ← hlen]; exact hlt) (true, 0), hnext]

/-- At the finish the whole chunk is on the stream (R231). -/
theorem ChunkInFlight.finish (h : ChunkInFlight base src i n s) {r : DmaRec} (hr : s.te.dma = some r)
    (hend : r.len ≤ r.pos) (notes : List Nat) :
    ChunksShifted base src (i + n) { s with te := { s.te with dma := none, notePending := notes } } := by
  obtain ⟨r', hr', hlen, -, hwire⟩ := h
  cases hr.symm.trans hr'
  refine ⟨rfl, ?_⟩
  rw [List.take_of_length_le (by rw [burstBytes_length, ← hlen]; exact hend), List.append_assoc] at hwire
  refine hwire.trans ?_
  have hbytes := burstBytes_append s src 0 i n
  rw [Nat.zero_add] at hbytes
  rw [← hbytes]
  rfl

theorem dmaStep_burstAt (hs : EngineInv s) (h : BurstAt base src total i n s) : BurstAt base src total i n (dmaStep s) := by
  obtain ⟨hok, hn, hle, hchunk⟩ := h
  have inFlight : ∀ {r}, s.te.dma = some r → ChunkInFlight base src i n s := fun hr =>
    hchunk.resolve_right fun hc => absurd (hc.1.symm.trans hr) nofun
  rcases dmaStep_cases s with ⟨-, e⟩ | ⟨r, hr, hlt, e⟩ | ⟨r, hr, hend, e⟩ <;> rw [e]
  · exact ⟨hok, hn, hle, hchunk⟩
  · exact ⟨hok, hn, hle, .inl ((inFlight hr).shift hr hlt (hs.pos_lt_scratch hr hlt))⟩
  · exact ⟨hok, hn, hle, .inr ((inFlight hr).finish hr hend _)⟩

/-- A completion that ends the transfer comes after the whole chunk is out (R232, R234). -/
theorem notifyStep_burstAt (hs : EngineInv s) (h : BurstAt base src total i n s) (k : Nat) :
    BurstAt base src total i n (notifyStep k s) := by
  unfold notifyStep
  split
  · exact h
  · next q hq =>
    rcases deliver_cases s q with ⟨-, e⟩ | ⟨-, rfl, junk, -, e⟩ <;> rw [e]
    · exact h.congr rfl rfl rfl rfl rfl rfl
    · have hshifted := h.shifted (hs.no_record_of_pending (List.mem_of_getElem? hq))
      refine ⟨h.channel, h.pixels, h.inBurst, .inr (hshifted.congr rfl rfl rfl ?_)⟩
      exact (logical_append _ _).trans (List.append_nil _)

/-! ## The host's step inside the burst (R262, R263) -/

/-- Arming the next chunk puts its bytes into `scratch` and none of them on the stream (R206). -/
theorem armTransfer_burstAt {k m : Nat} (h : ChunksShifted base src k s) (hok : s.te.dmaOk = true) (hm : 1 ≤ m)
    (hle : k + m ≤ total) : BurstAt base src total k m (armTransfer (pixChunk s.mem src k m) s) := by
  refine ⟨hok, hm, hle, .inl ⟨_, rfl, by rw [pixChunk_length], ?_, ?_⟩⟩
  · have hlen : (pixRunBytes s.params.pixOrderDma (pixChunk s.mem src k m)).length = 2 * (pixChunk s.mem src k m).length :=
      pixRunBytes_length _ _
    simp only [armTransfer_te]
    rw [← hlen, List.take_left]
    rfl
  · rw [armTransfer_wire, logical_append, h.2, List.take_zero]
    rfl

/-- What a step makes of a burst whose bytes are `all`: it goes on at one of its chunks, or it ends, with `RES = 1` only when all its
bytes are on the stream. -/
def BurstGoesOn (base : List (Bool × Byte)) (src : PixSrc) (total : Nat) (all : List (Bool × Byte)) (t : State) : Prop :=
  (∃ i n ph, t.pending = some (.burst src total i n ph) ∧ BurstAt base src total i n t) ∨
    (t.pending = none ∧ (t.port.res = true → logical t.wire = base ++ all))

theorem BurstAt.goesOn {all : List (Bool × Byte)} {ph : WaitPhase} (h : BurstAt base src total i n s)
    (hp : s.pending = some (.burst src total i n ph)) : BurstGoesOn base src total all s :=
  .inl ⟨i, n, ph, hp, h⟩

/-- The transfer has ended: the next chunk is armed, or the burst ends with all its pixels on the stream. -/
theorem burstFrom_burstGoesOn {k : Nat} (h : ChunksShifted base src k s) (hok : s.te.dmaOk = true)
    (hpix : 1 ≤ s.params.chunkPix) (hle : k ≤ total) (hidle : s.pending = none) :
    BurstGoesOn base src total (burstBytes s src 0 total) (burstFrom (total - k) src total k s) := by
  rcases hle.lt_or_eq with hlt | rfl
  · rw [burstFrom_arm hlt le_rfl hok hpix]
    have hm : 1 ≤ min s.params.chunkPix (total - k) := le_min hpix (Nat.sub_pos_of_lt hlt)
    have harm := armTransfer_burstAt (m := min s.params.chunkPix (total - k)) (total := total) h hok hm (by omega)
    exact BurstAt.goesOn (harm.congr rfl rfl rfl rfl rfl rfl) rfl
  · rw [burstFrom_done _ s le_rfl]
    refine .inr ?_
    unfold burstDone
    split <;> exact ⟨hidle, fun _ => h.2⟩

/-- The host's step: the burst goes on as above, or it has timed out and ends with 0, or the wait goes on. -/
theorem burstOp_burstGoesOn (hs : EngineInv s) (h : BurstAt base src total i n s) (hpix : 1 ≤ s.params.chunkPix)
    (hidle : s.pending = none) (ph : WaitPhase) :
    BurstGoesOn base src total (burstBytes s src 0 total) (burstOp src total i n ph s) := by
  unfold burstOp
  rcases waitStep_cases s.params.xferTimeoutMs.toNat ph s with ⟨-, hfree, e⟩ | ⟨-, e⟩ | ⟨-, -, ph', e⟩ <;> rw [e]
  · exact burstFrom_burstGoesOn (h.shifted (hs.at_rest hfree).2.2) h.channel hpix h.inBurst hidle
  · exact .inr ⟨(abortTransfer_pending s).trans hidle, nofun⟩
  · exact BurstAt.goesOn (h.congr rfl rfl rfl rfl rfl rfl) rfl

/-- Every step of every agent but reset. -/
theorem step_burstGoesOn {t : State} {ph : WaitPhase} (hs : EngineInv s) (h : BurstAt base src total i n s)
    (hp : s.pending = some (.burst src total i n ph)) (hpix : 1 ≤ s.params.chunkPix) (hn : nextEvent s ≠ .reset)
    (he : step s = .next t) : BurstGoesOn base src total (burstBytes s src 0 total) t := by
  have busy : s.pending ≠ none := by rw [hp]; nofun
  have hs' : EngineInv (turnTaken s) := hs.congr (turnTaken_params s) (turnTaken_te s)
  have h' : BurstAt base src total i n (turnTaken s) :=
    h.congr (turnTaken_params s) (turnTaken_mem s) (by rw [turnTaken_te]) (by rw [turnTaken_te]) (by rw [turnTaken_te])
      (turnTaken_wire s)
  have hp' : (turnTaken s).pending = some (.burst src total i n ph) := (turnTaken_pending s).trans hp
  cases step_cases he with
  | resumed op hop ht =>
    cases hp.symm.trans hop
    rw [ht, ← burstBytes_congr (turnTaken_params s) (turnTaken_mem s)]
    exact burstOp_burstGoesOn (s := { turnTaken s with pending := none }) (hs'.congr rfl rfl)
      (h'.congr rfl rfl rfl rfl rfl rfl) (by simpa using hpix) rfl ph
  | issued w hnext _ => exact absurd hnext.2.1 busy
  | wrote n v hidle _ => exact absurd hidle busy
  | ownWork hidle _ => exact absurd hidle busy
  | dma ht => exact ht ▸ (dmaStep_burstAt hs' h').goesOn ((dmaStep_pending _).trans hp')
  | notify k ht => exact ht ▸ (notifyStep_burstAt hs' h' k).goesOn ((notifyStep_pending _ k).trans hp')
  | clock ht => exact ht ▸ BurstAt.goesOn (h'.congr rfl rfl rfl rfl rfl rfl) hp'
  | source w ht => exact ht ▸ BurstAt.goesOn (h'.congr rfl rfl rfl rfl rfl rfl) hp'
  | reset hturn _ => exact absurd hturn hn

end

end Sys2Proof.Machine

namespace Sys2Proof.Proofs

open Sys2Proof.Machine

/-- Settles O24, together with the engine's invariant, which keeps the record inside `scratch`. -/
theorem flightBytesInvariantKept : Obligations.FlightBytesInvariantKept := by
  unfold Obligations.FlightBytesInvariantKept
  exact fun s t hs hflight he => (step_flightSafe ⟨hs, hflight⟩ he).2

/-- Settles O38: a step leaves the burst at one of its chunks or at its end. -/
theorem burstStreamKept : Obligations.BurstStreamKept := by
  unfold Obligations.BurstStreamKept
  intro base s t src total i n ph hs hstream hp hpix hn he
  rcases step_burstGoesOn hs ((burstStream_iff hp).1 hstream) hp hpix hn he with
    ⟨i', n', ph', hp', hat⟩ | ⟨hidle, hall⟩
  · exact ⟨fun _ => (burstStream_iff hp').2 hat, fun hidle => by simp [hp'] at hidle⟩
  · exact ⟨fun hbusy => absurd hidle hbusy, fun _ => hall⟩

end Sys2Proof.Proofs

/-! # Who writes MEM and the maps (R70, R145, R146, R166, R182) -/

namespace Sys2Proof.Machine

/-! ## What the commands of the host port, the engine and the surface leave alone -/

/-- `t` has the MEM and the maps of `s`. -/
structure SameStore (s t : State) : Prop where
  mem : t.mem = s.mem
  rsm : t.rsm = s.rsm

theorem SameStore.refl (s : State) : SameStore s s := ⟨rfl, rfl⟩

theorem SameStore.trans {s t u : State} (h : SameStore s t) (h' : SameStore t u) : SameStore s u :=
  ⟨h'.mem.trans h.mem, h'.rsm.trans h.rsm⟩

theorem SameStore.complete {s t : State} (h : SameStore s t) (r : Bool) : SameStore s (complete r t) :=
  h.trans ⟨rfl, rfl⟩

theorem SameButBurst.sameStore {s t : State} (h : SameButBurst s t) : SameStore s t := ⟨h.mem, h.rsm⟩

theorem raiseFault_sameStore (op : Byte) (c : FaultCode) (s : State) : SameStore s (raiseFault op c s) :=
  ⟨raiseFault_mem s op c, raiseFault_rsm s op c⟩

theorem guarded_sameStore {op : Byte} {tests : List (Option FaultCode)} {f : State → State} {s : State}
    (hf : SameStore s (f s)) : SameStore s (guarded op tests f s) :=
  guarded_has (fun _ => hf) fun c => raiseFault_sameStore op c s

theorem disarm_sameStore (s : State) : SameStore s (disarm s) := ⟨rfl, rfl⟩

theorem armWindow_sameStore (c : Rect) (s : State) : SameStore s (armWindow c s) := ⟨rfl, rfl⟩

theorem abortTransfer_sameStore (s : State) : SameStore s (abortTransfer s) :=
  ⟨abortTransfer_mem s, abortTransfer_rsm s⟩

theorem bulkReturn_sameStore (pix : List Pixel) (wasBusy : Bool) (s : State) : SameStore s (bulkReturn pix wasBusy s) :=
  (bulkSend_frame pix wasBusy s).sameStore.complete _

theorem sendPages_sameStore (page0 n cx0 : Nat) (row : Nat → List Byte) (s : State) :
    SameStore s (sendPages page0 n cx0 row s) := by
  rw [sendPages_frame]
  exact ⟨rfl, rfl⟩

theorem sendInit_sameStore (items : List InitItem) (s : State) : SameStore s (items.foldl sendInitItem s) := by
  rw [sendInit_frame]
  exact ⟨rfl, rfl⟩

theorem drawBurst_sameStore (c : Rect) (src : PixSrc) (total : Nat) (s : State) :
    SameStore s (streamBurst src total (armWindow c s)) :=
  (armWindow_sameStore c s).trans (streamBurst_frame src total (armWindow c s)).sameStore

theorem waitStep_sameStore (ms : Nat) (ph : WaitPhase) (s : State) : SameStore s (waitStep ms ph s).2 := by
  rcases waitStep_cases ms ph s with ⟨-, -, e⟩ | ⟨-, e⟩ | ⟨-, -, ph', e⟩ <;> rw [e]
  · exact .refl s
  · exact abortTransfer_sameStore s
  · exact .refl s

theorem waitOp_sameStore (ms : Nat) (ph : WaitPhase) (s : State) : SameStore s (waitOp ms ph s) := by
  have hwait := waitStep_sameStore ms ph s
  unfold waitOp
  split <;> rename_i e <;> rw [e] at hwait <;> exact hwait.trans ⟨rfl, rfl⟩

theorem burstOp_sameStore (src : PixSrc) (total i n : Nat) (ph : WaitPhase) (s : State) :
    SameStore s (burstOp src total i n ph s) := by
  have hwait := waitStep_sameStore s.params.xferTimeoutMs.toNat ph s
  unfold burstOp
  split <;> rename_i e <;> rw [e] at hwait <;> refine hwait.trans ?_
  · exact (burstFrom_frame src total _ _ _ le_rfl).sameStore
  · exact ⟨rfl, rfl⟩
  · exact ⟨rfl, rfl⟩

theorem fillWindowed_sameStore (op : Byte) (clip : Option Rect) (col : Pixel) (s : State) :
    SameStore s (fillWindowed op clip col s) := by
  unfold fillWindowed
  split
  · exact ⟨rfl, rfl⟩
  · exact guarded_sameStore (drawBurst_sameStore _ _ _ s)

/-- The computing commands: BUILDMAPS, RESAMPLE and the two ditherers. -/
def computing : List Instr := [.buildmaps, .resample, .dithb, .dithfs]

/-- Every other command leaves MEM and the maps alone. -/
theorem exec_sameStore {i : Instr} {s t : State} (hi : i ∉ computing) (he : exec i s = .next t) : SameStore s t := by
  have noOp : SameStore s (complete true s) := (SameStore.refl s).complete true
  cases i <;> injection he with he <;> subst he
  case wrcmd b => exact guarded_sameStore ⟨rfl, rfl⟩
  case wrdat b => exact guarded_sameStore ⟨rfl, rfl⟩
  case wrbulk =>
    refine guarded_sameStore ?_
    split <;> exact ⟨rfl, rfl⟩
  case wrbulka =>
    refine guarded_sameStore ?_
    dsimp only
    split
    · exact ⟨rfl, rfl⟩
    · exact (disarm_sameStore s).trans (bulkReturn_sameStore _ false (disarm s))
  case wait ms => exact waitOp_sameStore _ _ s
  case abort => exact (abortTransfer_sameStore s).complete true
  case teinit => split <;> exact ⟨rfl, rfl⟩
  case tefree =>
    refine (abortTransfer_sameStore s).trans ?_
    dsimp only
    split <;> exact ⟨rfl, rfl⟩
  case setwin =>
    split
    · unfold setWinWindowed
      dsimp only
      split
      · exact noOp
      · split
        · exact noOp
        · exact guarded_sameStore ⟨rfl, rfl⟩
    · exact raiseFault_sameStore _ _ s
  case drawimg =>
    split
    · unfold drawImgWindowed
      split
      · exact noOp
      · exact guarded_sameStore (drawBurst_sameStore _ _ _ s)
    · unfold drawImgPaged
      split
      · exact noOp
      · exact guarded_sameStore ((sendPages_sameStore _ _ _ _ s).complete true)
  case fillrect =>
    split
    · exact fillWindowed_sameStore _ _ _ s
    · unfold fillRectPaged
      split
      · exact noOp
      · exact guarded_sameStore ((sendPages_sameStore _ _ _ _ s).complete true)
  case setrot rot =>
    split
    · refine guarded_sameStore ?_
      dsimp only
      split
      · exact ⟨by simp, by simp⟩
      · exact ⟨rfl, rfl⟩
    · exact guarded_sameStore ⟨rfl, rfl⟩
  case pushpix =>
    split
    · exact guarded_sameStore (streamBurst_frame _ _ s).sameStore
    · exact raiseFault_sameStore _ _ s
  case clear =>
    split
    · exact fillWindowed_sameStore _ _ _ s
    · exact guarded_sameStore ((sendPages_sameStore _ _ _ _ s).complete true)
  case surfinit => exact guarded_sameStore ((sendInit_sameStore s.params.initSeq s).trans ⟨rfl, rfl⟩)
  all_goals simp [computing] at hi

/-- Going on with an operation writes neither. -/
theorem resumeOp_sameStore (op : PendingOp) (s : State) : SameStore s (resumeOp op s) := by
  cases op with
  | wait ms ph => exact waitOp_sameStore ms ph s
  | bulkHold pix =>
    rw [resumeOp, bulkHoldOp]
    split
    · exact ⟨rfl, rfl⟩
    · exact bulkReturn_sameStore pix true s
  | burst src total i n ph => exact burstOp_sameStore src total i n ph s

/-! ## What the computing commands leave alone -/

/-- `t` has all of `s` but the host port, MEM and the maps. -/
structure SameDisplay (s t : State) : Prop where
  te : t.te = s.te
  wire : t.wire = s.wire
  surf : t.surf = s.surf
  pending : t.pending = s.pending
  env : t.env = s.env

theorem guarded_sameDisplay {op : Byte} {tests : List (Option FaultCode)} {f : State → State} {s : State}
    (hf : SameDisplay s (f s)) : SameDisplay s (guarded op tests f s) :=
  guarded_has (fun _ => hf) fun c =>
    ⟨raiseFault_te s op c, raiseFault_wire s op c, raiseFault_surf s op c, raiseFault_pending s op c, raiseFault_env s op c⟩

theorem exec_sameDisplay {i : Instr} {s t : State} (hi : i ∈ computing) (he : exec i s = .next t) : SameDisplay s t := by
  simp only [computing, List.mem_cons, List.not_mem_nil, or_false] at hi
  rcases hi with rfl | rfl | rfl | rfl <;> cases he <;> exact guarded_sameDisplay ⟨rfl, rfl, rfl, rfl, rfl⟩

theorem exec_buildmaps_mem {s t : State} (he : exec .buildmaps s = .next t) : t.mem = s.mem := by
  cases he
  exact guarded_has (P := fun t => t.mem = s.mem) (fun _ => rfl) fun c => raiseFault_mem s _ c

/-- RESAMPLE and the ditherers, which work on MEM, leave the maps alone. -/
theorem exec_storing_rsm {i : Instr} {s t : State} (hi : i ∈ [Instr.resample, .dithb, .dithfs])
    (he : exec i s = .next t) : t.rsm = s.rsm := by
  simp only [List.mem_cons, List.not_mem_nil, or_false] at hi
  rcases hi with rfl | rfl | rfl <;> cases he <;>
    exact guarded_has (P := fun t => t.rsm = s.rsm) (fun _ => rfl) fun c => raiseFault_rsm s _ c

/-- MEM is left alone by every command but those three. -/
theorem exec_mem {i : Instr} {s t : State} (hi : i ∉ [Instr.resample, .dithb, .dithfs]) (he : exec i s = .next t) :
    t.mem = s.mem := by
  by_cases hb : i = .buildmaps
  · exact exec_buildmaps_mem (hb ▸ he)
  · exact (exec_sameStore (by simp_all [computing]) he).mem

/-- The maps are left alone by every command but BUILDMAPS. -/
theorem exec_rsm {i : Instr} {s t : State} (hi : i ≠ .buildmaps) (he : exec i s = .next t) : t.rsm = s.rsm := by
  by_cases hm : i ∈ [Instr.resample, .dithb, .dithfs]
  · exact exec_storing_rsm hm he
  · exact (exec_sameStore (by simp_all [computing]) he).rsm

/-! ## MEM in canonical form, inside its bounds (R70) -/

/-- A canonical memory that lists only addresses below `n`. -/
def MemOk (n : Nat) (m : Memory) : Prop := Memory.wf m = true ∧ memInside n m = true

theorem memInv_iff (s : State) : MemInv s ↔ MemOk s.params.memBytes s.mem := Iff.rfl

theorem MemInv.congr {s t : State} (h : MemInv s) (hparams : t.params = s.params) (hmem : t.mem = s.mem) : MemInv t := by
  rwa [memInv_iff, hparams, hmem]

theorem MemOk.write {n : Nat} {m : Memory} (h : MemOk n m) {a : Nat} (ha : a < n) (v : Byte) : MemOk n (memWrite m a v) :=
  ⟨memWrite_wf h.1 a v, memWrite_inside h.2 ha v⟩

theorem MemOk.writePix {n : Nat} {m : Memory} (h : MemOk n m) {a : Nat} (ha : a + 1 < n) (v : Pixel) :
    MemOk n (memWritePix m a v) :=
  ⟨memWritePix_wf h.1 a v, memWritePix_inside h.2 ha v⟩

/-- Writing a pixel of a buffer that lies inside MEM. -/
theorem MemOk.writeBuffer {n base w h : Nat} {m : Memory} (hm : MemOk n m) (hbuf : base + 2 * w * h ≤ n) {x y : Nat}
    (hx : x < w) (hy : y < h) (v : Pixel) : MemOk n (memWritePix m (pixAddr base w x y) v) :=
  hm.writePix ((pixAddr_inside hx hy).2.trans_le hbuf) v

/-! ### The commands that write MEM -/

theorem resampleMem_memOk {n : Nat} {u : MapUnit} {src dst : Nat} {m : Memory} (hm : MemOk n m)
    (hbuf : dst + dstBytes u ≤ n) : MemOk n (resampleMem u src dst m) :=
  forPixels_keeps (fun _ _ _ hx hy h => h.writeBuffer hbuf hx hy _) hm

theorem dithbMem_memOk {n : Nat} {p : Params} {port : Port} {buf w h : Nat} {m : Memory} (hm : MemOk n m)
    (hbuf : buf + 2 * w * h ≤ n) : MemOk n (dithbMem p port buf w h m) := by
  refine forPixels_keeps (fun m x y hx hy hm => ?_) hm
  split
  · exact hm.writeBuffer hbuf hx hy _
  · exact hm

theorem mem_fsColumns {w y x : Nat} : x ∈ fsColumns w y ↔ x < w := by
  unfold fsColumns
  split <;> simp

/-- A property of MEM that the write of any pixel of the buffer keeps, DITHFS keeps. -/
theorem dithfsMem_keeps {P : Memory → Prop} {p : Params} {port : Port} {buf w h : Nat} {m : Memory}
    (hwrite : ∀ m x y v, x < w → y < h → P m → P (memWritePix m (pixAddr buf w x y) v)) (hm : P m) :
    P (dithfsMem p port buf w h m) := by
  unfold dithfsMem
  refine List.foldlRecOn (motive := fun d : Diffusion => P d.mem) _ _ hm fun d hd y hy => ?_
  refine List.foldlRecOn (motive := fun d : Diffusion => P d.mem) _ _ hd fun d hd x hx => ?_
  exact hwrite _ x y _ (mem_fsColumns.1 hx) (List.mem_range.1 hy) hd

theorem dithfsMem_memOk {n : Nat} {p : Params} {port : Port} {buf w h : Nat} {m : Memory} (hm : MemOk n m)
    (hbuf : buf + 2 * w * h ≤ n) : MemOk n (dithfsMem p port buf w h m) :=
  dithfsMem_keeps (fun _ _ _ v hx hy h => h.writeBuffer hbuf hx hy v) hm

theorem checkBuf_range {p : Params} {a n align : Nat} (h : checkBuf p a n align = none) : a + n ≤ p.memBytes :=
  (checkBuf_none.1 h).2

/-- A command that passes its tests writes inside MEM; one that faults writes nothing. -/
theorem guarded_memInv {op : Byte} {tests : List (Option FaultCode)} {f : State → State} {s : State} (hs : MemInv s)
    (hf : firstFault tests = none → MemInv (f s)) : MemInv (guarded op tests f s) :=
  guarded_has hf fun c => hs.congr (raiseFault_params s op c) (raiseFault_mem s op c)

theorem exec_memInv {i : Instr} {s t : State} (hs : MemInv s) (he : exec i s = .next t) : MemInv t := by
  by_cases hi : i ∈ [Instr.resample, .dithb, .dithfs]
  · simp only [List.mem_cons, List.not_mem_nil, or_false] at hi
    rcases hi with rfl | rfl | rfl <;> cases he <;> refine guarded_memInv hs fun hpass => ?_ <;>
      simp only [firstFault_cons] at hpass
    · obtain ⟨-, -, hdst, -⟩ := hpass
      exact resampleMem_memOk hs (checkBuf_range hdst)
    · obtain ⟨-, hbuf, -⟩ := hpass
      exact dithbMem_memOk hs (checkBuf_range hbuf)
    · obtain ⟨-, hbuf, -⟩ := hpass
      exact dithfsMem_memOk hs (checkBuf_range hbuf)
  · exact hs.congr (exec_sameHostRegs he).params (exec_mem hi he)

theorem issue_memInv {w : Word} {s t : State} (hs : MemInv s) (he : issue w s = .next t) : MemInv t := by
  rcases issue_cases w s with ⟨-, e⟩ | ⟨-, e⟩ | ⟨-, i, -, e⟩ <;> rw [e] at he
  · cases he; exact hs
  · cases he; exact hs
  · exact exec_memInv hs he

/-! ### The host's own stores (R72, R73, R93) -/

theorem memAccess8_eq_none {p : Params} {a : Nat} : memAccess8 p a = none ↔ a < p.memBytes := by
  unfold memAccess8
  split <;> simp_all

theorem memAccess16_eq_none {p : Params} {a : Nat} : memAccess16 p a = none ↔ a % 2 = 0 ∧ a + 1 < p.memBytes := by
  unfold memAccess16
  split
  · next hodd => exact iff_of_false nofun fun h => hodd h.1
  · next heven => split <;> simp_all

/-- An access that does not stop has passed its test. -/
theorem hostAccess_passed {a : Nat} {check : Option FaultCode} {s t : State} (he : hostAccess a check s = .next t) :
    check = none := by
  unfold hostAccess at he
  split at he
  · rfl
  · cases he
  · cases he

theorem hostStore16_memInv {a : Nat} {v : Pixel} {s t : State} (hs : MemInv s) (he : hostStore16 a v s = .next t) :
    MemInv t := by
  have hpass := (memAccess16_eq_none.1 (hostAccess_passed he)).2
  cases hostAccess_next he
  exact MemOk.writePix hs hpass v

theorem hostAction_memInv {act : HostAction} {s t : State} (hs : MemInv s) (he : hostAction act s = .next t) :
    MemInv t := by
  have hadv : MemInv (advance s) := hs
  cases act with
  | wr n v =>
    rw [hostAction] at he
    split at he
    · exact issue_memInv hadv he
    · cases he; exact hs
  | rd n => cases he; exact hs
  | st8 a v =>
    have hpass := memAccess8_eq_none.1 (hostAccess_passed he)
    cases hostAccess_next he
    exact MemOk.write hs hpass v
  | ld8 a => cases hostAccess_next he; exact hs
  | st16 a v => exact hostStore16_memInv hadv he
  | ld16 a => cases hostAccess_next he; exact hs
  | fifoRead =>
    rw [hostAction] at he
    split at he <;> cases he <;> exact hs
  | runLoop cfg => cases he; exact hs

theorem loopStep_memInv {l : FrameLoop} {s t : State} (hs : MemInv s) (he : loopStep l s = .next t) : MemInv t := by
  have hhost : ∀ u, MemInv { s with host := u } := fun _ => hs
  unfold loopStep at he
  split at he
  case h_1 => split at he <;> cases he <;> exact hs
  case h_2 => split at he <;> cases he <;> exact hs
  case h_3 => exact hostStore16_memInv (hhost _) he
  case h_4 =>
    split at he
    · split at he
      · cases he; exact hs
      · exact hostStore16_memInv (hhost _) he
    · cases he; exact hs
  all_goals cases he; exact hs

/-! ### Every step -/

theorem hostStep_memInv {s t : State} (hs : MemInv s) (he : hostStep s = .next t) : MemInv t := by
  unfold hostStep at he
  split at he
  · next op _ =>
    cases he
    have hstore := resumeOp_sameStore op { s with pending := none }
    exact hs.congr (resumeOp_sameButRes op _).params hstore.mem
  · split at he
    · exact hostAction_memInv hs he
    · split at he
      · exact loopStep_memInv hs he
      · cases he; exact hs

theorem platformReset_memInv (s : State) : MemInv (platformReset s) := ⟨memOfCells_wf _ _, memOfCells_inside _ _⟩

theorem step_memInv {s t : State} (h : MemInv s) (he : step s = .next t) : MemInv t := by
  have hs : MemInv (turnTaken s) := h.congr (turnTaken_params s) (turnTaken_mem s)
  cases hturn : nextEvent s <;> rw [step_of_event hturn] at he
  case host => exact hostStep_memInv hs he
  all_goals cases he
  case dma => exact hs.congr (dmaStep_params _) (dmaStep_mem _)
  case notify k => exact hs.congr (notifyStep_params _ k) (notifyStep_mem _ k)
  case clock => exact hs
  case source w => exact hs
  case reset => exact platformReset_memInv _

end Sys2Proof.Machine

namespace Sys2Proof.Proofs

open Sys2Proof.Machine

/-- Settles O9, unit by unit. -/
theorem commandsKeepToTheirUnits : Obligations.CommandsKeepToTheirUnits := by
  unfold Obligations.CommandsKeepToTheirUnits
  refine fun i s t he => ⟨fun hi => exec_mem hi he, fun hi => exec_rsm hi he, fun hi => ?_⟩
  obtain ⟨hte, hwire, hsurf, hpending, henv⟩ := exec_sameDisplay hi he
  exact ⟨hte, hwire, hsurf, hpending, henv⟩

/-- Settles O57: whoever writes MEM has passed a test of its range. -/
theorem memInvariantKept : Obligations.MemInvariantKept := by
  unfold Obligations.MemInvariantKept
  exact fun s t => step_memInv

end Sys2Proof.Proofs

/-! # What the commands over MEM do, and the host's own accesses (R70 to R76, R146, R166, R182, R206) -/

namespace Sys2Proof.Machine

/-! ## Commands that fault -/

/-- A guarded command on a fresh fault register latches the fault of its first failing test (R340, R343). -/
theorem guarded_latched {tests : List (Option FaultCode)} {c : FaultCode} (h : firstFault tests = some c) (op : Byte)
    (f : State → State) {s : State} (hf : s.port.faulted = false) :
    (Host.Outcome.next (guarded op tests f s) : Host.Outcome State Fault Refusal) = .next (latched op c s) := by
  rw [guarded_fault h, raiseFault_fresh hf]

/-- A guarded command all of whose tests pass performs its effect. -/
theorem guarded_next {tests : List (Option FaultCode)} (h : firstFault tests = none) (op : Byte)
    (f : State → State) (s : State) :
    (Host.Outcome.next (guarded op tests f s) : Host.Outcome State Fault Refusal) = .next (f s) := by
  rw [guarded_pass h]

/-- An aligned buffer of pixels that ends past MEM (R75). -/
theorem checkBuf_even {p : Params} {a n : Nat} (ha : a % 2 = 0) (h : p.memBytes < a + n) : checkBuf p a n 2 = some .buffer :=
  checkBuf_buffer (by omega) h

/-! ## WRBULKA (R206) -/

/-- The tests of WRBULKA, in its order. -/
def wrbulkaTests (s : State) : List (Option FaultCode) :=
  [faultIf (decide (s.params.scratchBytes < 2 * s.port.a.a1.toNat)) .param,
    checkBuf s.params s.port.a.a0.toNat (2 * s.port.a.a1.toNat) 2]

theorem wrbulkaTests_pass {s : State} (hfits : 2 * s.port.a.a1.toNat ≤ s.params.scratchBytes) (hrun : runInMem s) :
    firstFault (wrbulkaTests s) = none := by
  rw [wrbulkaTests, decide_eq_false (by omega), checkBuf_pass hrun.1 hrun.2]
  rfl

/-- With its tests passed and the channel not busy WRBULKA hands its pixels over at once. -/
theorem exec_wrbulka_free {s : State} (hfits : 2 * s.port.a.a1.toNat ≤ s.params.scratchBytes) (hrun : runInMem s)
    (hfree : s.te.st ≠ .dmaBusy) : exec .wrbulka s = .next (bulkReturn (runPixels s) false (disarm s)) := by
  rw [← pixChunk_run]
  refine (guarded_next (wrbulkaTests_pass hfits hrun) 0x13 _ s).trans ?_
  dsimp only
  rw [if_neg hfree]

theorem exec_wrbulka_faults {s : State} (hf : s.port.faulted = false) {c : FaultCode}
    (h : firstFault (wrbulkaTests s) = some c) : exec .wrbulka s = .next (latched 0x13 c s) :=
  guarded_latched h 0x13 _ hf

theorem runPixels_length (s : State) : (runPixels s).length = s.port.a.a1.toNat := by
  simp [runPixels]

theorem runPixels_eq_nil {s : State} : runPixels s = [] ↔ s.port.a.a1 = 0 := by
  rw [← List.length_eq_zero_iff, runPixels_length]
  exact BitVec.toNat_eq (y := 0#32).symm

/-- The frame of a run of pixels sent synchronously, pixel by pixel (R77). -/
theorem frameEvents_pixels (pix : List Pixel) :
    frameEvents true (pixRunBytes .hiFirst pix) =
      .sel :: pix.flatMap (fun p => [.byte true (hi8 p), .byte true (lo8 p)]) ++ [.desel] := by
  simp [frameEvents, pixRunBytes, pixBytes, List.map_flatMap]

/-! ## RESAMPLE (R146) -/

/-- The tests of RESAMPLE, in its order. -/
def resampleTests (s : State) : List (Option FaultCode) :=
  [faultIf (!s.rsm.valid) .mapInvalid, checkBuf s.params s.port.a.a0.toNat (srcBytes s.rsm) 2,
    checkBuf s.params s.port.a.a1.toNat (dstBytes s.rsm) 2,
    faultIf (!disjointRanges s.port.a.a0.toNat (srcBytes s.rsm) s.port.a.a1.toNat (dstBytes s.rsm)) .buffer]

theorem exec_resample_faults {s : State} (hf : s.port.faulted = false) {c : FaultCode}
    (h : firstFault (resampleTests s) = some c) : exec .resample s = .next (latched 0x41 c s) :=
  guarded_latched h 0x41 _ hf

theorem exec_resample_pass {s : State} (h : firstFault (resampleTests s) = none) :
    exec .resample s =
      .next (complete true { s with mem := resampleMem s.rsm s.port.a.a0.toNat s.port.a.a1.toNat s.mem }) :=
  guarded_next h 0x41 _ s

/-- Two ranges are disjoint exactly when they have no byte in common (R76). -/
theorem disjointRanges_iff {a na b nb : Nat} :
    disjointRanges a na b nb = true ↔ ∀ k, a ≤ k → k < a + na → ¬(b ≤ k ∧ k < b + nb) := by
  simp only [disjointRanges, Bool.or_eq_true, decide_eq_true_eq]
  constructor
  · intro h k _ _
    omega
  · intro h
    have hcommon := h (max a b)
    omega

/-! ## Loops over the pixels of a buffer -/

/-- Induction along a loop over a range, with the number of rounds done. -/
theorem foldl_range_induction {α : Type} {P : Nat → α → Prop} {f : α → Nat → α} {a : α} (n : Nat) (start : P 0 a)
    (round : ∀ k a, k < n → P k a → P (k + 1) (f a k)) : P n ((List.range n).foldl f a) := by
  induction n with
  | zero => exact start
  | succ n ih =>
    rw [List.range_succ, List.foldl_append]
    exact round n _ (Nat.lt_succ_self n) (ih fun k a hk => round k a (Nat.lt_succ_of_lt hk))

/-- Pixel `(x, y)` comes before place `(i, j)` of a scan row by row. -/
def scanned (i j x y : Nat) : Prop := y < j ∨ y = j ∧ x < i

/-- A memory in the course of a loop that gives each pixel of the `w` × `h` buffer at `base` a colour, at place `(i, j)` of its scan: the
pixels scanned have their colour, the others and every byte outside the buffer are as they were in `m₀`. -/
structure Painted (m₀ : Memory) (base w h : Nat) (colour : Nat → Nat → Pixel) (i j : Nat) (m : Memory) : Prop where
  wf : Memory.wf m = true
  done : ∀ x y, x < w → y < h → scanned i j x y → memReadPix m (pixAddr base w x y) = colour x y
  todo : ∀ x y, x < w → y < h → ¬scanned i j x y → memReadPix m (pixAddr base w x y) = memReadPix m₀ (pixAddr base w x y)
  outside : ∀ b, ¬(base ≤ b ∧ b < base + 2 * w * h) → memRead m b = memRead m₀ b

section
variable {m₀ m : Memory} {base w h : Nat} {colour : Nat → Nat → Pixel} {i j : Nat}

theorem painted_start (hm : Memory.wf m₀ = true) : Painted m₀ base w h colour 0 0 m₀ where
  wf := hm
  done _ _ _ _ hs := absurd hs (by unfold scanned; omega)
  todo _ _ _ _ _ := rfl
  outside _ _ := rfl

/-- The scan goes on at the next row. -/
theorem Painted.nextRow (hp : Painted m₀ base w h colour w j m) : Painted m₀ base w h colour 0 (j + 1) m where
  wf := hp.wf
  done x y hx hy hs := hp.done x y hx hy (by unfold scanned at hs ⊢; omega)
  todo x y hx hy hs := hp.todo x y hx hy (by unfold scanned at hs ⊢; omega)
  outside := hp.outside

/-- Writing the pixel the scan is at. -/
theorem Painted.write (hp : Painted m₀ base w h colour i j m) (hi : i < w) (hj : j < h) :
    Painted m₀ base w h colour (i + 1) j (memWritePix m (pixAddr base w i j) (colour i j)) where
  wf := memWritePix_wf hp.wf _ _
  done x y hx hy hs := by
    by_cases here : x = i ∧ y = j
    · obtain ⟨rfl, rfl⟩ := here
      exact memReadPix_memWritePix_same hp.wf _ _
    · rw [memReadPix_memWritePix_apart hp.wf _ (pixAddr_apart hi hx (by omega))]
      exact hp.done x y hx hy (by unfold scanned at hs ⊢; omega)
  todo x y hx hy hs := by
    rw [memReadPix_memWritePix_apart hp.wf _ (pixAddr_apart hi hx (by unfold scanned at hs; omega))]
    exact hp.todo x y hx hy (by unfold scanned at hs ⊢; omega)
  outside b hb := by
    have hin := pixAddr_inside (base := base) hi hj
    rw [memRead_memWritePix hp.wf, if_neg (by omega), if_neg (by omega)]
    exact hp.outside b hb

/-- Pixels outside the buffer are as they were. -/
theorem Painted.readPix_outside (hp : Painted m₀ base w h colour i j m) {a : Nat}
    (ha : ∀ b, a ≤ b → b ≤ a + 1 → ¬(base ≤ b ∧ b < base + 2 * w * h)) : memReadPix m a = memReadPix m₀ a := by
  rw [memReadPix, memReadPix, hp.outside a (ha a le_rfl (Nat.le_succ a)),
    hp.outside (a + 1) (ha (a + 1) (Nat.le_succ a) le_rfl)]

/-- A loop that writes its colour to every pixel it comes to has painted the buffer. -/
theorem forPixels_painted {f : Memory → Nat → Nat → Memory} (hm : Memory.wf m₀ = true)
    (hf : ∀ m x y, x < w → y < h → Painted m₀ base w h colour x y m →
      f m x y = memWritePix m (pixAddr base w x y) (colour x y)) :
    Painted m₀ base w h colour 0 h (forPixels w h f m₀) := by
  refine foldl_range_induction (P := fun j m => Painted m₀ base w h colour 0 j m) h (painted_start hm) fun j m hj hp => ?_
  refine Painted.nextRow (foldl_range_induction (P := fun i m => Painted m₀ base w h colour i j m) w hp fun i m hi hp => ?_)
  rw [hf m i j hi hj hp]
  exact hp.write hi hj

end

/-- The source pixel the maps select lies in the source buffer (R143, R146). -/
theorem srcPixAddr_inside {s : State} (hmaps : MapInv s) (hvalid : s.rsm.valid = true) (src : Nat) {x y : Nat}
    (hx : x < s.rsm.dw.toNat) (hy : y < s.rsm.dh.toNat) :
    src ≤ srcPixAddr s.rsm src x y ∧ srcPixAddr s.rsm src x y + 1 < src + srcBytes s.rsm := by
  obtain ⟨⟨-, hxmap, -⟩, ⟨-, hymap, -⟩, -⟩ := hmaps hvalid
  exact pixAddr_inside (hxmap x hx) (hymap y hy)

/-- RESAMPLE paints the destination with the source pixels its maps select, which it never overwrites (R146). -/
theorem resampleMem_painted {s : State} (hmem : MemInv s) (hmaps : MapInv s) (hvalid : s.rsm.valid = true) {src dst : Nat}
    (hapart : disjointRanges src (srcBytes s.rsm) dst (dstBytes s.rsm) = true) :
    Painted s.mem dst s.rsm.dw.toNat s.rsm.dh.toNat (fun x y => memReadPix s.mem (srcPixAddr s.rsm src x y))
      0 s.rsm.dh.toNat (resampleMem s.rsm src dst s.mem) := by
  refine forPixels_painted hmem.1 fun m x y hx hy hp => ?_
  obtain ⟨hlo, hhi⟩ := srcPixAddr_inside hmaps hvalid src hx hy
  rw [hp.readPix_outside fun b hb hb' => disjointRanges_iff.1 hapart b (by omega) (by omega)]

/-! ## The ditherers (R166, R182) -/

/-- The tests DITHB and DITHFS have in common, in their order. -/
def ditherTests (s : State) : List (Option FaultCode) :=
  [dimTest s.port.a.a1.toNat s.port.a.a2.toNat,
    checkBuf s.params s.port.a.a0.toNat (2 * s.port.a.a1.toNat * s.port.a.a2.toNat) 2]

/-- The last test of DITHB. -/
def paletteTest (s : State) : Option FaultCode :=
  faultIf (!allInPalette s.port.pal s.mem s.port.a.a0.toNat s.port.a.a1.toNat s.port.a.a2.toNat) .notPalette

theorem firstFault_append_some {l l' : List (Option FaultCode)} {c : FaultCode} (h : firstFault l = some c) :
    firstFault (l ++ l') = some c := by
  induction l with
  | nil => cases h
  | cons o l ih =>
    cases o with
    | none => exact ih h
    | some d => exact h

theorem firstFault_append_none {l l' : List (Option FaultCode)} (h : firstFault l = none) :
    firstFault (l ++ l') = firstFault l' := by
  induction l with
  | nil => rfl
  | cons o l ih =>
    cases o with
    | none => exact ih h
    | some d => cases h

theorem exec_dithb_faults {s : State} (hf : s.port.faulted = false) {c : FaultCode}
    (h : firstFault (ditherTests s ++ [paletteTest s]) = some c) : exec .dithb s = .next (latched 0x50 c s) :=
  guarded_latched h 0x50 _ hf

theorem exec_dithfs_faults {s : State} (hf : s.port.faulted = false) {c : FaultCode}
    (h : firstFault (ditherTests s) = some c) : exec .dithfs s = .next (latched 0x51 c s) :=
  guarded_latched h 0x51 _ hf

/-- A common test that fails stops both ditherers. -/
theorem exec_ditherers_fault {s : State} (hf : s.port.faulted = false) {c : FaultCode}
    (h : firstFault (ditherTests s) = some c) :
    exec .dithb s = .next (latched 0x50 c s) ∧ exec .dithfs s = .next (latched 0x51 c s) :=
  ⟨exec_dithb_faults hf (firstFault_append_some h), exec_dithfs_faults hf h⟩

theorem inPalette_iff {pal : Palette} {v : Pixel} : inPalette pal v = true ↔ v ∈ [pal.p0, pal.p1, pal.p2, pal.p3] := by
  simp [inPalette, or_assoc]

theorem allInPalette_iff {pal : Palette} {m : Memory} {buf w h : Nat} :
    allInPalette pal m buf w h = true ↔
      ∀ x y, x < w → y < h → memReadPix m (pixAddr buf w x y) ∈ [pal.p0, pal.p1, pal.p2, pal.p3] := by
  simp only [allInPalette, List.all_eq_true, List.mem_range, inPalette_iff]
  exact ⟨fun h x y hx hy => h y hy x hx, fun h y hy x hx => h x y hx hy⟩

/-! ## The host's own accesses (R72, R73, R93) -/

theorem hostAccess_pass (a : Nat) (s : State) : hostAccess a none s = .next s := rfl

theorem memAccess8_outside {p : Params} {a : Nat} (h : p.memBytes ≤ a) : memAccess8 p a = some .buffer :=
  if_neg (by omega)

theorem memAccess16_odd {p : Params} {a : Nat} (h : a % 2 = 1) : memAccess16 p a = some .align :=
  if_pos (by omega)

theorem memAccess16_outside {p : Params} {a : Nat} (h : a % 2 = 0) (h' : p.memBytes ≤ a + 1) :
    memAccess16 p a = some .buffer := by
  rw [memAccess16, if_neg (by omega), if_neg (by omega)]

/-! The host's step at an access to MEM is the access itself, on the state with the turn taken and the index moved on. -/

theorem step_st8 {s : State} {a : Nat} {v : Byte} (hn : hostNext s (.st8 a v)) :
    step s = hostAccess a (memAccess8 s.params a) { advance (turnTaken s) with mem := memWrite s.mem a v } := by
  rw [step_action hn, hostAction, turnTaken_params, turnTaken_mem]

theorem step_ld8 {s : State} {a : Nat} (hn : hostNext s (.ld8 a)) :
    step s = hostAccess a (memAccess8 s.params a)
      (hostReads (BitVec.ofNat 32 (memRead s.mem a).toNat) (advance (turnTaken s))) := by
  have hword : (0 : BitVec 24) ++ memRead s.mem a = BitVec.ofNat 32 (memRead s.mem a).toNat := by
    apply BitVec.eq_of_toNat_eq
    have hbyte := (memRead s.mem a).isLt
    rw [toNat_zero_append, BitVec.toNat_ofNat]
    omega
  rw [step_action hn, hostAction, turnTaken_params, turnTaken_mem, hword]

theorem step_st16 {s : State} {a : Nat} {v : Pixel} (hn : hostNext s (.st16 a v)) :
    step s = hostAccess a (memAccess16 s.params a) { advance (turnTaken s) with mem := memWritePix s.mem a v } := by
  rw [step_action hn, ← turnTaken_params s, ← turnTaken_mem s]
  rfl

/-- A pixel in MEM is little-endian (R71). -/
theorem low16_memReadPix (m : Memory) (a : Nat) :
    low16 (memReadPix m a) = BitVec.ofNat 32 (2 ^ 8 * (memRead m (a + 1)).toNat + (memRead m a).toNat) := by
  apply BitVec.eq_of_toNat_eq
  have hhi := (memRead m (a + 1)).isLt
  have hlo := (memRead m a).isLt
  rw [low16_toNat, memReadPix, toNat_append_eq_add, BitVec.toNat_ofNat]
  omega

theorem step_ld16 {s : State} {a : Nat} (hn : hostNext s (.ld16 a)) :
    step s = hostAccess a (memAccess16 s.params a)
      (hostReads (BitVec.ofNat 32 (2 ^ 8 * (memRead s.mem (a + 1)).toNat + (memRead s.mem a).toNat))
        (advance (turnTaken s))) := by
  rw [step_action hn, hostAction, turnTaken_params, turnTaken_mem, low16_memReadPix]

end Sys2Proof.Machine

namespace Sys2Proof.Proofs

open Sys2Proof.Machine

/-- Settles O13, by what there is to send and whether there is a channel, then test by test. -/
theorem wrbulkaArmsOrSends : Obligations.WrbulkaArmsOrSends := by
  unfold Obligations.WrbulkaArmsOrSends
  refine fun s => ⟨fun hfits hrun hfree => ?_, fun hf => ⟨fun hlong => ?_, fun hfits => ⟨fun hodd => ?_, fun heven hout => ?_⟩⟩⟩
  · rw [exec_wrbulka_free hfits hrun hfree]
    refine ⟨fun hzero => ?_, fun hne hno => ?_, fun hne hok => ?_⟩
    · rw [runPixels_eq_nil.2 hzero]
      rfl
    · rw [bulkReturn, bulkSend_sync (s := disarm s) (mt runPixels_eq_nil.1 hne) hno, syncSend, frameEvents_pixels, ← List.append_assoc]
      rfl
    · rw [bulkReturn, bulkSend_arm (s := disarm s) (mt runPixels_eq_nil.1 hne) hok, armTransfer, runPixels_length]
      rfl
  · exact exec_wrbulka_faults hf (by rw [wrbulkaTests, decide_eq_true hlong]; rfl)
  · exact exec_wrbulka_faults hf (by rw [wrbulkaTests, decide_eq_false (by omega), checkBuf_align hodd]; rfl)
  · exact exec_wrbulka_faults hf (by rw [wrbulkaTests, decide_eq_false (by omega), checkBuf_even heven hout]; rfl)

/-- Settles O49, test by test. -/
theorem resampleFaultsInOrder : Obligations.ResampleFaultsInOrder := by
  unfold Obligations.ResampleFaultsInOrder
  rintro s src dst nSrc nDst hf rfl rfl (hsrc : nSrc = srcBytes s.rsm) (hdst : nDst = dstBytes s.rsm)
  subst hsrc hdst
  refine ⟨fun hinvalid => exec_resample_faults hf ?_, fun hvalid => ⟨fun hodd => exec_resample_faults hf ?_,
    fun heven hout => exec_resample_faults hf ?_, fun heven hin hodd => exec_resample_faults hf ?_,
    fun heven hin heven' hbad => exec_resample_faults hf ?_⟩⟩ <;> rw [resampleTests]
  · rw [hinvalid]
    rfl
  · rw [hvalid, checkBuf_align hodd]
    rfl
  · rw [hvalid, checkBuf_even heven hout]
    rfl
  · rw [hvalid, checkBuf_pass heven hin, checkBuf_align hodd]
    rfl
  · rw [hvalid, checkBuf_pass heven hin]
    by_cases hout : s.params.memBytes < s.port.a.a1.toNat + dstBytes s.rsm
    · rw [checkBuf_even heven' hout]
      rfl
    · obtain ⟨b, hlo, hhi, hlo', hhi'⟩ := hbad.resolve_left hout
      have hoverlap : disjointRanges s.port.a.a0.toNat (srcBytes s.rsm) s.port.a.a1.toNat (dstBytes s.rsm) = false :=
        Bool.eq_false_iff.2 fun h => disjointRanges_iff.1 h b hlo hhi ⟨hlo', hhi'⟩
      rw [checkBuf_pass heven' (Nat.le_of_not_lt hout), hoverlap]
      rfl

/-- Settles O48: the destination painted pixel by pixel, the source never overwritten. -/
theorem resampleCopiesTheSelectedPixels : Obligations.ResampleCopiesTheSelectedPixels := by
  unfold Obligations.ResampleCopiesTheSelectedPixels
  intro s hmem hmaps hvalid heven (hin : _ + srcBytes s.rsm ≤ _) heven' (hin' : _ + dstBytes s.rsm ≤ _) hapart
  have hdisjoint : disjointRanges s.port.a.a0.toNat (srcBytes s.rsm) s.port.a.a1.toNat (dstBytes s.rsm) = true :=
    disjointRanges_iff.2 hapart
  have hpass : firstFault (resampleTests s) = none := by
    rw [resampleTests, hvalid, checkBuf_pass heven hin, checkBuf_pass heven' hin', hdisjoint]
    rfl
  have hpainted := resampleMem_painted hmem hmaps hvalid hdisjoint
  exact ⟨_, exec_resample_pass hpass, fun x y hx hy => hpainted.done x y hx hy (.inl hy), hpainted.outside⟩

/-- Settles O51, test by test. -/
theorem ditherFaultsInOrder : Obligations.DitherFaultsInOrder := by
  unfold Obligations.DitherFaultsInOrder
  rintro s buf w h hf rfl rfl rfl
  refine ⟨fun hbig => exec_ditherers_fault hf ?_, fun hw hh => ⟨fun hodd => exec_ditherers_fault hf ?_,
    fun heven hout => exec_ditherers_fault hf ?_, fun heven hin hcolour => exec_dithb_faults hf ?_⟩⟩
  · rw [ditherTests, dimTest_fault hbig]
    rfl
  · rw [ditherTests, dimTest_pass.2 ⟨hw, hh⟩, checkBuf_align hodd]
    rfl
  · rw [ditherTests, dimTest_pass.2 ⟨hw, hh⟩, checkBuf_even heven hout]
    rfl
  · have hpass : firstFault (ditherTests s) = none := by
      rw [ditherTests, dimTest_pass.2 ⟨hw, hh⟩, checkBuf_pass heven hin]
      rfl
    obtain ⟨x, y, hx, hy, hforeign⟩ := hcolour
    have hnot : allInPalette s.port.pal s.mem s.port.a.a0.toNat s.port.a.a1.toNat s.port.a.a2.toNat = false :=
      Bool.eq_false_iff.2 fun hall => hforeign (allInPalette_iff.1 hall x y hx hy)
    rw [firstFault_append_none hpass, paletteTest, hnot]
    rfl

/-- Settles O56, access by access: its test, then its effect. -/
theorem hostAccessesMem : Obligations.HostAccessesMem := by
  unfold Obligations.HostAccessesMem
  rintro s a ⟨hwf, -⟩
  refine ⟨fun v hn => ⟨fun hin => ?_, fun hout => ?_⟩, fun hn => ⟨fun hin => ?_, fun hout => ?_⟩,
    fun v hn => ⟨fun hodd => ?_, fun heven hout => ?_, fun heven hin => ?_⟩,
    fun hn => ⟨fun hodd => ?_, fun heven hout => ?_, fun heven hin => ?_⟩⟩
  · rw [step_st8 hn, memAccess8_eq_none.2 hin]
    refine ⟨_, hostAccess_pass a _, ?_, fun b hb => ?_⟩ <;> rw [memRead_memWrite hwf]
    · rw [if_pos rfl]
    · rw [if_neg hb]
  · rw [step_st8 hn, memAccess8_outside hout]
    rfl
  · rw [step_ld8 hn, memAccess8_eq_none.2 hin, hostAccess_pass]
  · rw [step_ld8 hn, memAccess8_outside hout]
    rfl
  · rw [step_st16 hn, memAccess16_odd hodd]
    rfl
  · rw [step_st16 hn, memAccess16_outside heven hout]
    rfl
  · rw [step_st16 hn, memAccess16_eq_none.2 ⟨heven, hin⟩]
    refine ⟨_, hostAccess_pass a _, ?_, ?_, memReadPix_memWritePix_same hwf a v, fun b hb hb' => ?_⟩ <;>
      rw [memRead_memWritePix hwf]
    · rw [if_neg (by omega), if_pos rfl]
    · rw [if_pos rfl]
    · rw [if_neg hb', if_neg hb]
  · rw [step_ld16 hn, memAccess16_odd hodd]
    rfl
  · rw [step_ld16 hn, memAccess16_outside heven hout]
    rfl
  · rw [step_ld16 hn, memAccess16_eq_none.2 ⟨heven, hin⟩, hostAccess_pass]

end Sys2Proof.Proofs

/-! # The command word: encoding, decoding, and the words that are no command (R100 to R105) -/

namespace Sys2Proof.Machine

/-! ## The fields of a word, as numbers -/

theorem wordOp_encode (i : Instr) : wordOp (encode i) = i.opcode.toNat := by
  rw [← opField_toNat, opField_encode]

theorem wordImm_encode (i : Instr) : wordImm (encode i) = i.imm.toNat := by
  rw [← immField_toNat, immField_encode]

theorem opField_eq_ofNat (w : Word) : opField w = BitVec.ofNat 8 (wordOp w) := by
  rw [← opField_toNat, BitVec.ofNat_toNat, BitVec.setWidth_eq]

/-- No bit of a word lies outside its two fields (R100). -/
theorem encode_eq_of_fields {i : Instr} {w : Word} (hop : wordOp w = i.opcode.toNat) (himm : wordImm w = i.imm.toNat) :
    encode i = w := by
  have hop' : opField w = i.opcode := BitVec.eq_of_toNat_eq ((opField_toNat w).trans hop)
  have himm' : immField w = i.imm := BitVec.eq_of_toNat_eq ((immField_toNat w).trans himm)
  rw [encode, ← hop', ← himm', fields_append]

theorem immField_eq_zero_iff {w : Word} : immField w = 0 ↔ wordImm w = 0 := by
  rw [← immField_toNat]
  exact BitVec.toNat_eq (y := 0#24)

/-- A format's reserved bits, those of the immediate field from number `k` up, are zero (R101). -/
theorem highBits_eq_zero_iff {w : Word} {k n : Nat} (hn : k + n = 24) :
    w.extractLsb' k n = (0 : BitVec n) ↔ wordImm w < 2 ^ k := by
  have hhigh : (w.extractLsb' k n).toNat = wordImm w / 2 ^ k := by
    rw [BitVec.extractLsb'_toNat, Nat.shiftRight_eq_div_pow, wordImm, ← hn, Nat.pow_add, Nat.mod_mul_right_div_self]
  rw [← Nat.div_eq_zero_iff_lt (Nat.two_pow_pos k), ← hhigh]
  exact BitVec.toNat_eq (y := 0#n)

/-- The immediate of a word whose reserved bits are zero. -/
theorem lowBits_toNat {w : Word} {k : Nat} (hk : k ≤ 24) (himm : wordImm w < 2 ^ k) :
    (w.extractLsb' 0 k).toNat = wordImm w := by
  rw [toNat_lowBits, ← Nat.mod_eq_of_lt himm, wordImm, Nat.mod_mod_of_dvd _ (Nat.pow_dvd_pow 2 hk)]

/-! ## One equation for each format (R101) -/

theorem decodeC0_legal {w : Word} (himm : wordImm w = 0) (i : Instr) : decodeC0 w i = .command i :=
  if_pos (immField_eq_zero_iff.2 himm)

theorem decodeC0_illegal {w : Word} (himm : wordImm w ≠ 0) (i : Instr) :
    decodeC0 w i = .illegal (.reservedBitSet (opField w)) :=
  if_neg (mt immField_eq_zero_iff.1 himm)

theorem decodeCB_legal {w : Word} (himm : wordImm w < 2 ^ 8) (mk : Byte → Instr) :
    decodeCB w mk = .command (mk (w.extractLsb' 0 8)) :=
  if_pos ((highBits_eq_zero_iff (n := 16) rfl).2 himm)

theorem decodeCB_illegal {w : Word} (himm : 2 ^ 8 ≤ wordImm w) (mk : Byte → Instr) :
    decodeCB w mk = .illegal (.reservedBitSet (opField w)) :=
  if_neg (mt (highBits_eq_zero_iff (n := 16) rfl).1 (Nat.not_lt.2 himm))

theorem decodeCR_legal {w : Word} (himm : wordImm w < 2 ^ 2) (mk : BitVec 2 → Instr) :
    decodeCR w mk = .command (mk (w.extractLsb' 0 2)) :=
  if_pos ((highBits_eq_zero_iff (n := 22) rfl).2 himm)

theorem decodeCR_illegal {w : Word} (himm : 2 ^ 2 ≤ wordImm w) (mk : BitVec 2 → Instr) :
    decodeCR w mk = .illegal (.reservedBitSet (opField w)) :=
  if_neg (mt (highBits_eq_zero_iff (n := 22) rfl).1 (Nat.not_lt.2 himm))

/-! ## Decoding -/

/-- The opcodes of R104 that are not of format C0. -/
def opsWithImm : List Nat := [0x10, 0x11, 0x14, 0x23]

/-- The map of R104, format by format: which operation, with which opcode and which immediate, a word can decode to. -/
inductive DecodedBy (w : Word) : Decoded → Prop
  | c0 (i : Instr) (hop : wordOp w = i.opcode.toNat) (himm : i.imm = 0) (hmem : wordOp w ∈ opsC0) : DecodedBy w (decodeC0 w i)
  | cb (mk : Byte → Instr) (hop : ∀ b, wordOp w = (mk b).opcode.toNat) (himm : ∀ b, (mk b).imm = (0 : BitVec 16) ++ b)
      (hmem : wordOp w ∈ [0x10, 0x11]) : DecodedBy w (decodeCB w mk)
  | ct (hop : wordOp w = 0x14) : DecodedBy w (decodeCT w .wait)
  | cr (hop : wordOp w = 0x23) : DecodedBy w (decodeCR w .setrot)
  | unknown (hop : wordOp w ∉ opsWithImm ++ opsC0) : DecodedBy w (.illegal (.unknownOpcode (opField w)))

theorem decode_decodedBy (w : Word) : DecodedBy w (decode w) := by
  have c0 (i : Instr) (himm : i.imm = 0) (hmem : i.opcode.toNat ∈ opsC0) (hop : wordOp w = i.opcode.toNat) :
      DecodedBy w (decodeC0 w i) := .c0 i hop himm (hop ▸ hmem)
  unfold decode
  rw [opField_toNat]
  split
  case h_1 hop => exact .cb .wrcmd (fun _ => hop) (fun _ => rfl) (by simp [hop])
  case h_2 hop => exact .cb .wrdat (fun _ => hop) (fun _ => rfl) (by simp [hop])
  case h_5 hop => exact .ct hop
  case h_12 hop => exact .cr hop
  case h_20 =>
    refine .unknown ?_
    simp only [opsWithImm, opsC0, List.cons_append, List.nil_append, List.mem_cons, List.not_mem_nil, or_false, not_or]
    and_intros <;> assumption
  all_goals exact c0 _ rfl (by decide) ‹_›

/-- A word that decodes to an operation is the operation's word. -/
theorem encode_of_decode {w : Word} {i : Instr} (h : decode w = .command i) : encode i = w := by
  have hby := decode_decodedBy w
  rw [h] at hby
  generalize hd : Decoded.command i = d at hby
  cases hby with
  | c0 j hop himm _ =>
    by_cases hzero : wordImm w = 0
    · rw [decodeC0_legal hzero] at hd
      cases hd
      exact encode_eq_of_fields hop (by rw [hzero, himm]; rfl)
    · rw [decodeC0_illegal hzero] at hd
      cases hd
  | cb mk hop himm _ =>
    by_cases hlt : wordImm w < 2 ^ 8
    · rw [decodeCB_legal hlt] at hd
      cases hd
      exact encode_eq_of_fields (hop _) (by rw [himm, toNat_zero_append, lowBits_toNat (by decide) hlt])
    · rw [decodeCB_illegal (Nat.not_lt.1 hlt)] at hd
      cases hd
  | ct hop =>
    cases hd
    exact encode_eq_of_fields hop (immField_toNat w).symm
  | cr hop =>
    by_cases hlt : wordImm w < 2 ^ 2
    · rw [decodeCR_legal hlt] at hd
      cases hd
      exact encode_eq_of_fields hop (by rw [Instr.imm, toNat_zero_append, lowBits_toNat (by decide) hlt])
    · rw [decodeCR_illegal (Nat.not_lt.1 hlt)] at hd
      cases hd
  | unknown => cases hd

/-! ## Encoding, then decoding -/

theorem decodeCB_encode {i : Instr} {b : Byte} (himm : i.imm = (0 : BitVec 16) ++ b) (mk : Byte → Instr) :
    decodeCB (encode i) mk = .command (mk b) := by
  have hb : wordImm (encode i) = b.toNat := by rw [wordImm_encode, himm, toNat_zero_append]
  have hlt : wordImm (encode i) < 2 ^ 8 := hb ▸ b.isLt
  rw [decodeCB_legal hlt, BitVec.eq_of_toNat_eq ((lowBits_toNat (by decide) hlt).trans hb)]

theorem decodeCR_encode {i : Instr} {rot : BitVec 2} (himm : i.imm = (0 : BitVec 22) ++ rot) (mk : BitVec 2 → Instr) :
    decodeCR (encode i) mk = .command (mk rot) := by
  have hrot : wordImm (encode i) = rot.toNat := by rw [wordImm_encode, himm, toNat_zero_append]
  have hlt : wordImm (encode i) < 2 ^ 2 := hrot ▸ rot.isLt
  rw [decodeCR_legal hlt, BitVec.eq_of_toNat_eq ((lowBits_toNat (by decide) hlt).trans hrot)]

/-- The word of an operation decodes to it. -/
theorem decode_encode (i : Instr) : decode (encode i) = .command i := by
  unfold decode
  rw [opField_encode]
  cases i
  case wrcmd b => exact decodeCB_encode rfl _
  case wrdat b => exact decodeCB_encode rfl _
  case wait ms => exact congrArg (fun ms => Decoded.command (.wait ms)) (immField_encode (.wait ms))
  case setrot rot => exact decodeCR_encode rfl _
  all_goals exact decodeC0_legal (wordImm_encode _) _

/-! ## Illegal words (R105) -/

/-- A word the decoder rejects is illegal in every build. -/
theorem illegalWord_of_decode {w : Word} {why : Illegal} (h : decode w = .illegal why) (v : Variant) : illegalWord v w := by
  have hby := decode_decodedBy w
  rw [h] at hby
  generalize hd : Decoded.illegal why = d at hby
  cases hby with
  | c0 j hop himm hmem =>
    refine .inr (.inl ⟨hmem, fun hzero => ?_⟩)
    rw [decodeC0_legal hzero] at hd
    cases hd
  | cb mk hop himm hmem =>
    refine .inr (.inr (.inl ⟨hmem, Nat.not_lt.1 fun hlt => ?_⟩))
    rw [decodeCB_legal hlt] at hd
    cases hd
  | ct hop => cases hd
  | cr hop =>
    refine .inr (.inr (.inr (.inl ⟨hop, Nat.not_lt.1 fun hlt => ?_⟩)))
    rw [decodeCR_legal hlt] at hd
    cases hd
  | unknown hop => exact .inl hop

/-- An operation's opcode is one of R104, and the immediate bits its format marks zero are zero (R101). -/
theorem encode_wellFormed (i : Instr) :
    i.opcode.toNat ∈ opsWithImm ++ opsC0 ∧ (i.opcode.toNat ∈ opsC0 → i.imm.toNat = 0) ∧
      (i.opcode.toNat ∈ [0x10, 0x11] → i.imm.toNat < 2 ^ 8) ∧ (i.opcode.toNat = 0x23 → i.imm.toNat < 2 ^ 2) := by
  cases i
  case wrcmd b =>
    have himm : (Instr.wrcmd b).imm.toNat < 2 ^ 8 := (toNat_zero_append b).trans_lt b.isLt
    simpa [Instr.opcode, opsWithImm, opsC0] using himm
  case wrdat b =>
    have himm : (Instr.wrdat b).imm.toNat < 2 ^ 8 := (toNat_zero_append b).trans_lt b.isLt
    simpa [Instr.opcode, opsWithImm, opsC0] using himm
  case wait ms => simp [Instr.opcode, opsWithImm, opsC0]
  case setrot rot =>
    have himm : (Instr.setrot rot).imm.toNat < 2 ^ 2 := (toNat_zero_append rot).trans_lt rot.isLt
    simpa [Instr.opcode, opsWithImm, opsC0] using himm
  all_goals decide

/-- The operations a paged panel does not have, by opcode and immediate (R105). -/
theorem not_availableIn_paged_iff (i : Instr) :
    i.availableIn .pagedMono = false ↔
      i.opcode.toNat = 0x20 ∨ i.opcode.toNat = 0x24 ∨ (i.opcode.toNat = 0x23 ∧ i.imm.toNat ≠ 0) := by
  cases i
  case setrot rot =>
    have himm : (Instr.setrot rot).imm.toNat = rot.toNat := toNat_zero_append rot
    rw [himm, Instr.availableIn, beq_eq_false_iff_ne, ne_eq, BitVec.toNat_eq]
    simp [Instr.opcode]
  all_goals simp [Instr.availableIn, Instr.opcode]

/-- The word of an operation is illegal exactly in a build that does not have the operation. -/
theorem illegalWord_encode_iff (v : Variant) (i : Instr) : illegalWord v (encode i) ↔ i.availableIn v = false := by
  obtain ⟨hop, hzero, hbyte, hrot⟩ := encode_wellFormed i
  unfold illegalWord
  rw [wordOp_encode, wordImm_encode]
  constructor
  · rintro (h | ⟨h, hne⟩ | ⟨h, hge⟩ | ⟨h, hge⟩ | ⟨rfl, h⟩)
    · exact absurd hop h
    · exact absurd (hzero h) hne
    · exact absurd (hbyte h) (Nat.not_lt.2 hge)
    · exact absurd (hrot h) (Nat.not_lt.2 hge)
    · exact (not_availableIn_paged_iff i).2 h
  · intro h
    cases v with
    | windowedRam => cases h
    | pagedMono => exact .inr (.inr (.inr (.inr ⟨rfl, (not_availableIn_paged_iff i).1 h⟩)))

/-! ## The built variant chooses the semantics (R105, R106) -/

section
variable {s : State}

theorem exec_setwin_windowed (hv : s.params.variant = .windowedRam) : exec .setwin s = .next (setWinWindowed s) := by
  rw [exec, execSetwin, hv]

theorem exec_setwin_paged (hv : s.params.variant = .pagedMono) :
    exec .setwin s = .next (raiseFault 0x20 .illegalCmd s) := by
  rw [exec, execSetwin, hv]

theorem exec_pushpix_paged (hv : s.params.variant = .pagedMono) :
    exec .pushpix s = .next (raiseFault 0x24 .illegalCmd s) := by
  rw [exec, execPushpix, hv]

theorem exec_setrot_windowed (hv : s.params.variant = .windowedRam) (rot : BitVec 2) :
    exec (.setrot rot) s = .next (setRotWindowed rot s) := by
  rw [exec, execSetrot, hv]

theorem exec_setrot_paged (hv : s.params.variant = .pagedMono) (rot : BitVec 2) :
    exec (.setrot rot) s = .next (setRotPaged rot s) := by
  rw [exec, execSetrot, hv]

theorem exec_drawimg_paged (hv : s.params.variant = .pagedMono) : exec .drawimg s = .next (drawImgPaged s) := by
  rw [exec, execDrawimg, hv]

theorem exec_fillrect_paged (hv : s.params.variant = .pagedMono) : exec .fillrect s = .next (fillRectPaged s) := by
  rw [exec, execFillrect, hv]

theorem exec_clear_paged (hv : s.params.variant = .pagedMono) : exec .clear s = .next (clearPaged s) := by
  rw [exec, execClear, hv]

theorem exec_setrot_zero (hv : s.params.variant = .pagedMono) : exec (.setrot 0) s = .next (complete true s) :=
  exec_setrot_paged hv 0

theorem exec_setrot_nonzero (hv : s.params.variant = .pagedMono) {rot : BitVec 2} (hrot : rot ≠ 0) :
    exec (.setrot rot) s = .next (raiseFault 0x23 .illegalCmd s) := by
  have htest : firstFault [faultIf (rot != 0) .illegalCmd] = some .illegalCmd := by
    rw [bne_iff_ne.2 hrot]
    rfl
  rw [exec_setrot_paged hv, setRotPaged, guarded_fault htest]

/-- An operation the build does not have raises `ILLEGAL_CMD` and does nothing else (R105). -/
theorem exec_unavailable {i : Instr} (hf : s.port.faulted = false) (h : i.availableIn s.params.variant = false) :
    exec i s = .next (latched i.opcode .illegalCmd s) := by
  rw [← raiseFault_fresh hf]
  cases hv : s.params.variant <;> rw [hv] at h
  case windowedRam => cases h
  case pagedMono =>
    cases i
    case setwin => exact exec_setwin_paged hv
    case pushpix => exact exec_pushpix_paged hv
    case setrot rot => exact exec_setrot_nonzero hv (beq_eq_false_iff_ne.1 h)
    all_goals cases h

end

end Sys2Proof.Machine

namespace Sys2Proof.Proofs

open Sys2Proof.Machine

/-- Settles O1: a word is its opcode and its immediate, and each format fixes the bits it does not carry. -/
theorem decodeInvertsEncode : Obligations.DecodeInvertsEncode := by
  unfold Obligations.DecodeInvertsEncode
  exact fun i => ⟨decode_encode i, fun _ => encode_of_decode⟩

/-- Settles O2: each legal word is the encoder's word of its command. -/
theorem specWordsDecode : Obligations.SpecWordsDecode := by
  unfold Obligations.SpecWordsDecode
  exact ⟨decode_encode (.wrcmd 0x2A), decode_encode (.wait 100), decode_encode (.setrot 1), decode_encode .setwin,
    decode_encode .buildmaps, decode_encode .dithfs, by decide, by decide⟩

/-- Settles O3: a word the decoder rejects is illegal; one it accepts is an operation's own word, illegal exactly where the
build lacks the operation. -/
theorem illegalWordsRaiseIllegalCmd : Obligations.IllegalWordsRaiseIllegalCmd := by
  unfold Obligations.IllegalWordsRaiseIllegalCmd
  intro w s hf
  cases hd : decode w with
  | illegal why =>
    refine ⟨fun _ => ?_, fun hlegal => absurd (illegalWord_of_decode hd _) hlegal⟩
    rw [issue_illegal hf hd, opField_eq_ofNat]
  | command i =>
    have hw := encode_of_decode hd
    refine ⟨fun hill => ?_, fun _ => ⟨i, hw, issue_command hf hd⟩⟩
    rw [← hw, illegalWord_encode_iff] at hill
    rw [issue_command hf hd, exec_unavailable hf hill, ← opField_eq_ofNat, ← hw, opField_encode]

end Sys2Proof.Proofs

/-! # Window, rotation and the faults of the paged surface (R257, R258, R270, R296 to R302) -/

namespace Sys2Proof.Machine

section
variable {s : State}

/-! ## The tests of the window commands (R218, R255) -/

theorem windowTests_busy (h : s.te.st ≠ .idle) : firstFault [busTest s, underrunTest s] = some .busConflict := by
  rw [busTest_fault h]
  rfl

theorem windowTests_underrun (h : s.te.st = .idle) (hpartly : winPartly s.surf.win = true) :
    firstFault [busTest s, underrunTest s] = some .winUnderrun := by
  rw [busTest_pass.2 h, underrunTest_fault hpartly]
  rfl

/-- Arming a window on an idle engine: the three transactions, the shadow, and `RES` (R257). -/
theorem complete_armWindow (c : Rect) : complete true (armWindow c s) = { s with
    te := restedAt false s.te
    wire := s.wire ++ rectEvents s.params c
    surf := { s.surf with win := windowOf c }
    port := { s.port with res := true } } := by
  rw [← armWindow_wire]
  rfl

/-! ## SETWIN (R258) -/

theorem setWinWindowed_inverted
    (h : s.port.a.a2.toInt < s.port.a.a0.toInt ∨ s.port.a.a3.toInt < s.port.a.a1.toInt) :
    setWinWindowed s = complete true s :=
  if_pos h

/-- The part of the window in `A0`..`A3` that lies on the panel. -/
def windowClip (s : State) : Option Rect :=
  clipRect s.surf.width.toNat s.surf.height.toNat s.port.a.a0.toInt s.port.a.a1.toInt
    (s.port.a.a2.toInt - s.port.a.a0.toInt + 1) (s.port.a.a3.toInt - s.port.a.a1.toInt + 1)

theorem setWinWindowed_outside (hx : s.port.a.a0.toInt ≤ s.port.a.a2.toInt) (hy : s.port.a.a1.toInt ≤ s.port.a.a3.toInt)
    (hc : windowClip s = none) : setWinWindowed s = complete true s := by
  unfold setWinWindowed
  dsimp only
  rw [if_neg (by simp only [asCoord]; omega), show clipToPanel s _ _ _ _ = none from hc]

theorem setWinWindowed_visible {c : Rect} (hx : s.port.a.a0.toInt ≤ s.port.a.a2.toInt)
    (hy : s.port.a.a1.toInt ≤ s.port.a.a3.toInt) (hc : windowClip s = some c) :
    setWinWindowed s = guarded 0x20 [busTest s, underrunTest s] (fun s => complete true (armWindow c s)) s := by
  unfold setWinWindowed
  dsimp only
  rw [if_neg (by simp only [asCoord]; omega), show clipToPanel s _ _ _ _ = some c from hc]

/-! ## SETROT (R270) -/

theorem rotSwaps_iff (old new : BitVec 2) : rotSwaps old new = true ↔ new.toNat % 2 ≠ old.toNat % 2 := bne_iff_ne

theorem orientByte_eq {o : Orient} {rot : BitVec 2} {b : Byte} (h : [o.r0, o.r1, o.r2, o.r3][rot.toNat]? = some b) :
    orientByte o rot = b := by
  have hlt := rot.isLt
  unfold orientByte
  generalize rot.toNat = k at h hlt
  interval_cases k <;> exact Option.some.inj h

/-- `s` with the orientation byte of `rot` sent, no window armed, and the rotation recorded. -/
def oriented (rot : BitVec 2) (s : State) : State :=
  let t := disarm (syncSend true [orientByte s.params.orient rot] (syncSend false [s.params.opMadctl] s))
  { t with surf := { t.surf with rotation := rot } }

/-- The sizes of the panel, exchanged. -/
def swapSizes (s : State) : State := { s with surf := { s.surf with width := s.surf.height, height := s.surf.width } }

theorem oriented_eq (rot : BitVec 2) : oriented rot s = { s with
    te := restedAt true s.te
    wire := s.wire ++ [.sel, .byte false s.params.opMadctl, .desel, .sel, .byte true (orientByte s.params.orient rot), .desel]
    surf := { s.surf with rotation := rot, win := { s.surf.win with armed := false } } } := by
  simp [oriented, syncSend, disarm, restedAt, frameEvents]

theorem exec_setrot_keeps (hv : s.params.variant = .windowedRam) (hready : surfaceReady s) {rot : BitVec 2}
    (hparity : rot.toNat % 2 = s.surf.rotation.toNat % 2) :
    exec (.setrot rot) s = .next (complete true (oriented rot s)) := by
  have hswap : rotSwaps s.surf.rotation rot = false := Bool.eq_false_iff.2 fun h => (rotSwaps_iff _ _).1 h hparity
  rw [exec_setrot_windowed hv, setRotWindowed, guarded_pass (windowTests_pass hready)]
  dsimp only
  rw [hswap]
  rfl

theorem exec_setrot_swaps (hv : s.params.variant = .windowedRam) (hready : surfaceReady s) {rot : BitVec 2}
    (hparity : rot.toNat % 2 ≠ s.surf.rotation.toNat % 2) :
    exec (.setrot rot) s =
      .next (complete true (armWindow (fullScreen (swapSizes (oriented rot s))) (swapSizes (oriented rot s)))) := by
  have hswap : rotSwaps s.surf.rotation rot = true := (rotSwaps_iff _ _).2 hparity
  rw [exec_setrot_windowed hv, setRotWindowed, guarded_pass (windowTests_pass hready)]
  dsimp only
  rw [hswap]
  rfl

/-- The last column or row of a panel, as a 16-bit value. -/
theorem ofNat_pred (v : BitVec 16) (h : 1 ≤ v.toNat) : BitVec.ofNat 16 (v.toNat - 1) = v - 1 := by
  bv_omega

theorem rectCount_panel {W H : Nat} (hw : 1 ≤ W) (hh : 1 ≤ H) :
    rectCount { x0 := 0, y0 := 0, x1 := W - 1, y1 := H - 1 } = W * H := by
  simp only [rectCount, rectCols, rectRows, Nat.sub_zero, Nat.sub_add_cancel hw, Nat.sub_add_cancel hh]

/-! ## The paged surface (R296, R298, R300) -/

theorem exec_drawimg_paged_visible (hv : s.params.variant = .pagedMono) {c : Rect} (hc : visible s = some c) :
    exec .drawimg s = .next (guarded 0x21 [checkBuf s.params s.port.a.a4.toNat (imageBytes s) 2, busTest s]
      (fun s => complete true (drawPages (imageLit s) c s)) s) := by
  rw [exec_drawimg_paged hv, drawImgPaged, show clipOperands s = some c from hc]

theorem exec_fillrect_paged_visible (hv : s.params.variant = .pagedMono) {c : Rect} (hc : visible s = some c) :
    exec .fillrect s = .next (guarded 0x22 [busTest s]
      (fun s => complete true (drawPages (fun _ _ => lit s.params (asColour s.port.a.a4)) c s)) s) := by
  rw [exec_fillrect_paged hv, fillRectPaged, show clipOperands s = some c from hc]

theorem busTest_only (h : s.te.st ≠ .idle) : firstFault [busTest s] = some .busConflict := by
  rw [busTest_fault h]
  rfl

end

end Sys2Proof.Machine

namespace Sys2Proof.Proofs

open Sys2Proof.Machine

/-- Settles O31, by where the window lies, then test by test. -/
theorem setwinArmsTheVisibleWindow : Obligations.SetwinArmsTheVisibleWindow := by
  unfold Obligations.SetwinArmsTheVisibleWindow
  refine fun s => ⟨fun hv hf => ?_, fun hv => ⟨fun hinv => ?_, ?_⟩⟩
  · rw [exec_setwin_paged hv, raiseFault_fresh hf]
  · rw [exec_setwin_windowed hv, setWinWindowed_inverted hinv]
    rfl
  · rintro hx hy o (rfl : o = windowClip s)
    refine ⟨fun hc => ?_, fun c hc => ?_⟩
    · rw [exec_setwin_windowed hv, setWinWindowed_outside hx hy hc]
      rfl
    · rw [exec_setwin_windowed hv, setWinWindowed_visible hx hy hc]
      refine ⟨fun hready => ?_, fun hf hbusy => ?_, fun hf hidle hpartly => ?_⟩
      · rw [guarded_pass (windowTests_pass hready), complete_armWindow]
        rfl
      · exact guarded_latched (windowTests_busy hbusy) 0x20 _ hf
      · exact guarded_latched (windowTests_underrun hidle hpartly) 0x20 _ hf

/-- Settles O39, by the variant and the parity of the code. -/
theorem setrotSetsTheRotation : Obligations.SetrotSetsTheRotation := by
  unfold Obligations.SetrotSetsTheRotation
  refine fun rot s => ⟨fun hv hready o ho => ⟨fun hparity => ?_, fun hparity hw hh => ?_⟩,
    fun hv hf => ⟨fun hbusy => ?_, fun hidle hpartly => ?_⟩, fun hv => ⟨?_, fun hrot hf => ?_⟩⟩
  · rw [exec_setrot_keeps hv hready hparity, oriented_eq, orientByte_eq ho]
    rfl
  · rw [exec_setrot_swaps hv hready hparity, complete_armWindow, oriented_eq, orientByte_eq ho]
    simp only [swapSizes, fullScreen, rectEvents, windowOf, rectCount_panel hh hw,
      Nat.mul_comm s.surf.height.toNat, ofNat_pred _ hw, ofNat_pred _ hh]
    rfl
  · rw [exec_setrot_windowed hv]
    exact guarded_latched (windowTests_busy hbusy) 0x23 _ hf
  · rw [exec_setrot_windowed hv]
    exact guarded_latched (windowTests_underrun hidle hpartly) 0x23 _ hf
  · rintro rfl
    exact exec_setrot_zero hv
  · rw [exec_setrot_nonzero hv hrot, raiseFault_fresh hf]

/-- Settles O44, test by test. -/
theorem pagedFaultsInOrder : Obligations.PagedFaultsInOrder := by
  unfold Obligations.PagedFaultsInOrder
  refine fun s hv hf => ⟨fun hvis => ?_, fun hbusy => ?_, ?_⟩
  · obtain ⟨c, hc⟩ := Option.ne_none_iff_exists'.1 hvis
    rw [exec_drawimg_paged_visible hv hc, exec_fillrect_paged_visible hv hc]
    refine ⟨fun hodd => guarded_latched ?_ 0x21 _ hf, fun heven hout => guarded_latched ?_ 0x21 _ hf,
      fun hin hbusy => guarded_latched ?_ 0x21 _ hf, fun hbusy => guarded_latched (busTest_only hbusy) 0x22 _ hf⟩
    · rw [checkBuf_align hodd]
      rfl
    · rw [(checkBuf_image hc heven).2 hout]
      rfl
    · rw [(checkBuf_image hc hin.1).1 hin, firstFault_none, busTest_only hbusy]
  · rw [exec_clear_paged hv]
    exact guarded_latched (busTest_only hbusy) 0x25 _ hf
  · rw [exec_pushpix_paged hv, raiseFault_fresh hf]

end Sys2Proof.Proofs

/-! # The frame loop: what it captures and what it issues (R128, R129, R316 to R318) -/

namespace Sys2Proof.Machine

/-! ## The colour of a sample (R128, R129) -/

theorem sampleIdx_toNat (w : Word) : (sampleIdx w).toNat = w.toNat / 2 ^ 29 % 4 := by
  rw [sampleIdx, BitVec.extractLsb'_toNat, Nat.shiftRight_eq_div_pow]

theorem paletteEntry_eq_getD (pal : Palette) (i : BitVec 2) : paletteEntry pal i = (palColours pal).getD i.toNat 0 := by
  have hlt := i.isLt
  unfold paletteEntry
  generalize i.toNat = k at hlt
  interval_cases k <;> rfl

theorem sampleColour_eq (pal : Palette) (w : Word) : sampleColour pal w = wordColour pal w := by
  rw [sampleColour, paletteEntry_eq_getD, sampleIdx_toNat, wordColour]

theorem wordColour_mem (pal : Palette) (w : Word) : wordColour pal w ∈ palColours pal := by
  have hlt : w.toNat / 2 ^ 29 % 4 < (palColours pal).length := Nat.mod_lt _ (by decide)
  rw [wordColour, List.getD_eq_getElem _ _ hlt]
  exact List.getElem_mem hlt

/-! ## Storing a pixel (R71, R74, R93) -/

theorem hostStore16_pass {a : Nat} {s : State} (heven : a % 2 = 0) (hin : a + 1 < s.params.memBytes) (v : Pixel) :
    hostStore16 a v s = .next { s with mem := memWritePix s.mem a v } := by
  rw [hostStore16, memAccess16_eq_none.2 ⟨heven, hin⟩, hostAccess_pass]

/-- A stored pixel reads back, and every byte outside it stays. -/
theorem memWritePix_stores {m : Memory} (hm : Memory.wf m = true) (a : Nat) (v : Pixel) :
    memReadPix (memWritePix m a v) a = v ∧
      ∀ b, b ≠ a → b ≠ a + 1 → memRead (memWritePix m a v) b = memRead m b := by
  refine ⟨memReadPix_memWritePix_same hm a v, fun b hb hb' => ?_⟩
  rw [memRead_memWritePix hm, if_neg hb', if_neg hb]

/-! ## The steps of the loop (R316) -/

section
variable {s : State} {cfg : FrameCfg}

theorem loopStep_first {w : Word} (heven : cfg.src.toNat % 2 = 0) (hin : cfg.src.toNat + 1 < s.params.memBytes) :
    loopStep { cfg := cfg, phase := .first w } s = .next { s with
      mem := memWritePix s.mem cfg.src.toNat (wordColour cfg.pal w)
      host := { s.host with firstDone := true, loop := some { cfg := cfg, phase := .capture 1 } } } := by
  rw [← sampleColour_eq]
  refine hostStore16_pass ?_ ?_ _
  · exact heven
  · exact hin

theorem loopStep_captured {i : Nat} (hi : 23040 ≤ i) :
    loopStep { cfg := cfg, phase := .capture i } s = .next (loopAt .resample { cfg := cfg, phase := .capture i } s) :=
  if_neg (Nat.not_lt.2 hi)

theorem loopStep_capture_waits {i : Nat} (hi : i < 23040) (hempty : s.host.fifo = []) :
    loopStep { cfg := cfg, phase := .capture i } s = .next s := by
  refine (if_pos hi).trans ?_
  rw [hempty]

theorem loopStep_capture {i : Nat} {w : Word} {rest : List Word} (hi : i < 23040) (hfifo : s.host.fifo = w :: rest)
    (heven : cfg.src.toNat % 2 = 0) (hin : cfg.src.toNat + 2 * i + 1 < s.params.memBytes) :
    loopStep { cfg := cfg, phase := .capture i } s = .next { s with
      mem := memWritePix s.mem (cfg.src.toNat + 2 * i) (wordColour cfg.pal w)
      host := { s.host with fifo := rest, loop := some { cfg := cfg, phase := .capture (i + 1) } } } := by
  refine (if_pos hi).trans ?_
  rw [hfifo, ← sampleColour_eq]
  refine hostStore16_pass ?_ ?_ _
  · exact (Nat.add_mul_mod_self_left _ _ _).trans heven
  · exact hin

theorem loopStep_clear_again {w : Word} (hdone : s.host.firstDone = true) :
    loopStep { cfg := cfg, phase := .clear w } s = .next (loopAt (.first w) { cfg := cfg, phase := .clear w } s) :=
  if_pos hdone

theorem loopStep_clear_first {w : Word} (hdone : s.host.firstDone = false) :
    loopStep { cfg := cfg, phase := .clear w } s =
      .next (loopIssue (clearActions cfg) (.first w) { cfg := cfg, phase := .clear w } s) :=
  if_neg (Bool.eq_false_iff.1 hdone)

end

/-! ## The lines it issues (R104, R108, R318) -/

theorem low16_eq_ofNat (v : BitVec 16) : low16 v = BitVec.ofNat 32 v.toNat := by
  rw [← low16_toNat, BitVec.ofNat_toNat, BitVec.setWidth_eq]

theorem clearActions_eq (cfg : FrameCfg) : clearActions cfg = clearWords cfg := by
  unfold clearActions clearWords
  cases cfg.bg with
  | none => rfl
  | some c => exact congrArg (fun v => [HostAction.wr 12 v, .wr 0 0x25000000]) (low16_eq_ofNat c)

theorem ditherActions_eq (cfg : FrameCfg) : ditherActions cfg = ditherWords cfg := by
  unfold ditherActions ditherWords
  cases cfg.dither <;> rfl

end Sys2Proof.Machine

namespace Sys2Proof.Proofs

open Sys2Proof.Machine

/-- Settles O59: each phase that stores a pixel, then the palette it comes from. -/
theorem frameLoopCapturesThePixels : Obligations.FrameLoopCapturesThePixels := by
  unfold Obligations.FrameLoopCapturesThePixels
  rintro s cfg ⟨hwf, -⟩
  refine ⟨fun w hn heven hin => ⟨_, ?_, memWritePix_stores hwf _ _⟩,
    fun i hn => ⟨fun hi => ?_, fun hi hempty => ?_,
      fun w rest hi hfifo heven hin => ⟨_, ?_, memWritePix_stores hwf _ _⟩⟩,
    fun w ph hn hagree => ?_⟩
  · rw [step_frameLoop hn, loopStep_first heven (by rwa [turnTaken_params]), turnTaken_mem, turnTaken_host]
  · rw [step_frameLoop hn, loopStep_captured hi, ← turnTaken_host s]
    rfl
  · rw [step_frameLoop hn, loopStep_capture_waits hi (by rwa [turnTaken_host])]
  · rw [step_frameLoop hn, loopStep_capture hi (by rwa [turnTaken_host]) heven (by rwa [turnTaken_params]), turnTaken_mem,
      turnTaken_host]
  · obtain ⟨-, -, -, hloop⟩ := hn
    have hpal : cfg.pal = s.port.pal := hagree _ hloop
    exact hpal ▸ wordColour_mem cfg.pal w

/-- Settles O60, phase by phase. -/
theorem frameLoopIssuesItsCommands : Obligations.FrameLoopIssuesItsCommands := by
  unfold Obligations.FrameLoopIssuesItsCommands
  intro s cfg ph hn
  rw [step_frameLoop hn]
  refine ⟨?_, ?_, ?_, ?_, ?_⟩
  · rintro w rfl
    refine ⟨fun hdone => ?_, fun hdone => ?_⟩
    · rw [loopStep_clear_again (by rwa [turnTaken_host]), ← turnTaken_host s]
      rfl
    · rw [loopStep_clear_first (by rwa [turnTaken_host]), clearActions_eq, ← turnTaken_host s]
      rfl
  · rintro rfl
    rw [← turnTaken_host s]
    rfl
  · rintro rfl
    rw [← turnTaken_host s, ← ditherActions_eq]
    rfl
  · rintro rfl
    rw [← turnTaken_host s]
    rfl
  · rintro rfl
    rw [← turnTaken_host s]
    rfl

end Sys2Proof.Proofs

/-! # The scale maps: their entries and BUILDMAPS (R141, R142, R144, R147) -/

namespace Sys2Proof.Machine

/-! ## Entries at a scale of 1 or more (R144, R147) -/

/-- The exact quotient moves on by at most 1 from one index to the next, as `65536 ≤ q`. -/
theorem quotient_succ_le (d : Nat) {q : Nat} (hq : 65536 ≤ q) : (d + 1) * 65536 / q ≤ d * 65536 / q + 1 :=
  calc (d + 1) * 65536 / q
    _ ≤ (d * 65536 + q) / q := Nat.div_le_div_right (by omega)
    _ = d * 65536 / q + 1 := Nat.add_div_right _ (by omega)

theorem mapEntry_succ_le (d n : Nat) {q : Nat} (hq : 65536 ≤ q) : mapEntry (d + 1) q n ≤ mapEntry d q n + 1 := by
  have hquot := quotient_succ_le d hq
  unfold mapEntry
  omega

theorem mapEntry_unit (d n : Nat) : mapEntry d 65536 n = min d (n - 1) :=
  congrArg (min · (n - 1)) (Nat.mul_div_cancel d (by decide))

/-! ## The tests of BUILDMAPS (R141) -/

/-- The fault that is taken is one that a test found. -/
theorem firstFault_mem {l : List (Option FaultCode)} {c : FaultCode} (h : firstFault l = some c) : some c ∈ l := by
  induction l with
  | nil => cases h
  | cons t l ih =>
    cases t with
    | none => exact List.mem_cons_of_mem _ (ih h)
    | some d => exact List.mem_cons.2 (.inl h.symm)

theorem faultIf_code {b : Bool} {c d : FaultCode} (h : faultIf b c = some d) : d = c := by
  cases b with
  | false => cases h
  | true => exact (Option.some.inj h).symm

/-- The tests of BUILDMAPS, in its order. -/
def buildmapsTests (s : State) : List (Option FaultCode) :=
  [faultIf (decide (maxDim < s.port.a.a0.toNat) || decide (maxDim < s.port.a.a1.toNat) ||
      decide (maxDim < s.port.a.a2.toNat) || decide (maxDim < s.port.a.a3.toNat)) .param,
    faultIf (s.port.a.a0.toNat == 0 || s.port.a.a1.toNat == 0) .param,
    faultIf (decide (s.params.mapMax.toNat < s.port.a.a2.toNat) || decide (s.params.mapMax.toNat < s.port.a.a3.toNat)) .param,
    faultIf (s.port.a.a4.toNat == 0) .param]

/-- The operands BUILDMAPS takes (R141). -/
structure MapOperandsOk (s : State) : Prop where
  sw : s.port.a.a0 ≠ 0
  sh : s.port.a.a1 ≠ 0
  q : s.port.a.a4 ≠ 0
  swMax : s.port.a.a0.toNat ≤ maxDim
  shMax : s.port.a.a1.toNat ≤ maxDim
  dwMax : s.port.a.a2.toNat ≤ s.params.mapMax.toNat
  dhMax : s.port.a.a3.toNat ≤ s.params.mapMax.toNat

/-- `MAP_MAX` is a 16-bit number, so it bounds the destination by the largest dimension as well. -/
theorem mapMax_le_maxDim (s : State) : s.params.mapMax.toNat ≤ maxDim := Nat.le_of_lt_succ s.params.mapMax.isLt

theorem MapOperandsOk.dwDim {s : State} (h : MapOperandsOk s) : s.port.a.a2.toNat ≤ maxDim :=
  h.dwMax.trans (mapMax_le_maxDim s)

theorem MapOperandsOk.dhDim {s : State} (h : MapOperandsOk s) : s.port.a.a3.toNat ≤ maxDim :=
  h.dhMax.trans (mapMax_le_maxDim s)

theorem toNat_ne_zero_iff {v : Word} : v.toNat ≠ 0 ↔ v ≠ 0 :=
  (BitVec.toNat_ne (y := 0#32)).symm

theorem buildmapsTests_pass {s : State} : firstFault (buildmapsTests s) = none ↔ MapOperandsOk s := by
  simp only [buildmapsTests, firstFault_cons, firstFault_nil, faultIf_eq_none, Bool.or_eq_false_iff,
    decide_eq_false_iff_not, Nat.not_lt, beq_eq_false_iff_ne, toNat_ne_zero_iff]
  constructor
  · rintro ⟨⟨⟨⟨hsw, hsh⟩, -⟩, -⟩, ⟨hsw0, hsh0⟩, ⟨hdw, hdh⟩, hq, -⟩
    exact ⟨hsw0, hsh0, hq, hsw, hsh, hdw, hdh⟩
  · intro h
    exact ⟨⟨⟨⟨h.swMax, h.shMax⟩, h.dwDim⟩, h.dhDim⟩, ⟨h.sw, h.sh⟩, ⟨h.dwMax, h.dhMax⟩, h.q, trivial⟩

/-- Whichever test of BUILDMAPS fails first, the code is the same. -/
theorem buildmapsTests_fail {s : State} (h : ¬ MapOperandsOk s) : firstFault (buildmapsTests s) = some .param := by
  obtain ⟨c, hc⟩ := Option.ne_none_iff_exists'.1 (mt buildmapsTests_pass.1 h)
  have hparam : c = .param := by
    have hmem := firstFault_mem hc
    simp only [buildmapsTests, List.mem_cons, List.not_mem_nil, or_false] at hmem
    rcases hmem with h | h | h | h <;> exact faultIf_code h.symm
  exact hparam ▸ hc

/-! ## BUILDMAPS (R141, R142) -/

/-- The maps of the operands, with the sizes they are built for. -/
def builtMaps (s : State) : MapUnit :=
  { valid := true
    sw := BitVec.ofNat 16 s.port.a.a0.toNat
    sh := BitVec.ofNat 16 s.port.a.a1.toNat
    dw := BitVec.ofNat 16 s.port.a.a2.toNat
    dh := BitVec.ofNat 16 s.port.a.a3.toNat
    xmap := buildMap s.port.a.a2.toNat s.port.a.a4.toNat s.port.a.a0.toNat
    ymap := buildMap s.port.a.a3.toNat s.port.a.a4.toNat s.port.a.a1.toNat }

theorem exec_buildmaps_pass {s : State} (h : MapOperandsOk s) :
    exec .buildmaps s = .next (complete true { s with rsm := builtMaps s }) :=
  guarded_next (buildmapsTests_pass.2 h) 0x40 _ s

theorem exec_buildmaps_faults {s : State} (hf : s.port.faulted = false) (h : ¬ MapOperandsOk s) :
    exec .buildmaps s = .next (latched 0x40 .param s) :=
  guarded_latched (buildmapsTests_fail h) 0x40 _ hf

theorem buildMap_length (len q n : Nat) : (buildMap len q n).length = len := by
  rw [buildMap, List.length_map, List.length_range]

end Sys2Proof.Machine

namespace Sys2Proof.Proofs

open Sys2Proof.Machine

/-- Settles O45, by whether the operands pass the tests. -/
theorem buildmapsBuildsBothMaps : Obligations.BuildmapsBuildsBothMaps := by
  unfold Obligations.BuildmapsBuildsBothMaps
  refine fun s => ⟨fun hsw hsh hq hswMax hshMax hdw hdh => ?_, fun hf hbad => exec_buildmaps_faults hf fun hok => ?_⟩
  · exact ⟨_, _, exec_buildmaps_pass ⟨hsw, hsh, hq, hswMax, hshMax, hdw, hdh⟩, buildMap_length _ _ _, buildMap_length _ _ _,
      fun d hd => buildMap_getD (Nat.pos_of_ne_zero (toNat_ne_zero_iff.2 hsw)) hswMax _ hd,
      fun d hd => buildMap_getD (Nat.pos_of_ne_zero (toNat_ne_zero_iff.2 hsh)) hshMax _ hd⟩
  · rcases hbad with hsw | hsh | hdw | hdh | hsw | hsh | hdw | hdh | hq
    · exact hok.swMax.not_gt hsw
    · exact hok.shMax.not_gt hsh
    · exact hok.dwDim.not_gt hdw
    · exact hok.dhDim.not_gt hdh
    · exact hok.sw hsw
    · exact hok.sh hsh
    · exact hok.dwMax.not_gt hdw
    · exact hok.dhMax.not_gt hdh
    · exact hok.q hq

/-- Settles O46, from the step of the exact quotient. -/
theorem magnificationNeverSkips : Obligations.MagnificationNeverSkips := by
  unfold Obligations.MagnificationNeverSkips
  refine fun d q n hq _ => ⟨mapEntry_mono d q n, mapEntry_succ_le d n hq, ?_⟩
  rintro rfl
  exact mapEntry_unit d n

end Sys2Proof.Proofs

namespace Sys2Proof.Machine

/-! ## DITHB (R163, R164, R166) -/

/-- A `w` × `h` buffer whose dimensions, alignment and range are right passes the tests both ditherers make. -/
theorem ditherTests_pass {s : State} (hw : s.port.a.a1.toNat ≤ 65535) (hh : s.port.a.a2.toNat ≤ 65535)
    (heven : s.port.a.a0.toNat % 2 = 0)
    (hin : s.port.a.a0.toNat + 2 * s.port.a.a1.toNat * s.port.a.a2.toNat ≤ s.params.memBytes) :
    firstFault (ditherTests s) = none := by
  rw [ditherTests, dimTest_pass.2 ⟨hw, hh⟩, checkBuf_pass heven hin]
  rfl

theorem paletteTest_pass {s : State}
    (h : ∀ x y, x < s.port.a.a1.toNat → y < s.port.a.a2.toNat →
      memReadPix s.mem (pixAddr s.port.a.a0.toNat s.port.a.a1.toNat x y) ∈ palColours s.port.pal) :
    paletteTest s = none := by
  rw [paletteTest, allInPalette_iff.2 h]
  rfl

theorem exec_dithb_pass {s : State} (hcommon : firstFault (ditherTests s) = none) (hpalette : paletteTest s = none) :
    exec .dithb s = .next (complete true { s with
      mem := dithbMem s.params s.port s.port.a.a0.toNat s.port.a.a1.toNat s.port.a.a2.toNat s.mem }) := by
  have hpass : firstFault (ditherTests s ++ [paletteTest s]) = none := by
    rw [firstFault_append_none hcommon, hpalette]
    rfl
  exact guarded_next hpass 0x50 _ s

/-- The matrix is laid out row by row (R162). -/
theorem bayerAt_row (p : Params) (x y : Nat) : bayerAt p x y = (p.bayer.getD (y % 8 * 8 + x % 8) 0).toNat := by
  rw [bayerAt, Nat.mul_comm]

/-- On a palette colour one of the four tests of R164 succeeds, and the first that does names the tone. -/
theorem bayerPixel_of_palette {s : State} {v : Pixel} (hv : v ∈ palColours s.port.pal) (x y : Nat) :
    bayerPixel s.params s.port v x y = some (orderedTone s v x y) := by
  unfold bayerPixel orderedTone
  by_cases h0 : v = s.port.pal.p0
  · rw [if_pos h0, if_pos h0]
  by_cases h3 : v = s.port.pal.p3
  · rw [if_neg h0, if_pos h3, if_neg h0, if_pos h3]
  rw [if_neg h0, if_neg h3, if_neg h0, if_neg h3, ← bayerAt_row]
  by_cases h1 : v = s.port.pal.p1
  · rw [if_pos h1, if_pos h1]
    rfl
  · have h2 : v = s.port.pal.p2 := by simpa [palColours, h0, h1, h3] using hv
    rw [if_neg h1, if_pos h2, if_neg h1]
    rfl

/-- DITHB paints a buffer of palette colours with their tones: the pixel it reads is one it has not yet written (R166). -/
theorem dithbMem_painted {s : State} (hwf : Memory.wf s.mem = true) {buf w h : Nat}
    (hcolours : ∀ x y, x < w → y < h → memReadPix s.mem (pixAddr buf w x y) ∈ palColours s.port.pal) :
    Painted s.mem buf w h (fun x y => orderedTone s (memReadPix s.mem (pixAddr buf w x y)) x y) 0 h
      (dithbMem s.params s.port buf w h s.mem) := by
  refine forPixels_painted hwf fun m x y hx hy hp => ?_
  have hfresh : memReadPix m (pixAddr buf w x y) = memReadPix s.mem (pixAddr buf w x y) :=
    hp.todo x y hx hy (by unfold scanned; omega)
  rw [hfresh, bayerPixel_of_palette (hcolours x y hx hy)]

end Sys2Proof.Machine

namespace Sys2Proof.Proofs

open Sys2Proof.Machine

/-- Settles O50: the buffer painted in place, each pixel read before it is written. -/
theorem dithbMapsEveryPixel : Obligations.DithbMapsEveryPixel := by
  unfold Obligations.DithbMapsEveryPixel
  rintro s buf w h ⟨hwf, -⟩ rfl rfl rfl hw hh heven hin hcolours
  have hpainted := dithbMem_painted hwf hcolours
  exact ⟨_, exec_dithb_pass (ditherTests_pass hw hh heven hin) (paletteTest_pass hcolours),
    fun x y hx hy => hpainted.done x y hx hy (.inl hy), hpainted.outside⟩

end Sys2Proof.Proofs

/-! # Error diffusion: DITHFS (R181 to R190) -/

namespace Sys2Proof.Machine

/-! ## The serpentine scan (R183)

Row by row from the top, an even row from the left and an odd one from the right. A place of the scan is `(k, j)`: `k` pixels of
row `j` are visited, and all of the rows above. -/

/-- The column visited as number `k` of row `y`; as the two directions mirror each other, the number of column `k` as well. -/
def column (w y k : Nat) : Nat := if y % 2 = 0 then k else w - 1 - k

/-- Pixel `(x, y)` comes before place `(k, j)` of the scan. -/
@[reducible] def visited (w k j x y : Nat) : Prop := y < j ∨ y = j ∧ column w y x < k

theorem column_lt {w k : Nat} (y : Nat) (hk : k < w) : column w y k < w := by
  unfold column
  split <;> omega

theorem column_column {w x : Nat} (y : Nat) (hx : x < w) : column w y (column w y x) = x := by
  unfold column
  split <;> omega

theorem fsColumns_eq (w y : Nat) : fsColumns w y = (List.range w).map (column w y) := by
  unfold fsColumns column
  split
  · exact (List.map_id _).symm
  · refine List.ext_getElem (by simp) fun i hi hi' => ?_
    simp

/-- A row of the scan, as a loop over the number of pixels visited. -/
theorem fsRow_eq (p : Params) (port : Port) (buf w h : Nat) (d : Diffusion) (y : Nat) :
    fsRow p port buf w h d y = (List.range w).foldl (fun d k => fsPixel p port buf w h y d (column w y k)) d := by
  rw [fsRow, fsColumns_eq, List.foldl_map]

section
variable {w h k j x y : Nat}

theorem not_visited_start : ¬visited w 0 0 x y := by
  unfold visited
  omega

theorem visited_nextRow (hx : x < w) : visited w w j x y ↔ visited w 0 (j + 1) x y := by
  have hcolumn := column_lt y hx
  unfold visited
  omega

theorem visited_succ (hk : k < w) (hx : x < w) :
    visited w (k + 1) j x y ↔ visited w k j x y ∨ x = column w j k ∧ y = j := by
  unfold visited column
  by_cases hy : y = j
  · subst hy
    split <;> omega
  · omega

theorem not_visited_here (hk : k < w) : ¬visited w k j (column w j k) j := by
  unfold visited
  rw [column_column j hk]
  omega

/-! ## What one pixel sends (R184, R185) -/

/-- What reaches `(x, y)` when the pixel `(x', y')` gives `share x' y' n` to its neighbour of weight `n` (R183). -/
def received (share : Int → Nat → Nat → Int) (x y : Nat) : Int :=
  share ((x : Int) - scanDir y) y 7 +
    (if y = 0 then 0
     else share ((x : Int) + scanDir (y - 1)) (y - 1) 3 + share (x : Int) (y - 1) 5 +
       share ((x : Int) - scanDir (y - 1)) (y - 1) 1)

theorem incomingError_eq (s : State) (v : Nat → Nat → Int) :
    incomingError s w v x y = received (shareFrom s w v) x y := rfl

theorem received_add (f g : Int → Nat → Nat → Int) :
    received (fun x' y' n => f x' y' n + g x' y' n) x y = received f x y + received g x y := by
  unfold received
  split <;> ring

theorem received_congr {f g : Int → Nat → Nat → Int} (hfg : ∀ x' y' n, y' ≤ y → f x' y' n = g x' y' n) :
    received f x y = received g x y := by
  unfold received
  simp only [hfg _ y _ le_rfl, hfg _ (y - 1) _ (Nat.sub_le y 1)]

theorem received_zero : received (fun _ _ _ => 0) x y = 0 := by
  simp [received]

/-- The shares of the error `e` of the pixel `(i, j)`, and of no other. -/
def sharesOf (p : Params) (i j : Nat) (e : Int) (x' : Int) (y' n : Nat) : Int :=
  if x' = i ∧ y' = j then fsShare p e n else 0

/-- The pixel ahead in the direction of the scan, seen from either end. -/
theorem forward_iff (x y i j : Nat) :
    (x : Int) - scanDir y = i ∧ y = j ↔ (i : Int) + scanDir j = x ∧ j = y := by
  constructor <;> (rintro ⟨hcol, rfl⟩; exact ⟨by omega, rfl⟩)

/-- The pixel behind, seen from either end. -/
theorem backward_iff (x y i j : Nat) :
    (x : Int) + scanDir y = i ∧ y = j ↔ (i : Int) - scanDir j = x ∧ j = y := by
  constructor <;> (rintro ⟨hcol, rfl⟩; exact ⟨by omega, rfl⟩)

/-- What one pixel sends, listed by the neighbours it names (R183). -/
theorem received_sharesOf (p : Params) (i j : Nat) (e : Int) :
    received (sharesOf p i j e) x y =
      (if (i : Int) + scanDir j = x ∧ j = y then fsShare p e 7 else 0) +
        (if (i : Int) - scanDir j = x ∧ j + 1 = y then fsShare p e 3 else 0) +
        (if (i : Int) = x ∧ j + 1 = y then fsShare p e 5 else 0) +
        (if (i : Int) + scanDir j = x ∧ j + 1 = y then fsShare p e 1 else 0) := by
  unfold received sharesOf
  rw [if_congr (forward_iff x y i j) rfl rfl]
  cases y with
  | zero => simp
  | succ y =>
    have hsouth : (x : Int) = i ∧ y = j ↔ (i : Int) = x ∧ j = y := by omega
    rw [if_neg (Nat.succ_ne_zero y), Nat.add_sub_cancel, if_congr (backward_iff x y i j) rfl rfl, if_congr hsouth rfl rfl,
      if_congr (forward_iff x y i j) rfl rfl]
    simp only [Nat.add_right_cancel_iff]
    ring

/-- A pixel sends nothing to the pixels visited before it, nor to itself. -/
theorem received_sharesOf_visited (p : Params) (e : Int) (hk : k < w) (hx : x < w) (hv : visited w (k + 1) j x y) :
    received (sharesOf p (column w j k) j e) x y = 0 := by
  have hrow : ¬((x : Int) - scanDir y = column w j k ∧ y = j) := by
    rintro ⟨hcol, rfl⟩
    by_cases heven : y % 2 = 0 <;> simp only [visited, scanDir, column, heven, if_true, if_false] at hv hcol <;> omega
  have habove : y - 1 ≠ j ∨ y = 0 := by
    unfold visited at hv
    omega
  unfold received sharesOf
  rw [if_neg hrow]
  split
  · rfl
  · simp [habove.resolve_right ‹_›]

/-! ## The accumulators (R182) -/

/-- The accumulated value of the pixel `(x, y)`. -/
def Diffusion.value (d : Diffusion) (w x y : Nat) : Int := d.acc.getD (y * w + x) 0

theorem pixIndex_lt (hx : x < w) (hy : y < h) : y * w + x < w * h := by
  have hin := pixAddr_inside (base := 0) hx hy
  rw [Nat.mul_assoc] at hin
  unfold pixAddr at hin
  omega

theorem pixIndex_inj {x' y' : Nat} (hx : x < w) (hx' : x' < w) :
    y' * w + x' = y * w + x ↔ x' = x ∧ y' = y := by
  refine ⟨fun e => ?_, fun ⟨ex, ey⟩ => by rw [ex, ey]⟩
  by_contra hne
  have hapart := pixAddr_apart (base := 0) (y := y') (y' := y) hx' hx (by omega)
  unfold pixAddr at hapart
  omega

theorem fsAdd_length (acc : List Int) (x' y' share : Int) : (fsAdd w h acc x' y' share).length = acc.length := by
  unfold fsAdd
  split
  · exact List.length_modify ..
  · rfl

/-- `Add` adds its share to the pixel it names and to no other; a share directed off the buffer reaches none (R182, R185). -/
theorem fsAdd_getD {acc : List Int} (hacc : acc.length = w * h) (hx : x < w) (hy : y < h) (x' share : Int) (y' : Nat) :
    (fsAdd w h acc x' (y' : Int) share).getD (y * w + x) 0 =
      acc.getD (y * w + x) 0 + if x' = x ∧ y' = y then share else 0 := by
  unfold fsAdd
  split
  · next hin =>
    lift x' to Nat using hin.1
    have hlt : y * w + x < acc.length := hacc ▸ pixIndex_lt hx hy
    have hindex := pixIndex_inj (y := y) (y' := y') hx (x' := x') (by omega)
    simp only [Int.toNat_natCast, List.getD_eq_getElem?_getD, List.getElem?_modify, List.getElem?_eq_getElem hlt, hindex,
      Nat.cast_inj]
    split <;> simp
  · next hout =>
    rw [if_neg (by omega), add_zero]

theorem fsSpread_length (p : Params) (i j : Nat) (e : Int) (acc : List Int) :
    (fsSpread p w h i j e acc).length = acc.length := by
  simp only [fsSpread, fsAdd_length]

/-- Spreading the error of `(i, j)` adds to each pixel what it receives from there. -/
theorem fsSpread_getD (p : Params) {acc : List Int} (hacc : acc.length = w * h) (hx : x < w) (hy : y < h) (i j : Nat) (e : Int) :
    (fsSpread p w h i j e acc).getD (y * w + x) 0 = acc.getD (y * w + x) 0 + received (sharesOf p i j e) x y := by
  have hbelow : ((j : Int) + 1) = ((j + 1 : Nat) : Int) := rfl
  have hdir : (if j % 2 = 0 then 1 else -1 : Int) = scanDir j := rfl
  unfold fsSpread
  simp only [hbelow, hdir]
  rw [fsAdd_getD _ hx hy, fsAdd_getD _ hx hy, fsAdd_getD _ hx hy, fsAdd_getD hacc hx hy, received_sharesOf]
  · ring
  all_goals simp only [fsAdd_length, hacc]

end

section
variable {s : State} {buf w h k j : Nat} {d : Diffusion}

/-! ## The tone and the error of a value (R181) -/

theorem fsTone_eq (s : State) (a : Int) : fsTone s.params s.port a = diffusedTone s a := by
  simp only [fsTone, fsLight, decide_eq_true_eq, diffusedTone]

theorem fsError_eq (s : State) (a : Int) : fsError s.params s.port a = a - luma s.params (diffusedTone s a) := by
  simp only [fsError, fsLight, decide_eq_true_eq, diffusedTone, apply_ite (luma s.params), Nat.cast_ite]

theorem shareFrom_inside (v : Nat → Nat → Int) {x' : Nat} (hx' : x' < w) (y' n : Nat) :
    shareFrom s w v x' y' n = fsShare s.params (fsError s.params s.port (v x' y')) n := by
  rw [shareFrom, if_pos (by omega), Int.toNat_natCast, fsError_eq]

theorem shareFrom_outside (v : Nat → Nat → Int) {x' : Int} (hx' : ¬(0 ≤ x' ∧ x' < w)) (y' n : Nat) :
    shareFrom s w v x' y' n = 0 := if_neg hx'

/-! ## The shares of the pixels visited so far (R182, R183) -/

/-- What the pixel `(x', y')` has given, at place `(k, j)` of the scan, to its neighbour of weight `n`. -/
def shareSoFar (s : State) (w k j : Nat) (v : Nat → Nat → Int) (x' : Int) (y' n : Nat) : Int :=
  if visited w k j x'.toNat y' then shareFrom s w v x' y' n else 0

theorem shareSoFar_start (v : Nat → Nat → Int) : shareSoFar s w 0 0 v = fun _ _ _ => 0 := by
  funext x' y' n
  exact if_neg not_visited_start

theorem shareSoFar_nextRow (v : Nat → Nat → Int) : shareSoFar s w w j v = shareSoFar s w 0 (j + 1) v := by
  funext x' y' n
  by_cases hin : 0 ≤ x' ∧ x' < w
  · exact if_congr (visited_nextRow (by omega)) rfl rfl
  · simp only [shareSoFar, shareFrom_outside v hin, ite_self]

theorem shareSoFar_end (v : Nat → Nat → Int) (x' : Int) {y' : Nat} (hy' : y' < h) (n : Nat) :
    shareSoFar s w 0 h v x' y' n = shareFrom s w v x' y' n := if_pos (.inl hy')

/-- Visiting the next pixel adds its own shares, as the values of the pixels visited are settled. -/
theorem shareSoFar_visit {v v' : Nat → Nat → Int} (hk : k < w)
    (hsettled : ∀ x y, x < w → visited w (k + 1) j x y → v' x y = v x y) (x' : Int) (y' n : Nat) :
    shareSoFar s w (k + 1) j v' x' y' n = shareSoFar s w k j v x' y' n +
      sharesOf s.params (column w j k) j (fsError s.params s.port (v (column w j k) j)) x' y' n := by
  have hcolumn := column_lt j hk
  unfold shareSoFar sharesOf
  by_cases hin : 0 ≤ x' ∧ x' < w
  · lift x' to Nat using hin.1
    have hx' : x' < w := by omega
    rw [Int.toNat_natCast, shareFrom_inside v' hx', shareFrom_inside v hx']
    by_cases hnow : x' = column w j k ∧ y' = j
    · obtain ⟨rfl, rfl⟩ := hnow
      have hvisited := (visited_succ hk hx').2 (.inr ⟨rfl, rfl⟩)
      rw [if_pos hvisited, if_neg (not_visited_here hk), if_pos ⟨rfl, rfl⟩, hsettled _ _ hx' hvisited, zero_add]
    · have hiff : visited w (k + 1) j x' y' ↔ visited w k j x' y' := by rw [visited_succ hk hx', or_iff_left hnow]
      have hother : ¬((x' : Int) = column w j k ∧ y' = j) := by rwa [Nat.cast_inj]
      rw [if_neg hother, add_zero]
      by_cases hvisited : visited w (k + 1) j x' y'
      · rw [if_pos hvisited, if_pos (hiff.1 hvisited), hsettled _ _ hx' hvisited]
      · rw [if_neg hvisited, if_neg (mt hiff.2 hvisited)]
  · rw [shareFrom_outside v' hin, shareFrom_outside v hin, ite_self, ite_self, if_neg (by omega), zero_add]

/-! ## The invariant of the scan (R182) -/

/-- The accumulators and MEM at place `(k, j)` of the scan: every value is the pixel's own luminance and what reaches it from the
pixels visited; these have the tone of their value, and no byte outside the buffer has changed. -/
structure Diffused (s : State) (buf w h k j : Nat) (d : Diffusion) : Prop where
  wf : Memory.wf d.mem = true
  length : d.acc.length = w * h
  value : ∀ x y, x < w → y < h → d.value w x y =
    luma s.params (memReadPix s.mem (pixAddr buf w x y)) + received (shareSoFar s w k j (d.value w)) x y
  tone : ∀ x y, x < w → y < h → visited w k j x y →
    memReadPix d.mem (pixAddr buf w x y) = diffusedTone s (d.value w x y)
  outside : ∀ b, ¬(buf ≤ b ∧ b < buf + 2 * w * h) → memRead d.mem b = memRead s.mem b

theorem fsStart_diffused (hwf : Memory.wf s.mem = true) :
    Diffused s buf w h 0 0 (fsStart s.params buf w h s.mem) where
  wf := hwf
  length := by simp [fsStart]
  value x y hx hy := by
    rw [shareSoFar_start, received_zero, add_zero]
    simp [Diffusion.value, fsStart, pixAddr, List.getD_eq_getElem?_getD, List.getElem?_range (pixIndex_lt hx hy)]
  tone _ _ _ _ hv := absurd hv not_visited_start
  outside _ _ := rfl

theorem Diffused.nextRow (hd : Diffused s buf w h w j d) : Diffused s buf w h 0 (j + 1) d where
  wf := hd.wf
  length := hd.length
  value x y hx hy := by rw [hd.value x y hx hy, shareSoFar_nextRow]
  tone x y hx hy hv := hd.tone x y hx hy ((visited_nextRow hx).2 hv)
  outside := hd.outside

/-- Visiting the pixel `(i, j)` adds to each accumulated value what it receives from there. -/
theorem fsPixel_value (hacc : d.acc.length = w * h) (i : Nat) {x y : Nat} (hx : x < w) (hy : y < h) :
    (fsPixel s.params s.port buf w h j d i).value w x y =
      d.value w x y + received (sharesOf s.params i j (fsError s.params s.port (d.value w i j))) x y :=
  fsSpread_getD s.params hacc hx hy i j _

theorem fsPixel_mem (s : State) (buf w h j : Nat) (d : Diffusion) (i : Nat) :
    (fsPixel s.params s.port buf w h j d i).mem =
      memWritePix d.mem (pixAddr buf w i j) (diffusedTone s (d.value w i j)) := by
  rw [← fsTone_eq]
  rfl

/-- Visiting a pixel leaves its own value and those of the pixels visited before it. -/
theorem fsPixel_settled (hd : Diffused s buf w h k j d) (hk : k < w) (hj : j < h) {x y : Nat} (hx : x < w)
    (hv : visited w (k + 1) j x y) :
    (fsPixel s.params s.port buf w h j d (column w j k)).value w x y = d.value w x y := by
  have hy : y < h := by
    unfold visited at hv
    omega
  rw [fsPixel_value hd.length _ hx hy, received_sharesOf_visited _ _ hk hx hv, add_zero]

theorem Diffused.visit (hd : Diffused s buf w h k j d) (hk : k < w) (hj : j < h) :
    Diffused s buf w h (k + 1) j (fsPixel s.params s.port buf w h j d (column w j k)) where
  wf := by
    rw [fsPixel_mem]
    exact memWritePix_wf hd.wf _ _
  length := (fsSpread_length _ _ _ _ _).trans hd.length
  value x y hx hy := by
    have hshares := funext₃ (shareSoFar_visit (s := s) hk fun _ _ hx hv => fsPixel_settled hd hk hj hx hv)
    rw [hshares, received_add, ← add_assoc, ← hd.value x y hx hy, fsPixel_value hd.length _ hx hy]
  tone x y hx hy hv := by
    rw [fsPixel_settled hd hk hj hx hv, fsPixel_mem]
    by_cases hnow : x = column w j k ∧ y = j
    · obtain ⟨rfl, rfl⟩ := hnow
      exact memReadPix_memWritePix_same hd.wf _ _
    · rw [memReadPix_memWritePix_apart hd.wf _ (pixAddr_apart (column_lt j hk) hx (by omega))]
      exact hd.tone x y hx hy (((visited_succ hk hx).1 hv).resolve_right hnow)
  outside b hb := by
    have hin := pixAddr_inside (base := buf) (column_lt j hk) hj
    rw [fsPixel_mem, memRead_memWritePix hd.wf, if_neg (by omega), if_neg (by omega)]
    exact hd.outside b hb

/-- The accumulators and MEM when the last row is done. -/
def fsEnd (s : State) (buf w h : Nat) : Diffusion :=
  (List.range h).foldl (fsRow s.params s.port buf w h) (fsStart s.params buf w h s.mem)

theorem fsEnd_mem (s : State) (buf w h : Nat) : (fsEnd s buf w h).mem = dithfsMem s.params s.port buf w h s.mem := rfl

theorem fsEnd_diffused (hwf : Memory.wf s.mem = true) : Diffused s buf w h 0 h (fsEnd s buf w h) := by
  refine foldl_range_induction (P := fun j d => Diffused s buf w h 0 j d) h (fsStart_diffused hwf) fun j d hj hd => ?_
  rw [fsRow_eq]
  exact (foldl_range_induction (P := fun k d => Diffused s buf w h k j d) w hd fun k d hk hd => hd.visit hk hj).nextRow

/-- At the end everything that is sent has arrived. -/
theorem Diffused.value_end (hd : Diffused s buf w h 0 h d) {x y : Nat} (hx : x < w) (hy : y < h) :
    d.value w x y =
      luma s.params (memReadPix s.mem (pixAddr buf w x y)) + incomingError s w (d.value w) x y := by
  rw [incomingError_eq, hd.value x y hx hy]
  congr 1
  exact received_congr fun x' y' n hy' => shareSoFar_end _ x' (hy'.trans_lt hy) n

theorem exec_dithfs_pass (hpass : firstFault (ditherTests s) = none) :
    exec .dithfs s = .next (complete true { s with
      mem := dithfsMem s.params s.port s.port.a.a0.toNat s.port.a.a1.toNat s.port.a.a2.toNat s.mem }) :=
  guarded_next hpass 0x51 _ s

/-! ## The errors between tones that bracket the picture (R188) -/

/-- The scan reaches a pixel after the one before it in its row and after the row above. -/
theorem scan_induction {P : Nat → Nat → Prop}
    (visit : ∀ x y, x < w → (∀ x' : Nat, x' < w → (x' : Int) = x - scanDir y → P x' y) →
      (∀ x' y', x' < w → y = y' + 1 → P x' y') → P x y) {x y : Nat} (hx : x < w) : P x y := by
  have row : ∀ y, (∀ x' y', x' < w → y = y' + 1 → P x' y') → ∀ k x, x < w → column w y x = k → P x y := by
    intro y above k
    induction k with
    | zero =>
      refine fun x hx hfirst => visit x y hx (fun x' hx' hbefore => ?_) above
      by_cases heven : y % 2 = 0 <;> simp only [scanDir, column, heven, if_true, if_false] at hfirst hbefore <;> omega
    | succ k ih =>
      refine fun x hx hnext => visit x y hx (fun x' hx' hbefore => ih x' hx' ?_) above
      by_cases heven : y % 2 = 0 <;> simp only [scanDir, column, heven, if_true, if_false] at hnext hbefore ⊢ <;> omega
  induction y generalizing x with
  | zero => exact row 0 (fun _ _ _ h => absurd h (Nat.succ_ne_zero _).symm) _ x hx rfl
  | succ y ih => exact row (y + 1) (fun x' y' hx' h => Nat.succ.inj h ▸ ih hx') _ x hx rfl

/-- Less than half of the distance `D` between the tones; exactly half of it is allowed below 0 (R188). -/
def SmallError (D e : Int) : Prop := -D ≤ 2 * e ∧ 2 * e < D

/-- The share of weight `n` of 16 of a small error, with the denominator cleared. -/
def SmallShare (D : Int) (n : Nat) (share : Int) : Prop := -D * n ≤ 32 * share ∧ 32 * share ≤ (D - 1) * n

theorem fsShare_default {p : Params} (hp : p.fsShare = .default) (e : Int) (n : Nat) :
    fsShare p e n = (e * (n : Int)).tdiv 16 := by
  rw [fsShare, hp]

/-- Rounding toward zero leaves a quotient between 0 and its exact value (R184). -/
theorem tdiv16_between (a : Int) :
    (0 ≤ 16 * a.tdiv 16 ∧ 16 * a.tdiv 16 ≤ a) ∨ (a ≤ 16 * a.tdiv 16 ∧ 16 * a.tdiv 16 ≤ 0) := by
  rcases le_total 0 a with ha | ha
  · rw [Int.tdiv_eq_ediv_of_nonneg ha]
    omega
  · rw [← neg_neg a, Int.neg_tdiv, Int.tdiv_eq_ediv_of_nonneg (Int.neg_nonneg_of_nonpos ha)]
    omega

variable {D : Int}

theorem smallShare_zero (hD : 0 < D) (n : Nat) : SmallShare D n 0 := by
  have hlow : 0 ≤ D * n := by positivity
  have hhigh : 0 ≤ (D - 1) * n := mul_nonneg (by omega) n.cast_nonneg
  constructor <;> linarith

theorem SmallError.share {p : Params} {e : Int} (he : SmallError D e) (hD : 0 < D) (hp : p.fsShare = .default) (n : Nat) :
    SmallShare D n (fsShare p e n) := by
  obtain ⟨hlow, hhigh⟩ := he
  obtain ⟨hlow₀, hhigh₀⟩ := smallShare_zero hD n
  have hlow' : -D * n ≤ 2 * e * n := mul_le_mul_of_nonneg_right hlow n.cast_nonneg
  have hhigh' : 2 * e * n ≤ (D - 1) * n := mul_le_mul_of_nonneg_right (by omega) n.cast_nonneg
  rw [fsShare_default hp]
  rcases tdiv16_between (e * n) with ⟨h, h'⟩ | ⟨h, h'⟩ <;> constructor <;> linarith

theorem shareFrom_small {v : Nat → Nat → Int} {x' : Int} {y' : Nat} (hD : 0 < D) (hp : s.params.fsShare = .default)
    (hsmall : ∀ i : Nat, i < w → (i : Int) = x' → SmallError D (fsError s.params s.port (v i y'))) (n : Nat) :
    SmallShare D n (shareFrom s w v x' y' n) := by
  by_cases hin : 0 ≤ x' ∧ x' < w
  · lift x' to Nat using hin.1
    have hx' : x' < w := by omega
    rw [shareFrom_inside v hx']
    exact (hsmall x' hx' rfl).share hD hp n
  · rw [shareFrom_outside v hin]
    exact smallShare_zero hD n

/-- The weights of what reaches a pixel add up to 16 of 16 at most. -/
theorem received_small {share : Int → Nat → Nat → Int} {x y : Nat} (hD : 0 < D)
    (hrow : SmallShare D 7 (share (x - scanDir y) y 7))
    (habove : ∀ y', y = y' + 1 → ∀ x' n, SmallShare D n (share x' y' n)) : SmallError D (received share x y) := by
  unfold received
  cases y with
  | zero =>
    rw [if_pos rfl, add_zero]
    unfold SmallShare at hrow
    unfold SmallError
    omega
  | succ y =>
    rw [if_neg (Nat.succ_ne_zero y), Nat.add_sub_cancel]
    have h3 := habove y rfl (x + scanDir y) 3
    have h5 := habove y rfl x 5
    have h1 := habove y rfl (x - scanDir y) 1
    unfold SmallShare at hrow h3 h5 h1
    unfold SmallError
    omega

/-- The distance between the luminances of the tones. -/
def toneGap (s : State) : Int := luma s.params s.port.toneL - luma s.params s.port.toneD

/-- A pixel between the tones that a small error reaches has a small error itself. -/
theorem fsError_small {l e : Int} (hdark : luma s.params s.port.toneD ≤ l) (hlight : l ≤ luma s.params s.port.toneL)
    (he : SmallError (toneGap s) e) : SmallError (toneGap s) (fsError s.params s.port (l + e)) := by
  rw [fsError_eq]
  unfold SmallError toneGap diffusedTone at *
  split <;> omega

/-- With tones that bracket the picture a small error reaches every pixel. -/
theorem incomingError_small {v l : Nat → Nat → Int} (hp : s.params.fsShare = .default) (hgap : 0 < toneGap s)
    (hbracket : ∀ x y, x < w → y < h → luma s.params s.port.toneD ≤ l x y ∧ l x y ≤ luma s.params s.port.toneL)
    (hvalue : ∀ x y, x < w → y < h → v x y = l x y + incomingError s w v x y) {x y : Nat} (hx : x < w) (hy : y < h) :
    SmallError (toneGap s) (incomingError s w v x y) := by
  have hsent : ∀ x y, x < w → y < h → SmallError (toneGap s) (incomingError s w v x y) →
      SmallError (toneGap s) (fsError s.params s.port (v x y)) := by
    intro x y hx hy he
    obtain ⟨hdark, hlight⟩ := hbracket x y hx hy
    rw [hvalue x y hx hy]
    exact fsError_small hdark hlight he
  refine scan_induction (P := fun x y => y < h → SmallError (toneGap s) (incomingError s w v x y))
    (fun x y hx hrow habove hy => ?_) hx hy
  rw [incomingError_eq]
  refine received_small hgap (shareFrom_small hgap hp (fun i hi hbefore => ?_) 7)
    fun y' hnext x' => shareFrom_small hgap hp fun i hi _ => ?_
  · exact hsent i y hi hy (hrow i hi hbefore hy)
  · have hy' : y' < h := by omega
    exact hsent i y' hi hy' (habove i y' hi hnext hy')

theorem diffusedTone_light {l e : Int} (hl : l = luma s.params s.port.toneL) (he : SmallError (toneGap s) e) :
    diffusedTone s (l + e) = s.port.toneL := by
  unfold SmallError toneGap at he
  exact if_pos (by omega)

theorem diffusedTone_dark {l e : Int} (hl : l = luma s.params s.port.toneD) (he : SmallError (toneGap s) e) :
    diffusedTone s (l + e) = s.port.toneD := by
  unfold SmallError toneGap at he
  exact if_neg (by omega)

end

end Sys2Proof.Machine

namespace Sys2Proof.Proofs

open Sys2Proof.Machine

/-- Settles O52: the values are those the accumulators hold at the end, as visiting a pixel settles its value. -/
theorem dithfsIsErrorDiffusion : Obligations.DithfsIsErrorDiffusion := by
  unfold Obligations.DithfsIsErrorDiffusion
  rintro s buf w h ⟨hwf, -⟩ rfl rfl rfl hw hh heven hin
  have hend := fsEnd_diffused (buf := s.port.a.a0.toNat) (w := s.port.a.a1.toNat) (h := s.port.a.a2.toNat) hwf
  exact ⟨_, (fsEnd s _ _ _).value _, exec_dithfs_pass (ditherTests_pass hw hh heven hin),
    fun x y hx hy => ⟨hend.value_end hx hy, hend.tone x y hx hy (.inl hy)⟩, hend.outside⟩

/-- Settles O53, from the values of O52: the error that reaches a pixel is too small to move an extreme past the midpoint. -/
theorem dithfsPreservesExtremes : Obligations.DithfsPreservesExtremes := by
  unfold Obligations.DithfsPreservesExtremes
  intro s t buf w h hmem hshare hbuf hw hh hwmax hhmax heven hin hgap hbracket hexec x y hx hy
  obtain ⟨m, v, hexec', hpixel, -⟩ := dithfsIsErrorDiffusion s buf w h hmem hbuf hw hh hwmax hhmax heven hin
  obtain rfl := Host.Outcome.next.inj (hexec.symm.trans hexec')
  obtain ⟨hvalue, htone⟩ := hpixel x y hx hy
  have hsmall : SmallError (toneGap s) (incomingError s w v x y) :=
    incomingError_small (h := h) hshare (by unfold toneGap; omega)
      (fun x y hx hy => by exact_mod_cast hbracket x y hx hy) (fun x y hx hy => (hpixel x y hx hy).1) hx hy
  rw [htone, hvalue]
  exact ⟨fun hlight => diffusedTone_light (congrArg Nat.cast hlight) hsmall,
    fun hdark => diffusedTone_dark (congrArg Nat.cast hdark) hsmall⟩

end Sys2Proof.Proofs

/-! # The bus and the transfers on it (R201, R206, R240 to R242) -/

namespace Sys2Proof.Machine

/-! ## The bus discipline (R242) -/

section
variable {s : State}

/-- With chip select deasserted the trace ends outside any frame. -/
theorem BusInv.scan_closed (h : BusInv s) (hcs : s.te.cs = false) : busScan .closed s.wire = some .closed := by
  obtain ⟨b, hscan, hclosed, -⟩ := h
  rwa [hclosed.2 hcs] at hscan

/-- With a transfer in flight it ends in a frame that takes data. -/
theorem BusInv.scan_busy (h : BusInv s) (hst : s.te.st = .dmaBusy) :
    ∃ b, busScan .closed s.wire = some b ∧ (b = .opened ∨ b = .data) := by
  obtain ⟨b, hscan, -, hbusy⟩ := h
  exact ⟨b, hscan, hbusy hst⟩

/-- A trace whose frames are all closed, on an engine at rest. -/
theorem busInv_of_closed (hscan : busScan .closed s.wire = some .closed) (hcs : s.te.cs = false)
    (hst : s.te.st ≠ .dmaBusy) : BusInv s :=
  ⟨.closed, hscan, iff_of_true rfl hcs, fun hbusy => absurd hbusy hst⟩

/-- A trace whose last frame is open and takes data, with chip select asserted. -/
theorem busInv_of_open {b : BusFrame} (hscan : busScan .closed s.wire = some b) (hb : b = .opened ∨ b = .data)
    (hcs : s.te.cs = true) : BusInv s := by
  refine ⟨b, hscan, iff_of_false ?_ (by simp [hcs]), fun _ => hb⟩
  rcases hb with rfl | rfl <;> nofun

/-- The discipline is about the trace, chip select and the state of the engine. -/
theorem BusInv.congr {t : State} (h : BusInv s) (hwire : t.wire = s.wire) (hcs : t.te.cs = s.te.cs)
    (hst : t.te.st = s.te.st) : BusInv t := by
  rwa [BusInv, hwire, hcs, hst]

/-- Closing the frame of a transfer. -/
theorem BusInv.scan_desel (h : BusInv s) (hst : s.te.st = .dmaBusy) :
    busScan .closed (s.wire ++ [.desel]) = some .closed := by
  obtain ⟨b, hscan, rfl | rfl⟩ := h.scan_busy hst <;> rw [busScan_append, hscan] <;> rfl

/-- A synchronous frame on an engine at rest opens and closes (R205). -/
theorem syncSend_busInv (h : BusInv s) (hcs : s.te.cs = false) {d : Bool} {bytes : List Byte}
    (hcommand : d = false → ∃ b, bytes = [b]) : BusInv (syncSend d bytes s) := by
  refine busInv_of_closed ?_ rfl nofun
  rw [syncSend_wire, busScan_append, h.scan_closed hcs]
  cases d with
  | true => exact busScan_frame_data bytes
  | false =>
    obtain ⟨b, rfl⟩ := hcommand rfl
    exact busScan_frame_command b

/-- Arming a transfer on an engine at rest opens a frame (R206). -/
theorem armTransfer_busInv (h : BusInv s) (hcs : s.te.cs = false) (pix : List Pixel) : BusInv (armTransfer pix s) := by
  refine busInv_of_open ?_ (.inl rfl) rfl
  rw [armTransfer_wire, busScan_append, h.scan_closed hcs]
  rfl

/-- An abort closes the frame of the transfer it cuts off (R210). -/
theorem abortTransfer_busInv (h : BusInv s) : BusInv (abortTransfer s) := by
  rcases abortTransfer_cases s with ⟨-, e⟩ | ⟨hst, junk, -, e⟩ <;> rw [e]
  · exact h
  · exact busInv_of_closed (h.scan_desel hst) rfl nofun

/-- A shift puts a data byte into the open frame (R230). -/
theorem dmaStep_busInv (hs : EngineInv s) (h : BusInv s) : BusInv (dmaStep s) := by
  rcases dmaStep_cases s with ⟨-, e⟩ | ⟨r, hr, -, e⟩ | ⟨r, -, -, e⟩ <;> rw [e]
  · exact h
  · have hst := (hs.inFlight r hr).1
    obtain ⟨b, hscan, hb⟩ := h.scan_busy hst
    refine busInv_of_open (b := .data) ?_ (.inr rfl) (hs.busy hst).1
    rw [busScan_append, hscan]
    rcases hb with rfl | rfl <;> rfl
  · exact h.congr rfl rfl rfl

/-- The delivery that ends a transfer closes its frame; a stale one leaves the wire alone (R232, R234). -/
theorem notifyStep_busInv (h : BusInv s) (k : Nat) : BusInv (notifyStep k s) := by
  unfold notifyStep
  split
  · exact h
  · next q _ =>
    rcases deliver_cases s q with ⟨-, e⟩ | ⟨hst, -, junk, -, e⟩ <;> rw [e]
    · exact h.congr rfl rfl rfl
    · exact busInv_of_closed (h.scan_desel hst) rfl nofun

/-- The bus discipline, with the engine's invariant, which ties the lines to the state of the engine. -/
def BusSafe (s : State) : Prop := EngineInv s ∧ BusInv s

theorem busSafe_dataClosed : DataClosed BusSafe where
  port _ _ h := ⟨engineInv_dataClosed.port _ _ h.1, h.2⟩
  surf _ _ h := ⟨engineInv_dataClosed.surf _ _ h.1, h.2⟩
  rsm _ _ h := ⟨engineInv_dataClosed.rsm _ _ h.1, h.2⟩
  mem _ _ h := ⟨engineInv_dataClosed.mem _ _ h.1, h.2⟩
  pending _ _ h := ⟨engineInv_dataClosed.pending _ _ h.1, h.2⟩
  host _ _ h := ⟨engineInv_dataClosed.host _ _ h.1, h.2⟩
  env _ _ h := ⟨engineInv_dataClosed.env _ _ h.1, h.2⟩

theorem busSafe_engineClosed : EngineClosed BusSafe BusSafe where
  inside := busSafe_dataClosed
  ends := busSafe_dataClosed
  weaken _ h := h
  chunk _ h := h.1.chunk
  send _ d bytes h hfree hcommand :=
    ⟨syncSend_engineInv h.1 hfree d bytes, syncSend_busInv h.2 (h.1.at_rest hfree).2.1 hcommand⟩
  arm _ pix h hfree hok hne hfits :=
    ⟨armTransfer_engineInv h.1 hok hne hfits, armTransfer_busInv h.2 (h.1.at_rest hfree).2.1 pix⟩
  abort _ h := ⟨abortTransfer_engineInv h.1, abortTransfer_busInv h.2⟩
  claim s ok h hok hinit := ⟨engineInv_engineClosed.claim s ok h.1 hok hinit, h.2⟩
  free s junk h hfree hjunk := ⟨engineInv_engineClosed.free s junk h.1 hfree hjunk, h.2⟩

theorem step_busSafe {t : State} (h : BusSafe s) (he : step s = .next t) : BusSafe t := by
  refine step_engineClosed busSafe_engineClosed h (fun _ hs => ?_) (fun k _ hs => ?_) (fun hs => ?_) (fun _ => ?_) he
  · exact ⟨dmaStep_engineInv hs.1, dmaStep_busInv hs.1 hs.2⟩
  · exact ⟨notifyStep_engineInv hs.1 k, notifyStep_busInv hs.2 k⟩
  · exact ⟨clockStep_engineInv hs.1, hs.2⟩
  · refine ⟨platformReset_engineInv ?_, busInv_of_closed rfl rfl nofun⟩
    rw [turnTaken_params]
    exact h.1.chunk

/-! ## Arming (R206, R240) -/

/-- `t` follows on `s` by the arming of a transfer: the engine was idle and held its channel, and the transfer has the next number and
none of its bytes shifted. -/
structure ArmedFrom (s t : State) : Prop where
  idle : s.te.st = .idle
  channel : s.te.dmaOk = true
  number : t.te.xferSeq = s.te.xferSeq + 1
  busy : t.te.st = .dmaBusy
  record : ∃ len, t.te.dma = some { seq := t.te.xferSeq, len := len, pos := 0 }

/-- A state inside an operation that began in `s` and has armed nothing: an engine that is free now was idle then. -/
structure NotYetArmed (s u : State) : Prop where
  chunk : 2 * u.params.chunkPix ≤ u.params.scratchBytes
  number : u.te.xferSeq = s.te.xferSeq
  channel : u.te.dmaOk = s.te.dmaOk
  free : u.te.st ≠ .dmaBusy → s.te.st = .idle

/-- What a step from `s` leaves of the numbering: no transfer armed, or one. -/
def ArmedAtMostOnce (s u : State) : Prop := u.te.xferSeq = s.te.xferSeq ∨ ArmedFrom s u

theorem notYetArmed_dataClosed (s : State) : DataClosed (NotYetArmed s) where
  port _ _ h := ⟨h.chunk, h.number, h.channel, h.free⟩
  surf _ _ h := ⟨h.chunk, h.number, h.channel, h.free⟩
  rsm _ _ h := ⟨h.chunk, h.number, h.channel, h.free⟩
  mem _ _ h := ⟨h.chunk, h.number, h.channel, h.free⟩
  pending _ _ h := ⟨h.chunk, h.number, h.channel, h.free⟩
  host _ _ h := ⟨h.chunk, h.number, h.channel, h.free⟩
  env _ _ h := ⟨h.chunk, h.number, h.channel, h.free⟩

theorem ArmedAtMostOnce.congr {s t u : State} (h : ArmedAtMostOnce s t) (hte : u.te = t.te) : ArmedAtMostOnce s u := by
  rcases h with h | ⟨hidle, hok, hnum, hbusy, hrec⟩
  · exact .inl (by rw [hte, h])
  · exact .inr ⟨hidle, hok, by rw [hte, hnum], by rw [hte, hbusy], by rwa [hte]⟩

theorem armedAtMostOnce_dataClosed (s : State) : DataClosed (ArmedAtMostOnce s) where
  port _ _ h := h.congr rfl
  surf _ _ h := h.congr rfl
  rsm _ _ h := h.congr rfl
  mem _ _ h := h.congr rfl
  pending _ _ h := h.congr rfl
  host _ _ h := h.congr rfl
  env _ _ h := h.congr rfl

theorem abortTransfer_xferSeq (s : State) : (abortTransfer s).te.xferSeq = s.te.xferSeq := by
  rcases abortTransfer_cases s with ⟨-, e⟩ | ⟨-, junk, -, e⟩ <;> rw [e]

theorem dmaStep_xferSeq (s : State) : (dmaStep s).te.xferSeq = s.te.xferSeq := by
  rcases dmaStep_cases s with ⟨-, e⟩ | ⟨r, -, -, e⟩ | ⟨r, -, -, e⟩ <;> rw [e]

theorem notifyStep_xferSeq (k : Nat) (s : State) : (notifyStep k s).te.xferSeq = s.te.xferSeq := by
  unfold notifyStep
  split
  · rfl
  · next q _ => rcases deliver_cases s q with ⟨-, e⟩ | ⟨-, -, junk, -, e⟩ <;> rw [e]

/-- Only arming counts `xfer_seq` on, and a free engine with its channel is what it is done on. -/
theorem armed_engineClosed (s : State) : EngineClosed (NotYetArmed s) (ArmedAtMostOnce s) where
  inside := notYetArmed_dataClosed s
  ends := armedAtMostOnce_dataClosed s
  weaken _ h := .inl h.number
  chunk _ h := h.chunk
  send _ _ _ h hfree _ := ⟨h.chunk, h.number, h.channel, fun _ => h.free hfree⟩
  arm _ _ h hfree hok _ _ := .inr {
    idle := h.free hfree
    channel := h.channel ▸ hok
    number := congrArg (· + 1) h.number
    busy := rfl
    record := ⟨_, rfl⟩ }
  abort u h := .inl ((abortTransfer_xferSeq u).trans h.number)
  claim _ _ h _ _ := .inl h.number
  free _ _ h hfree _ := .inl (h.resolve_right fun harmed => hfree harmed.busy)

theorem step_armedAtMostOnce {t : State} (hs : EngineInv s) (hn : nextEvent s ≠ .reset) (he : step s = .next t) :
    ArmedAtMostOnce s t := by
  have hstart : NotYetArmed s s := ⟨hs.chunk, rfl, rfl, fun hfree => (hs.at_rest hfree).1⟩
  refine step_engineClosed (armed_engineClosed s) hstart (fun _ hu => ?_) (fun k _ hu => ?_) (fun hu => ?_)
    (fun hreset => absurd hreset hn) he
  · exact .inl ((dmaStep_xferSeq _).trans hu.number)
  · exact .inl ((notifyStep_xferSeq k _).trans hu.number)
  · exact .inl hu.number

/-! ## What ends `DmaBusy` (R241) -/

/-- A command that tests the engine leaves a busy one alone (R218). -/
theorem guarded_te_of_busTest {op : Byte} {tests : List (Option FaultCode)} {f : State → State}
    (htest : busTest s ∈ tests) (hbusy : s.te.st = .dmaBusy) : (guarded op tests f s).te = s.te := by
  refine guarded_has (P := fun t => t.te = s.te) (fun hpass => ?_) fun c => raiseFault_te s op c
  have hidle := busTest_pass.1 (firstFault_eq_none.1 hpass _ htest)
  simp [hbusy] at hidle

/-- A step of a wait that is not its abort leaves a busy engine alone (R208). -/
theorem waitStep_busy {ms : Nat} {ph : WaitPhase} (hbusy : s.te.st = .dmaBusy) (hph : ph ≠ .abort) :
    ∃ ph', waitStep ms ph s = (.again ph', s) := by
  rcases waitStep_cases ms ph s with ⟨-, hfree, -⟩ | ⟨habort, -⟩ | ⟨-, -, hagain⟩
  · exact absurd hbusy hfree
  · exact absurd habort hph
  · exact hagain

theorem waitOp_te_busy {ms : Nat} {ph : WaitPhase} (hbusy : s.te.st = .dmaBusy) (hph : ph ≠ .abort) :
    (waitOp ms ph s).te = s.te := by
  obtain ⟨ph', e⟩ := waitStep_busy (ms := ms) hbusy hph
  rw [waitOp, e]

theorem burstOp_te_busy {src : PixSrc} {total i n : Nat} {ph : WaitPhase} (hbusy : s.te.st = .dmaBusy)
    (hph : ph ≠ .abort) : (burstOp src total i n ph s).te = s.te := by
  obtain ⟨ph', e⟩ := waitStep_busy (ms := s.params.xferTimeoutMs.toNat) hbusy hph
  rw [burstOp, e]

/-- Filling a rectangle tests the engine, or does nothing (R266, R272). -/
theorem fillWindowed_te_busy {op : Byte} {clip : Option Rect} {col : Pixel} (hbusy : s.te.st = .dmaBusy) :
    (fillWindowed op clip col s).te = s.te := by
  unfold fillWindowed
  split
  · rfl
  · exact guarded_te_of_busTest (by simp) hbusy

/-- No command but ABORT and TEFREE ends a transfer in flight. -/
theorem exec_keeps_busy {i : Instr} {t : State} (hbusy : s.te.st = .dmaBusy) (habort : i ≠ .abort) (hfree : i ≠ .tefree)
    (he : exec i s = .next t) : t.te.st = .dmaBusy := by
  have same : ∀ {t : State}, t.te = s.te → t.te.st = .dmaBusy := fun h => by rw [h, hbusy]
  have tested : ∀ {op tests f}, busTest s ∈ tests → (guarded op tests f s).te.st = .dmaBusy :=
    fun htest => same (guarded_te_of_busTest htest hbusy)
  cases i
  case abort => exact absurd rfl habort
  case tefree => exact absurd rfl hfree
  case buildmaps | resample | dithb | dithfs => exact same (exec_sameDisplay (by simp [computing]) he).te
  all_goals cases he
  case wrcmd b => exact tested (by simp)
  case wrdat b => exact tested (by simp)
  case wrbulk => exact tested (by simp)
  case wrbulka =>
    refine same (guarded_has (P := fun t => t.te = s.te) (fun _ => ?_) fun c => raiseFault_te s _ c)
    dsimp only
    rw [if_pos hbusy]
    rfl
  case wait ms => exact same (waitOp_te_busy hbusy nofun)
  case teinit => split <;> exact hbusy
  case setwin =>
    split
    · unfold setWinWindowed
      dsimp only
      split
      · exact hbusy
      · split
        · exact hbusy
        · exact tested (by simp)
    · exact same (raiseFault_te s _ _)
  case drawimg =>
    split
    · unfold drawImgWindowed
      split
      · exact hbusy
      · exact tested (by simp)
    · unfold drawImgPaged
      split
      · exact hbusy
      · exact tested (by simp)
  case fillrect =>
    split
    · exact same (fillWindowed_te_busy hbusy)
    · unfold fillRectPaged
      split
      · exact hbusy
      · exact tested (by simp)
  case setrot rot =>
    split
    · exact tested (by simp)
    · exact same (guarded_has (P := fun t => t.te = s.te) (fun _ => rfl) fun c => raiseFault_te s _ c)
  case pushpix =>
    split
    · exact tested (by simp)
    · exact same (raiseFault_te s _ _)
  case clear =>
    split
    · exact same (fillWindowed_te_busy hbusy)
    · exact tested (by simp)
  case surfinit => exact tested (by simp)

/-- An operation in progress that takes a busy engine out of `DmaBusy` is a wait at its abort. -/
theorem resumeOp_ends_busy {op : PendingOp} (hbusy : s.te.st = .dmaBusy) (hend : (resumeOp op s).te.st ≠ .dmaBusy) :
    (∃ ms, op = .wait ms .abort) ∨ (∃ src total i n, op = .burst src total i n .abort) := by
  cases op with
  | wait ms ph =>
    refine .inl ⟨ms, ?_⟩
    by_contra hph
    exact hend (by rw [resumeOp, waitOp_te_busy hbusy (by simpa using hph), hbusy])
  | bulkHold pix =>
    rw [resumeOp, bulkHoldOp, if_pos hbusy] at hend
    exact absurd hbusy hend
  | burst src total i n ph =>
    refine .inr ⟨src, total, i, n, ?_⟩
    by_contra hph
    exact hend (by rw [resumeOp, burstOp_te_busy hbusy (by simpa using hph), hbusy])

/-- A word that takes a busy engine out of `DmaBusy` is ABORT or TEFREE. -/
theorem issue_ends_busy {w : Word} {t : State} (hbusy : s.te.st = .dmaBusy) (he : issue w s = .next t)
    (hend : t.te.st ≠ .dmaBusy) : decode w = .command .abort ∨ decode w = .command .tefree := by
  rcases issue_cases w s with ⟨-, e⟩ | ⟨-, e⟩ | ⟨-, i, hi, e⟩ <;> rw [e] at he
  · cases he
    exact absurd hbusy hend
  · cases he
    exact absurd hbusy hend
  · by_contra hnot
    refine hend (exec_keeps_busy hbusy ?_ ?_ he) <;> rintro rfl <;> simp [hi] at hnot

/-- Where the host's step can touch the engine: in the operation it goes on with, and in the command it issues. -/
theorem hostStep_te_cases {t : State} (hturn : nextEvent s = .host) (he : step s = .next t) :
    (∃ op, s.pending = some op ∧ t = resumeOp op { turnTaken s with pending := none }) ∨
    (∃ w, hostNext s (.wr 0 w) ∧ issue w (advance (turnTaken s)) = .next t) ∨ t.te = s.te := by
  have own : ∀ {t}, SameButHost (turnTaken s) t → t.te = s.te := by
    rintro _ ⟨m, u, rfl⟩
    exact turnTaken_te s
  cases hop : s.pending with
  | some op =>
    rw [step_pending hturn hop] at he
    cases he
    exact .inl ⟨op, rfl, rfl⟩
  | none =>
    cases hact : s.host.prog[s.host.hpc]? with
    | some act =>
      have hnext : hostNext s act := ⟨hturn, hop, hact⟩
      rw [step_action hnext] at he
      rcases hostAction_cases he with ⟨w, rfl, hi⟩ | ⟨n, v, rfl⟩ | ht
      · exact .inr (.inl ⟨w, hnext, hi⟩)
      · exact .inr (.inr (turnTaken_te s))
      · exact .inr (.inr (own ht))
    | none =>
      refine .inr (.inr ?_)
      cases hloop : s.host.loop with
      | some l =>
        rw [step_frameLoop ⟨hturn, hop, hact, hloop⟩] at he
        exact own (loopStep_sameButHost he)
      | none =>
        rw [step_host hturn, hostStep] at he
        simp only [turnTaken_pending, turnTaken_host, hop, hact, hloop] at he
        cases he
        exact turnTaken_te s

theorem dmaStep_st (s : State) : (dmaStep s).te.st = s.te.st := by
  rcases dmaStep_cases s with ⟨-, e⟩ | ⟨r, -, -, e⟩ | ⟨r, -, -, e⟩ <;> rw [e]

/-- A delivery that ends `DmaBusy` is that of the current transfer. -/
theorem notifyStep_ends_busy {k : Nat} (hbusy : s.te.st = .dmaBusy) (hend : (notifyStep k s).te.st ≠ .dmaBusy) :
    s.te.notePending[k]? = some s.te.xferSeq := by
  unfold notifyStep at hend
  split at hend
  · exact absurd hbusy hend
  · next q hq =>
    rcases deliver_cases s q with ⟨-, e⟩ | ⟨-, rfl, -⟩
    · rw [e] at hend
      exact absurd hbusy hend
    · exact hq

end

end Sys2Proof.Machine

namespace Sys2Proof.Proofs

open Sys2Proof.Machine

/-- Settles O26, event by event of the wire, together with the engine's invariant. -/
theorem busDisciplineKept : Obligations.BusDisciplineKept := by
  unfold Obligations.BusDisciplineKept
  exact fun s t hs hbus he => (step_busSafe ⟨hs, hbus⟩ he).2

/-- Settles O22: a step that changes `xfer_seq` has armed a transfer. -/
theorem transfersAreArmedOnlyWhenFree : Obligations.TransfersAreArmedOnlyWhenFree := by
  unfold Obligations.TransfersAreArmedOnlyWhenFree
  intro s t hs hn he hne
  obtain ⟨hidle, hok, hnum, hbusy, hrec⟩ := (step_armedAtMostOnce hs hn he).resolve_left hne
  exact ⟨hidle, (hs.idle hidle).2, hok, hnum, hbusy, hrec⟩

/-- Settles O23, agent by agent; the host's step by the operation it goes on with or the command it issues. -/
theorem busyEndsOnlyByDeliveryOrAbort : Obligations.BusyEndsOnlyByDeliveryOrAbort := by
  unfold Obligations.BusyEndsOnlyByDeliveryOrAbort
  intro s t hbusy he hend
  have hbusy' : (turnTaken s).te.st = .dmaBusy := by rw [turnTaken_te, hbusy]
  cases hturn : nextEvent s with
  | host =>
    refine .inr (.inr ⟨rfl, ?_⟩)
    rcases hostStep_te_cases hturn he with ⟨op, hop, rfl⟩ | ⟨w, hnext, hi⟩ | hte
    · rcases resumeOp_ends_busy (s := { turnTaken s with pending := none }) hbusy' hend with
        ⟨ms, rfl⟩ | ⟨src, total, i, n, rfl⟩
      · exact .inl ⟨ms, hop⟩
      · exact .inr (.inl ⟨src, total, i, n, hop⟩)
    · exact .inr (.inr ⟨w, hnext, issue_ends_busy (s := advance (turnTaken s)) hbusy' hi hend⟩)
    · exact absurd (hte ▸ hbusy) hend
  | reset => exact .inl rfl
  | notify k =>
    rw [step_of_event hturn] at he
    cases he
    have hq := notifyStep_ends_busy hbusy' hend
    rw [turnTaken_te] at hq
    exact .inr (.inl ⟨k, rfl, hq⟩)
  | dma =>
    rw [step_of_event hturn] at he
    cases he
    exact absurd ((dmaStep_st _).trans hbusy') hend
  | clock =>
    rw [step_of_event hturn] at he
    cases he
    exact absurd hbusy' hend
  | source w =>
    rw [step_of_event hturn] at he
    cases he
    exact absurd hbusy' hend

end Sys2Proof.Proofs

/-! # The transfer engine, command by command and agent by agent (R202 to R213, R230 to R234, R310) -/

namespace Sys2Proof.Machine

section
variable {s : State}

/-! ## The synchronous commands (R202 to R204) -/

/-- The tests of WRBULK, in its order. -/
def wrbulkTests (s : State) : List (Option FaultCode) :=
  [checkBuf s.params s.port.a.a0.toNat s.port.a.a1.toNat 1, busTest s]

/-- A byte buffer inside MEM (R75). -/
theorem checkBuf_bytes {p : Params} {a n : Nat} (h : a + n ≤ p.memBytes) : checkBuf p a n 1 = none :=
  checkBuf_none.2 ⟨by omega, h⟩

/-- The frame WRBULK sends, none when it has no byte. -/
def wrbulkFrame (s : State) : State :=
  if s.port.a.a1.toNat = 0 then s
  else syncSend true (memBytesAt s.mem s.port.a.a0.toNat s.port.a.a1.toNat) s

theorem exec_wrbulk_pass (h : firstFault (wrbulkTests s) = none) :
    exec .wrbulk s = .next (complete true (disarm (wrbulkFrame s))) :=
  guarded_next h 0x12 _ s

theorem exec_wrbulk_faults (hf : s.port.faulted = false) {c : FaultCode} (h : firstFault (wrbulkTests s) = some c) :
    exec .wrbulk s = .next (latched 0x12 c s) :=
  guarded_latched h 0x12 _ hf

theorem frameEvents_memBytesAt (m : Memory) (a n : Nat) :
    frameEvents true (memBytesAt m a n) =
      .sel :: (List.range n).map (fun k => .byte true (memRead m (a + k))) ++ [.desel] := by
  simp [frameEvents, memBytesAt]

/-! ## The operation in progress stays as it is -/

/-- A step that puts back the operation it found leaves only the turn taken. -/
theorem turnTaken_still_pending {op : PendingOp} (hp : s.pending = some op) :
    { turnTaken s with pending := some op } = turnTaken s := by
  rw [← hp, ← turnTaken_pending]

/-! ## WRBULKA on a busy channel (R206) -/

/-- A busy channel makes WRBULKA hold, with the pixels of its issue. -/
theorem exec_wrbulka_busy (hfits : 2 * s.port.a.a1.toNat ≤ s.params.scratchBytes) (hrun : runInMem s)
    (hbusy : s.te.st = .dmaBusy) :
    exec .wrbulka s = .next { disarm s with pending := some (.bulkHold (runPixels s)) } := by
  rw [← pixChunk_run]
  refine (guarded_next (wrbulkaTests_pass hfits hrun) 0x13 _ s).trans ?_
  dsimp only
  rw [if_pos hbusy]

theorem bulkHoldOp_busy (hbusy : s.te.st = .dmaBusy) (pix : List Pixel) :
    bulkHoldOp pix s = { s with pending := some (.bulkHold pix) } :=
  if_pos hbusy

theorem bulkHoldOp_free (hfree : s.te.st ≠ .dmaBusy) (pix : List Pixel) : bulkHoldOp pix s = bulkReturn pix true s :=
  if_neg hfree

/-- After a hold the pixels go synchronously, whatever the channel. -/
theorem bulkReturn_held {pix : List Pixel} (hne : pix ≠ []) :
    bulkReturn pix true s = complete false (syncSend true (pixRunBytes .hiFirst pix) s) := by
  rw [bulkReturn]
  rcases bulkSend_cases pix true s with ⟨hnil, -⟩ | ⟨-, -, e⟩ | ⟨-, -, hnot, -⟩
  · exact absurd hnil hne
  · rw [e]
  · cases hnot

/-! ## WAIT (R208) -/

/-- A pass that finds the engine free ends the wait. -/
theorem waitOp_free {ms : Nat} {ph : WaitPhase} (hfree : s.te.st ≠ .dmaBusy) (hph : ph ≠ .abort) :
    waitOp ms ph s = complete true s := by
  rcases waitStep_cases ms ph s with ⟨-, -, e⟩ | ⟨habort, -⟩ | ⟨-, hbusy, -⟩
  · rw [waitOp, e]
  · exact absurd habort hph
  · exact absurd hbusy hfree

/-- A pass that finds it busy goes on, with the abort next when the time is up. -/
theorem waitOp_busy {ms : Nat} {ph : WaitPhase} {t0 : Word} (hbusy : s.te.st = .dmaBusy)
    (hph : ph = .start ∧ t0 = s.te.nowMs ∨ ph = .poll t0) :
    waitOp ms ph s = { s with pending := some (.wait ms (if ms ≤ (s.te.nowMs - t0).toNat then .abort else .poll t0)) } := by
  have hpass : waitPass ms t0 s = .again (if ms ≤ (s.te.nowMs - t0).toNat then .abort else .poll t0) := by
    rw [waitPass, if_neg (not_not.2 hbusy)]
    split <;> rfl
  rcases hph with ⟨rfl, rfl⟩ | rfl <;> rw [waitOp, waitStep, hpass]

theorem waitOp_abort (ms : Nat) : waitOp ms .abort s = complete false (abortTransfer s) := rfl

/-! ## Abort and release (R210, R213) -/

theorem abortTransfer_free (hfree : s.te.st ≠ .dmaBusy) : abortTransfer s = s := if_neg hfree

/-- With a transfer in flight an abort deletes it, closes its frame and disarms the window; `scratch` is then unknown. -/
theorem abortTransfer_busy (hbusy : s.te.st = .dmaBusy) : ∃ junk : List Byte, junk.length = s.params.scratchBytes ∧
    abortTransfer s = { s with
      te := { s.te with dma := none, st := .idle, cs := false, scratch := junk }
      wire := s.wire ++ [.desel]
      surf := { s.surf with win := { s.surf.win with armed := false } }
      env := { s.env with draws := s.env.draws + 1 } } := by
  rcases abortTransfer_cases s with ⟨hfree, -⟩ | ⟨-, h⟩
  · exact absurd hbusy hfree
  · exact h

/-- Giving back the resources, after the abort: `scratch` is unknown when they were held. -/
def releaseTe (s : State) : State :=
  let t := if s.te.inited then forgetScratch s else s
  { t with te := { t.te with dmaOk := false, inited := false } }

/-- An abort keeps the resources. -/
theorem abortTransfer_inited (s : State) : (abortTransfer s).te.inited = s.te.inited := by
  rcases abortTransfer_cases s with ⟨-, e⟩ | ⟨-, junk, -, e⟩ <;> rw [e]

theorem exec_tefree (s : State) : exec .tefree s = .next (complete true (releaseTe (abortTransfer s))) := by
  rw [releaseTe, abortTransfer_inited]
  rfl

/-- What a release does, with the bytes it leaves in `scratch`. -/
theorem releaseTe_eq (s : State) : ∃ junk : List Byte,
    (s.te.inited = true → junk.length = s.params.scratchBytes) ∧ (s.te.inited = false → junk = s.te.scratch) ∧
    releaseTe s = { s with
      te := { s.te with dmaOk := false, inited := false, scratch := junk }
      env := { s.env with draws := if s.te.inited then s.env.draws + 1 else s.env.draws } } := by
  cases hinit : s.te.inited with
  | true => exact ⟨_, fun _ => fitScratch_length _ _, nofun, by rw [releaseTe, hinit]; rfl⟩
  | false => exact ⟨_, nofun, fun _ => rfl, by rw [releaseTe, hinit]; rfl⟩

end

end Sys2Proof.Machine

namespace Sys2Proof.Proofs

open Sys2Proof.Machine

/-- Settles O11: the one test, then the one frame. -/
theorem byteCommandsSendOneFrame : Obligations.ByteCommandsSendOneFrame := by
  unfold Obligations.ByteCommandsSendOneFrame
  refine fun b s => ⟨fun hidle => ?_, fun hbusy hf => ?_⟩
  · have hpass : firstFault [busTest s] = none := by rw [busTest_pass.2 hidle]; rfl
    exact ⟨guarded_next hpass 0x10 _ s, guarded_next hpass 0x11 _ s⟩
  · exact ⟨guarded_latched (busTest_only hbusy) 0x10 _ hf, guarded_latched (busTest_only hbusy) 0x11 _ hf⟩

/-- Settles O12, test by test, then by whether there is a byte to send. -/
theorem wrbulkSendsTheBytes : Obligations.WrbulkSendsTheBytes := by
  unfold Obligations.WrbulkSendsTheBytes
  refine fun s => ⟨fun hin hidle => ?_, fun hf hout => exec_wrbulk_faults hf ?_, fun hf hin hbusy => exec_wrbulk_faults hf ?_⟩
  · rw [exec_wrbulk_pass (by rw [wrbulkTests, checkBuf_bytes hin, busTest_pass.2 hidle]; rfl), wrbulkFrame]
    by_cases hzero : s.port.a.a1 = 0
    · rw [if_pos hzero, if_pos hzero, if_pos (by rw [hzero]; rfl), List.append_nil]
      rfl
    · rw [if_neg hzero, if_neg hzero, if_neg (toNat_ne_zero_iff.2 hzero), syncSend, frameEvents_memBytesAt]
      rfl
  · rw [wrbulkTests, checkBuf_buffer (by omega) hout]
    rfl
  · rw [wrbulkTests, checkBuf_bytes hin, firstFault_none, busTest_only hbusy]

/-- Settles O14: the issue, then the steps of the hold. -/
theorem wrbulkaHoldsThenSends : Obligations.WrbulkaHoldsThenSends := by
  unfold Obligations.WrbulkaHoldsThenSends
  refine ⟨fun s => exec_wrbulka_busy, fun s pix hturn hp => ?_⟩
  rw [step_pending hturn hp, resumeOp]
  refine ⟨fun hbusy => ?_, fun hfree hnil => ?_, fun hfree hne => ?_⟩
  · rw [bulkHoldOp_busy (by simpa using hbusy)]
    exact congrArg _ (turnTaken_still_pending hp)
  · rw [bulkHoldOp_free (by simpa using hfree), hnil]
    rfl
  · rw [bulkHoldOp_free (by simpa using hfree), bulkReturn_held hne, syncSend, frameEvents_pixels, ← List.append_assoc,
      turnTaken_eq]
    rfl

/-- Settles O15: the first pass at issue, the later passes, and the abort. -/
theorem waitFollowsItsLoop : Obligations.WaitFollowsItsLoop := by
  unfold Obligations.WaitFollowsItsLoop
  have issued : ∀ (ms : BitVec 24) (s : State), exec (.wait ms) s = .next (waitOp ms.toNat .start s) := fun _ _ => rfl
  refine ⟨fun ms s => ⟨fun hfree => ?_, fun hbusy hzero => ?_, fun hbusy hne => ?_⟩,
    fun s ms t0 hturn hp => ?_, fun s ms hturn hp => ?_⟩
  · rw [issued, waitOp_free hfree (by nofun)]
  · rw [issued, waitOp_busy hbusy (.inl ⟨rfl, rfl⟩), hzero]
    rfl
  · have hpos : ¬ ms.toNat ≤ (s.te.nowMs - s.te.nowMs).toNat := by bv_omega
    rw [issued, waitOp_busy hbusy (.inl ⟨rfl, rfl⟩), if_neg hpos]
  · rw [step_pending hturn hp, resumeOp, ← clock_difference]
    refine ⟨fun hfree => ?_, fun hbusy hearly => ?_, fun hbusy hlate => ?_⟩
    · rw [waitOp_free (by simpa using hfree) (by nofun)]
    · rw [waitOp_busy (by simpa using hbusy) (.inr rfl), if_neg (by rw [turnTaken_te]; exact Nat.not_le.2 hearly)]
      exact congrArg _ (turnTaken_still_pending hp)
    · rw [waitOp_busy (by simpa using hbusy) (.inr rfl), if_pos (by rwa [turnTaken_te])]
  · rw [step_pending hturn hp, resumeOp, waitOp_abort]
    refine ⟨fun hfree => ?_, fun hbusy => ?_⟩
    · rw [abortTransfer_free (by simpa using hfree)]
    · obtain ⟨junk, hjunk, e⟩ := abortTransfer_busy (s := { turnTaken s with pending := none }) (by simpa using hbusy)
      refine ⟨junk, by simpa using hjunk, ?_⟩
      rw [e, turnTaken_eq]
      rfl

/-- Settles O16, from what an abort does. -/
theorem abortEndsTheTransfer : Obligations.AbortEndsTheTransfer := by
  unfold Obligations.AbortEndsTheTransfer
  have issued : ∀ s : State, exec .abort s = .next (complete true (abortTransfer s)) := fun _ => rfl
  refine fun s => ⟨fun hbusy => ?_, fun hfree => ?_⟩
  · obtain ⟨junk, hjunk, e⟩ := abortTransfer_busy hbusy
    refine ⟨junk, hjunk, ?_⟩
    rw [issued, e]
    rfl
  · rw [issued, abortTransfer_free hfree]
    rfl

/-- Settles O17, by whether TEINIT has run before. -/
theorem teinitClaimsTheChannel : Obligations.TeinitClaimsTheChannel := by
  unfold Obligations.TeinitClaimsTheChannel
  refine fun s => ⟨fun hinit => ?_, fun hinit => ⟨_, _, rfl, rfl, ?_⟩⟩ <;> rw [exec, execTeinit, hinit]
  · rfl
  · rw [Bool.and_assoc]
    rfl

/-- Settles O18: the abort, then the release. -/
theorem tefreeReleasesTheChannel : Obligations.TefreeReleasesTheChannel := by
  unfold Obligations.TefreeReleasesTheChannel
  intro s
  by_cases hbusy : s.te.st = .dmaBusy
  · obtain ⟨junk, hjunk, e⟩ := abortTransfer_busy hbusy
    obtain ⟨junk', hheld, hkept, e'⟩ := releaseTe_eq (abortTransfer s)
    rw [e] at hheld hkept e'
    refine ⟨junk', fun _ => ?_, fun _ hfree => absurd hbusy hfree, fun _ => ?_, fun hfree => absurd hbusy hfree⟩
    · cases hinit : s.te.inited with
      | true => exact hheld hinit
      | false => rw [hkept hinit, hjunk]
    · rw [exec_tefree, e, e']
      rfl
  · obtain ⟨junk, hheld, hkept, e⟩ := releaseTe_eq s
    refine ⟨junk, fun h => hheld (h.resolve_right hbusy), fun hinit _ => hkept hinit, fun h => absurd h hbusy, fun _ => ?_⟩
    rw [exec_tefree, abortTransfer_free hbusy, e]
    rfl

/-- Settles O19, by what the channel has left to do. -/
theorem dmaShiftsThenFinishes : Obligations.DmaShiftsThenFinishes := by
  unfold Obligations.DmaShiftsThenFinishes
  intro s hturn
  have hstep : step s = .next (dmaStep (turnTaken s)) := step_of_event hturn
  rw [hstep]
  refine ⟨fun hnone => ?_, fun r hr hlt => ?_, fun r hr hend => ⟨noteAdd r.seq s.te.notePending, ?_, fun q => ?_⟩⟩
  · rw [dmaStep, turnTaken_te, hnone]
  · rw [dmaStep, turnTaken_te, hr]
    dsimp only
    rw [if_pos hlt, turnTaken_wire]
  · rw [dmaStep, turnTaken_te, hr]
    dsimp only
    rw [if_neg (Nat.not_lt.2 hend)]
  · rw [mem_noteAdd, or_comm]

/-- Settles O20, by whether the number delivered is that of the transfer in flight. -/
theorem notificationEndsItsTransferOnly : Obligations.NotificationEndsItsTransferOnly := by
  unfold Obligations.NotificationEndsItsTransferOnly
  intro s k hturn
  have hstep : step s = .next (notifyStep k (turnTaken s)) := step_of_event hturn
  rw [hstep, notifyStep, turnTaken_te]
  refine ⟨fun hnone => ?_, fun q hq => ⟨noteRemove q s.te.notePending, fun p => mem_noteRemove, ?_⟩⟩
  · rw [hnone]
  · rw [hq]
    dsimp only
    rcases deliver_cases (turnTaken s) q with ⟨hstale, e⟩ | ⟨hbusy, hcurrent, junk, hjunk, e⟩ <;> rw [e]
    · rw [turnTaken_te] at hstale ⊢
      exact ⟨fun hbusy hcurrent => absurd ⟨hbusy, hcurrent⟩ hstale, fun _ => rfl⟩
    · rw [turnTaken_te] at hbusy hcurrent
      refine ⟨fun _ _ => ⟨junk, by rwa [turnTaken_params] at hjunk, ?_⟩, fun hstale => ?_⟩
      · rw [turnTaken_te, turnTaken_wire, turnTaken_draws]
      · exact absurd hstale (by simp [hbusy, hcurrent])

/-- Settles O21, agent by agent. -/
theorem clockTicksAndSourceSupplies : Obligations.ClockTicksAndSourceSupplies := by
  unfold Obligations.ClockTicksAndSourceSupplies
  refine ⟨fun s hturn => ?_, fun s w hturn => ?_⟩
  · have htick : s.te.nowMs + 1 = BitVec.ofNat 32 ((s.te.nowMs.toNat + 1) % 2 ^ 32) := by bv_omega
    rw [step_of_event hturn, eventStep, clockStep, turnTaken_te, htick]
  · rw [step_of_event hturn, eventStep, sourceStep, turnTaken_host]

end Sys2Proof.Proofs

/-! # The windowed surface: its faults, the first chunk, the burst, and the table (R257, R262 to R274) -/

namespace Sys2Proof.Machine

section
variable {s : State}

/-! ## The drawing commands on a windowed panel (R264 to R272) -/

/-- The tests of DRAWIMG on a windowed panel, in its order. -/
def drawimgTests (s : State) : List (Option FaultCode) :=
  [checkBuf s.params s.port.a.a4.toNat (imageBytes s) 2, busTest s, underrunTest s]

/-- The tests of PUSHPIX, in its order. -/
def pushpixTests (s : State) : List (Option FaultCode) :=
  [checkBuf s.params s.port.a.a0.toNat (2 * s.port.a.a1.toNat) 2, busTest s, faultIf (!s.surf.win.armed) .winUnarmed,
    faultIf (decide (s.surf.win.remaining.toNat < s.port.a.a1.toNat)) .winOverrun]

/-- Arming the window `c` and streaming its pixels into it. -/
def drawBurst (src : PixSrc) (c : Rect) (s : State) : State := streamBurst src (rectCount c) (armWindow c s)

theorem exec_drawimg_windowed_visible (hv : s.params.variant = .windowedRam) {c : Rect} (hc : visible s = some c) :
    exec .drawimg s = .next (guarded 0x21 (drawimgTests s) (fun s => drawBurst (imageSrc s c) c s) s) := by
  rw [exec, execDrawimg, hv]
  dsimp only
  rw [drawImgWindowed, show clipOperands s = some c from hc]
  rfl

theorem exec_fillrect_windowed_visible (hv : s.params.variant = .windowedRam) {c : Rect} (hc : visible s = some c) :
    exec .fillrect s =
      .next (guarded 0x22 [busTest s, underrunTest s] (drawBurst (.solid (asColour s.port.a.a4)) c) s) := by
  rw [exec, execFillrect, hv]
  dsimp only
  rw [fillRectWindowed, show clipOperands s = some c from hc]
  rfl

/-- CLEAR fills the whole panel. -/
theorem exec_clear_windowed (hv : s.params.variant = .windowedRam) (hw : 1 ≤ s.surf.width.toNat)
    (hh : 1 ≤ s.surf.height.toNat) :
    exec .clear s =
      .next (guarded 0x25 [busTest s, underrunTest s] (drawBurst (.solid (asColour s.port.a.a4)) (fullScreen s)) s) := by
  rw [exec, execClear, hv]
  dsimp only
  rw [clearWindowed, clipToPanel, clipRect_panel hw hh]
  rfl

theorem exec_pushpix_windowed (hv : s.params.variant = .windowedRam) :
    exec .pushpix s =
      .next (guarded 0x24 (pushpixTests s) (streamBurst (.run s.port.a.a0.toNat) s.port.a.a1.toNat) s) := by
  rw [exec, execPushpix, hv]
  rfl

theorem drawimgTests_inMem {c : Rect} (hc : visible s = some c) (hin : imageInMem s) :
    firstFault (drawimgTests s) = firstFault [busTest s, underrunTest s] := by
  rw [drawimgTests, (checkBuf_image hc hin.1).1 hin, firstFault_none]

theorem pushpixTests_pass (hrun : runInMem s) (hidle : s.te.st = .idle) (harmed : s.surf.win.armed = true)
    (hroom : s.port.a.a1.toNat ≤ s.surf.win.remaining.toNat) : firstFault (pushpixTests s) = none := by
  rw [pushpixTests, checkBuf_pass hrun.1 hrun.2, busTest_pass.2 hidle, harmed, decide_eq_false (Nat.not_lt.2 hroom)]
  rfl

/-! ## The first chunk (R206, R262) -/

/-- The pixels of a part of a burst. -/
theorem pixChunk_take (m : Memory) (src : PixSrc) {n total : Nat} (h : n ≤ total) :
    (pixChunk m src 0 total).take n = pixChunk m src 0 n := by
  obtain ⟨k, rfl⟩ := Nat.exists_eq_add_of_le h
  rw [pixChunk_append]
  exact List.take_left' (pixChunk_length m src 0 n)

/-- `s` after the chunk of `n` pixels from number `i` has been handed to the channel, the burst left at the start of its wait. -/
def chunkArmed (src : PixSrc) (total i n : Nat) (s : State) : State :=
  { s with
    wire := s.wire ++ [.sel]
    te := { s.te with
      scratch := (pixChunk s.mem src i n).flatMap (pixBytes s.params.pixOrderDma) ++ s.te.scratch.drop (2 * n)
      xferSeq := s.te.xferSeq + 1
      dma := some { seq := s.te.xferSeq + 1, len := 2 * n, pos := 0 }
      dc := true, cs := true, st := .dmaBusy }
    surf := { s.surf with win := { s.surf.win with remaining := s.surf.win.remaining - BitVec.ofNat 32 n } }
    pending := some (.burst src total i n .start) }

/-- With the channel a burst with pixels left hands over its next chunk. -/
theorem burstFrom_chunkArmed {src : PixSrc} {total i : Nat} (hi : i < total) (hok : s.te.dmaOk = true)
    (hpix : 1 ≤ s.params.chunkPix) :
    burstFrom (total - i) src total i s = chunkArmed src total i (min s.params.chunkPix (total - i)) s := by
  rw [burstFrom_arm hi le_rfl hok hpix, takePixels, armTransfer, pixChunk_length]
  rfl

theorem streamBurst_chunkArmed {src : PixSrc} {total : Nat} (hpos : 0 < total) (hok : s.te.dmaOk = true)
    (hpix : 1 ≤ s.params.chunkPix) :
    streamBurst src total s = chunkArmed src total 0 (min s.params.chunkPix total) s :=
  burstFrom_chunkArmed hpos hok hpix

/-- Taking pixels off a count that has them. -/
theorem ofNat_sub_of_le {count n : Nat} (h : n ≤ count) :
    BitVec.ofNat 32 count - BitVec.ofNat 32 n = BitVec.ofNat 32 (count - n) := by
  rw [sub_eq_iff_eq_add, ← BitVec.ofNat_add, Nat.sub_add_cancel h]

theorem sub_ofNat_of_le (v : Word) {n : Nat} (h : n ≤ v.toNat) : v - BitVec.ofNat 32 n = BitVec.ofNat 32 (v.toNat - n) := by
  rw [← ofNat_sub_of_le h, BitVec.ofNat_toNat, BitVec.setWidth_eq]

/-- The drawing commands, with the channel: the window and the first chunk of its pixels (R257, R262). -/
theorem drawBurst_firstChunk {src : PixSrc} {c : Rect} {pix : List Pixel} (hok : s.te.dmaOk = true)
    (hpix : 1 ≤ s.params.chunkPix) (h : pixChunk s.mem src 0 (rectCount c) = pix) :
    drawBurst src c s = firstChunkArmed s c src pix := by
  subst h
  have hn : min s.params.chunkPix (rectCount c) ≤ rectCount c := min_le_right _ _
  rw [drawBurst, streamBurst_chunkArmed (s := armWindow c s) (rectCount_pos c) hok hpix, firstChunkArmed, pixChunk_length,
    pixChunk_take _ _ hn, ← ofNat_sub_of_le hn, ← armWindow_wire]
  rfl

/-! ## The end of a burst (R262) -/

theorem burstDone_eq (s : State) : burstDone s = { s with
    surf := { s.surf with win := { s.surf.win with armed := s.surf.win.armed && decide (s.surf.win.remaining ≠ 0) } }
    port := { s.port with res := true } } := by
  unfold burstDone
  split
  · next hzero =>
    rw [decide_eq_false (not_not.2 hzero), Bool.and_false]
    rfl
  · next hne =>
    rw [decide_eq_true hne, Bool.and_true]
    rfl

/-- The table sent, and the surface at its native size (R274). -/
theorem exec_surfinit_idle (hidle : s.te.st = .idle) : exec .surfinit s =
    .next (complete (Config.draw s.env.draws) (nativeGeometry (drawn 1 (s.params.initSeq.foldl sendInitItem s)))) := by
  have hpass : firstFault [busTest s] = none := by rw [busTest_pass.2 hidle]; rfl
  exact guarded_next hpass 0x26 _ s

end

end Sys2Proof.Machine

namespace Sys2Proof.Proofs

open Sys2Proof.Machine

/-- Settles O35, command by command, test by test. -/
theorem windowedFaultsInOrder : Obligations.WindowedFaultsInOrder := by
  unfold Obligations.WindowedFaultsInOrder
  refine fun s hv hf => ⟨fun hvis => ?_, fun hw hh => ?_, ?_⟩
  · obtain ⟨c, hc⟩ := Option.ne_none_iff_exists'.1 hvis
    rw [exec_drawimg_windowed_visible hv hc, exec_fillrect_windowed_visible hv hc]
    refine ⟨fun hodd => guarded_latched ?_ 0x21 _ hf, fun heven hout => guarded_latched ?_ 0x21 _ hf,
      fun hin hbusy => guarded_latched ?_ 0x21 _ hf, fun hin hidle hpartly => guarded_latched ?_ 0x21 _ hf,
      fun hbusy => guarded_latched (windowTests_busy hbusy) 0x22 _ hf,
      fun hidle hpartly => guarded_latched (windowTests_underrun hidle hpartly) 0x22 _ hf⟩
    · rw [drawimgTests, checkBuf_align hodd]
      rfl
    · rw [drawimgTests, (checkBuf_image hc heven).2 hout]
      rfl
    · rw [drawimgTests_inMem hc hin, windowTests_busy hbusy]
    · rw [drawimgTests_inMem hc hin, windowTests_underrun hidle hpartly]
  · rw [exec_clear_windowed hv hw hh]
    exact ⟨fun hbusy => guarded_latched (windowTests_busy hbusy) 0x25 _ hf,
      fun hidle hpartly => guarded_latched (windowTests_underrun hidle hpartly) 0x25 _ hf⟩
  · rw [exec_pushpix_windowed hv]
    refine ⟨fun hodd => guarded_latched ?_ 0x24 _ hf, fun heven hout => guarded_latched ?_ 0x24 _ hf,
      fun hrun hbusy => guarded_latched ?_ 0x24 _ hf, fun hrun hidle hdisarmed => guarded_latched ?_ 0x24 _ hf,
      fun hrun hidle harmed hover => guarded_latched ?_ 0x24 _ hf⟩ <;> rw [pushpixTests]
    · rw [checkBuf_align hodd]
      rfl
    · rw [checkBuf_even heven (Nat.not_le.1 fun hin => hout ⟨heven, hin⟩)]
      rfl
    · rw [checkBuf_pass hrun.1 hrun.2, busTest_fault hbusy]
      rfl
    · rw [checkBuf_pass hrun.1 hrun.2, busTest_pass.2 hidle, hdisarmed]
      rfl
    · rw [checkBuf_pass hrun.1 hrun.2, busTest_pass.2 hidle, harmed, decide_eq_true hover]
      rfl

/-- Settles O36: the tests passed, the window and the first chunk; PUSHPIX by whether it has a pixel. -/
theorem drawingArmsTheFirstChunk : Obligations.DrawingArmsTheFirstChunk := by
  unfold Obligations.DrawingArmsTheFirstChunk
  constructor
  · intro s c hv hok hpix hready _
    have hpass := windowTests_pass hready
    refine ⟨fun hc => ?_, fun hc hw hh => ?_, fun hc hin => ⟨imageSrc s c, ?_, pixChunk_image hc⟩⟩
    · rw [exec_fillrect_windowed_visible hv hc, guarded_pass hpass,
        drawBurst_firstChunk hok hpix (pixChunk_solid s.mem (asColour s.port.a.a4) 0 _)]
    · rw [exec_clear_windowed hv hw hh, guarded_pass hpass,
        drawBurst_firstChunk hok hpix (pixChunk_solid s.mem (asColour s.port.a.a4) 0 _), hc]
      rfl
    · rw [exec_drawimg_windowed_visible hv hc, guarded_pass ((drawimgTests_inMem hc hin).trans hpass),
        drawBurst_firstChunk hok hpix (pixChunk_image hc)]
  · intro s hv hok hpix hidle _ hrun harmed hroom
    rw [exec_pushpix_windowed hv, guarded_pass (pushpixTests_pass hrun hidle harmed hroom)]
    refine ⟨fun hzero => ?_, ?_⟩
    · have hspent : (s.surf.win.armed && decide (s.surf.win.remaining ≠ 0)) = decide (0 < s.surf.win.remaining.toNat) := by
        rw [harmed, Bool.true_and]
        exact decide_eq_decide.2 (toNat_ne_zero_iff.symm.trans Nat.pos_iff_ne_zero.symm)
      rw [streamBurst, burstFrom_done _ s (by rw [hzero]; rfl), burstDone_eq, hspent]
    · rintro n rfl hne
      have hn : min s.params.chunkPix s.port.a.a1.toNat ≤ s.port.a.a1.toNat := min_le_right _ _
      rw [streamBurst_chunkArmed (Nat.pos_of_ne_zero (toNat_ne_zero_iff.2 hne)) hok hpix, chunkArmed,
        sub_ofNat_of_le _ (hn.trans hroom), ← pixChunk_take _ _ hn, pixChunk_run]

/-- Settles O37, by what the wait finds and what is left of the burst. -/
theorem burstGoesOnChunkByChunk : Obligations.BurstGoesOnChunkByChunk := by
  unfold Obligations.BurstGoesOnChunkByChunk
  intro s src total i n ph hturn hp
  rw [step_pending hturn hp, resumeOp]
  refine ⟨fun hbusy t0 hph => ?_, fun hfree hph hend => ?_, fun hfree hph hok hpix hlt m hm => ?_, ?_, ?_⟩
  · rw [burstOp_waits (t0 := t0) (by simpa using hbusy) (by simpa using hph), clock_difference, turnTaken_eq]
  · rw [burstOp_ended hph (by simpa using hfree), burstFrom_done _ _ hend, burstDone_eq, turnTaken_eq]
  · rw [burstOp_ended hph (by simpa using hfree), burstFrom_chunkArmed hlt (by simpa using hok) (by simpa using hpix), hm,
      turnTaken_eq]
    rfl
  · rintro rfl hfree
    rw [burstOp_abort, abortTransfer_free (by simpa using hfree), turnTaken_eq]
    rfl
  · rintro rfl hbusy
    obtain ⟨junk, hjunk, e⟩ := abortTransfer_busy (s := { turnTaken s with pending := none }) (by simpa using hbusy)
    refine ⟨junk, by simpa using hjunk, ?_⟩
    rw [burstOp_abort, e, turnTaken_eq]
    rfl

/-- Settles O40: the one test, then the closed form of the table. -/
theorem surfinitSendsTheTable : Obligations.SurfinitSendsTheTable := by
  unfold Obligations.SurfinitSendsTheTable
  refine fun s => ⟨fun hidle hcs => ?_, fun hbusy hf => guarded_latched (busTest_only hbusy) 0x26 _ hf⟩
  rw [exec_surfinit_idle hidle, sendInit_eq _ hidle hcs]
  rfl

end Sys2Proof.Proofs

/-! # The windowed surface without the channel: whole bursts, and rectangles off the panel (R251, R262 to R272, R333) -/

namespace Sys2Proof.Machine

section
variable {s : State}

/-! ## A rectangle with nothing on the panel (R251, R333) -/

/-- Both variants clip before their first test. -/
theorem exec_drawimg_invisible (h : visible s = none) : exec .drawimg s = .next (complete true s) := by
  have hclip : clipOperands s = none := h
  cases hv : s.params.variant with
  | windowedRam => rw [exec, execDrawimg, hv, drawImgWindowed, hclip]
  | pagedMono => rw [exec_drawimg_paged hv, drawImgPaged, hclip]

theorem exec_fillrect_invisible (h : visible s = none) : exec .fillrect s = .next (complete true s) := by
  have hclip : clipOperands s = none := h
  cases hv : s.params.variant with
  | windowedRam => rw [exec, execFillrect, hv, fillRectWindowed, hclip, fillWindowed]
  | pagedMono => rw [exec_fillrect_paged hv, fillRectPaged, hclip]

/-! ## A whole burst without the channel (R262) -/

/-- `s` after a burst of `total` pixels has been sent synchronously, the wire carrying `es` for it: the count is taken off, and a
count of 0 disarms the window. -/
def burstSent (total : Nat) (es : List WireEvent) (s : State) : State :=
  let left := s.surf.win.remaining - BitVec.ofNat 32 total
  { s with
    wire := s.wire ++ es
    te := if 0 < total then restedAt true s.te else s.te
    surf := { s.surf with win :=
      { s.surf.win with remaining := left, armed := s.surf.win.armed && decide (left ≠ 0) } }
    port := { s.port with res := true } }

theorem streamBurst_sent (src : PixSrc) (total : Nat) (hok : s.te.dmaOk = false) (hpix : 1 ≤ s.params.chunkPix) :
    ∃ es, logical es = dataStream (pixChunk s.mem src 0 total) ∧ streamBurst src total s = burstSent total es s := by
  obtain ⟨es, hes, hburst⟩ := burstFrom_sync src total total 0 s le_rfl (Nat.zero_le _) hok hpix
  refine ⟨es, hes, ?_⟩
  rw [streamBurst, hburst, burstDone_eq]
  rfl

/-- The drawing commands, without the channel: the window, then all its pixels, and the window is spent (R257, R262). -/
theorem drawBurst_drewInto {src : PixSrc} {c : Rect} {pix : List Pixel} (hok : s.te.dmaOk = false)
    (hpix : 1 ≤ s.params.chunkPix) (h : pixChunk s.mem src 0 (rectCount c) = pix) :
    drewInto s (drawBurst src c s) c pix := by
  subst h
  obtain ⟨es, hes, hburst⟩ := streamBurst_sent (s := armWindow c s) src (rectCount c) hok hpix
  have hspent : (windowOf c).remaining - BitVec.ofNat 32 (rectCount c) = 0 := sub_self _
  rw [drawBurst, hburst]
  refine ⟨⟨es, by rw [← armWindow_wire]; rfl, hes⟩, ?_⟩
  simp only [burstSent, armWindow_te, armWindow_surf, hspent, if_pos (rectCount_pos c), ne_eq, not_true_eq_false,
    decide_false, Bool.and_false]
  rfl

/-- A window is spent by taking off its whole count, and by no less (R253, R268). -/
theorem sub_ne_zero_iff_lt {count n : Word} (h : n.toNat ≤ count.toNat) : count - n ≠ 0 ↔ n.toNat < count.toNat := by
  bv_omega

end

end Sys2Proof.Machine

namespace Sys2Proof.Proofs

open Sys2Proof.Machine

/-- Settles O32: the tests passed, one burst of the colour, of as many pixels as the window. -/
theorem fillSendsEveryPixel : Obligations.FillSendsEveryPixel := by
  unfold Obligations.FillSendsEveryPixel
  intro s hv hok hpix hready
  have hpass := windowTests_pass hready
  have hdrew (c : Rect) : drewInto s (drawBurst (.solid (asColour s.port.a.a4)) c s) c
      (List.replicate (rectCount c) (asColour s.port.a.a4)) :=
    drawBurst_drewInto hok hpix (pixChunk_solid s.mem _ 0 _)
  refine ⟨fun c hc => ⟨_, ?_, hdrew c⟩, fun hw hh => ?_⟩
  · rw [exec_fillrect_windowed_visible hv hc, guarded_pass hpass]
  · rw [exec_clear_windowed hv hw hh, guarded_pass hpass, ← rectCount_panel hw hh]
    exact ⟨_, rfl, hdrew (fullScreen s)⟩

/-- Settles O33: the burst's source is the image, clipped in place. -/
theorem drawimgSendsTheVisiblePixels : Obligations.DrawimgSendsTheVisiblePixels := by
  unfold Obligations.DrawimgSendsTheVisiblePixels
  intro s c hv hok hpix hready hc hin
  refine ⟨drawBurst (imageSrc s c) c s, ?_, drawBurst_drewInto hok hpix (pixChunk_image hc)⟩
  rw [exec_drawimg_windowed_visible hv hc, guarded_pass ((drawimgTests_inMem hc hin).trans (windowTests_pass hready))]

/-- Settles O34: one burst of the run into the window as it stands. -/
theorem pushpixSendsIntoTheWindow : Obligations.PushpixSendsIntoTheWindow := by
  unfold Obligations.PushpixSendsIntoTheWindow
  intro s hv hok hpix hidle hrun harmed hroom
  obtain ⟨es, hes, hburst⟩ := streamBurst_sent (.run s.port.a.a0.toNat) s.port.a.a1.toNat hok hpix
  refine ⟨es, by rw [hes, pixChunk_run], ?_⟩
  have hcount : BitVec.ofNat 32 s.port.a.a1.toNat = s.port.a.a1 := by simp
  have hengine : (if 0 < s.port.a.a1.toNat then restedAt true s.te else s.te) =
      if s.port.a.a1 = 0 then s.te else restedAt true s.te := by
    simp only [Nat.pos_iff_ne_zero, toNat_ne_zero_iff, ne_eq, ite_not]
  rw [exec_pushpix_windowed hv, guarded_pass (pushpixTests_pass hrun hidle harmed hroom), hburst]
  simp only [burstSent, hcount, hengine, harmed, Bool.true_and, sub_ne_zero_iff_lt hroom]

/-- Settles O30: clipping comes before every test, in both variants. -/
theorem geometryErrorsAreSilent : Obligations.GeometryErrorsAreSilent := by
  unfold Obligations.GeometryErrorsAreSilent
  exact fun s h => ⟨exec_drawimg_invisible h, exec_fillrect_invisible h⟩

end Sys2Proof.Proofs

/-! # The paged surface: page bytes, and the rows the drawing commands send (R292 to R300) -/

namespace Sys2Proof.Machine

section
variable {s : State}

/-! ## The bits of a page byte (R292, R124) -/

/-- The number whose bits below `n` are `bit 0` to `bit (n - 1)`, added up from the least one as `pageByte` does. -/
def bitSum (bit : Nat → Bool) (n : Nat) : Nat :=
  (List.range n).foldl (fun acc k => if bit k then acc + 2 ^ k else acc) 0

theorem bitSum_succ (bit : Nat → Bool) (n : Nat) :
    bitSum bit (n + 1) = if bit n then bitSum bit n + 2 ^ n else bitSum bit n := by
  rw [bitSum, List.range_succ, List.foldl_append]
  rfl

theorem bitSum_lt (bit : Nat → Bool) (n : Nat) : bitSum bit n < 2 ^ n := by
  induction n with
  | zero => exact Nat.one_pos
  | succ n ih =>
    rw [bitSum_succ, Nat.pow_succ]
    split <;> omega

/-- Adding bit `n` to a number below `2 ^ n` carries into no bit. -/
theorem testBit_bitSum (bit : Nat → Bool) {n k : Nat} (hk : k < n) : (bitSum bit n).testBit k = bit k := by
  induction n with
  | zero => exact absurd hk (Nat.not_lt_zero k)
  | succ n ih =>
    have htop : (bitSum bit n).testBit n = false := Nat.testBit_lt_two_pow (bitSum_lt bit n)
    rw [bitSum_succ]
    rcases Nat.lt_succ_iff_lt_or_eq.1 hk with hlow | rfl
    · split
      · rw [Nat.add_comm, Nat.testBit_two_pow_add_gt hlow, ih hlow]
      · exact ih hlow
    · split
      · next hbit => rw [Nat.add_comm, Nat.testBit_two_pow_add_eq, htop, hbit, Bool.not_false]
      · next hbit => rw [htop, Bool.eq_false_of_not_eq_true hbit]

/-- Row `row` shows at column `col`: it lies in the rectangle, and its pixel is lit. -/
def rowLit (isLit : Nat → Nat → Bool) (c : Rect) (col row : Nat) : Bool :=
  decide (c.y0 ≤ row) && decide (row ≤ c.y1) && isLit col row

theorem pageByte_eq_bitSum (isLit : Nat → Nat → Bool) (c : Rect) (page col : Nat) :
    pageByte isLit c page col = BitVec.ofNat 8 (bitSum (fun k => rowLit isLit c col (8 * page + k)) 8) := rfl

theorem pageByte_getLsbD (isLit : Nat → Nat → Bool) (c : Rect) (page col : Nat) {k : Nat} (hk : k < 8) :
    (pageByte isLit c page col).getLsbD k = rowLit isLit c col (8 * page + k) := by
  rw [pageByte_eq_bitSum, BitVec.getLsbD_ofNat, decide_eq_true hk, Bool.true_and, testBit_bitSum _ hk]

/-! ## A page row shows the rectangle only (R293) -/

theorem rowLit_congr {isLit isLit' : Nat → Nat → Bool} {c : Rect} {col row : Nat}
    (h : c.y0 ≤ row → row ≤ c.y1 → isLit col row = isLit' col row) : rowLit isLit c col row = rowLit isLit' c col row := by
  by_cases hin : c.y0 ≤ row ∧ row ≤ c.y1
  · rw [rowLit, rowLit, h hin.1 hin.2]
  · have hout : (decide (c.y0 ≤ row) && decide (row ≤ c.y1)) = false := by
      rw [← Bool.decide_and, decide_eq_false hin]
    rw [rowLit, rowLit, hout, Bool.false_and, Bool.false_and]

theorem pageByte_congr {isLit isLit' : Nat → Nat → Bool} {c : Rect} {col : Nat}
    (h : ∀ row, c.y0 ≤ row → row ≤ c.y1 → isLit col row = isLit' col row) (page : Nat) :
    pageByte isLit c page col = pageByte isLit' c page col := by
  refine BitVec.eq_of_getLsbD_eq fun k hk => ?_
  rw [pageByte_getLsbD _ _ _ _ hk, pageByte_getLsbD _ _ _ _ hk]
  exact rowLit_congr (h (8 * page + k))

theorem pageRow_congr {isLit isLit' : Nat → Nat → Bool} {c : Rect} (hx : c.x0 ≤ c.x1)
    (h : ∀ col row, c.x0 ≤ col → col ≤ c.x1 → c.y0 ≤ row → row ≤ c.y1 → isLit col row = isLit' col row) :
    pageRow isLit c = pageRow isLit' c := by
  refine funext fun page => List.map_congr_left fun j hj => ?_
  have hcol : c.x0 + j ≤ c.x1 := by
    rw [List.mem_range, rectCols] at hj
    omega
  exact pageByte_congr (fun row => h (c.x0 + j) row (Nat.le_add_right _ _) hcol) page

/-! ## The image behind a clipped rectangle (R264, R296) -/

/-- The place of a pixel of an image, with coordinates as integers that are not negative. -/
theorem pixAddr_toNat (base : Nat) {w dx dy : Int} (hw : 0 ≤ w) (hdx : 0 ≤ dx) (hdy : 0 ≤ dy) :
    pixAddr base w.toNat dx.toNat dy.toNat = base + 2 * (dy * w + dx).toNat := by
  lift w to Nat using hw
  lift dx to Nat using hdx
  lift dy to Nat using hdy
  rw [← Int.natCast_mul, ← Int.natCast_add]
  rfl

theorem imageLit_visible {c : Rect} (hc : visible s = some c) {col row : Nat} (hcol : c.x0 ≤ col) (hrow : c.y0 ≤ row) :
    imageLit s col row = decide (s.params.monoT ≤ (luma s.params (imagePixel s col row) : Int)) := by
  obtain ⟨hw, -, hx, hy, -⟩ := clipRect_some hc
  have haddr := pixAddr_toNat s.port.a.a4.toNat hw.le (dx := (col : Int) - s.port.a.a0.toInt)
    (dy := (row : Int) - s.port.a.a1.toInt) (by omega) (by omega)
  rw [imagePixel, ← haddr]
  rfl

/-! ## The drawing commands at rest (R296, R298, R300) -/

/-- `s` after a drawing command that sent the page rows `row` of `n` pages from `page0` on, from column `cx0` (R293, R295). -/
def pagesSent (page0 n cx0 : Nat) (row : Nat → List Byte) (s : State) : State :=
  { s with
    te := restedAt true s.te
    wire := s.wire ++ (List.range n).flatMap fun k => pageEvents s.params (page0 + k) cx0 (row (page0 + k))
    port := { s.port with res := true } }

theorem complete_sendPages {n : Nat} (hn : 1 ≤ n) (page0 cx0 : Nat) (row : Nat → List Byte) :
    complete true (sendPages page0 n cx0 row s) = pagesSent page0 n cx0 row s := by
  obtain ⟨m, rfl⟩ := Nat.exists_eq_add_of_le' hn
  rw [sendPages_eq]
  rfl

theorem complete_drawPages (isLit : Nat → Nat → Bool) (c : Rect) :
    complete true (drawPages isLit c s) = pagesSent (c.y0 / 8) (c.y1 / 8 - c.y0 / 8 + 1) c.x0 (pageRow isLit c) s :=
  complete_sendPages (Nat.le_add_left 1 _) _ _ _

theorem busTest_idle (hidle : s.te.st = .idle) : firstFault [busTest s] = none := by
  rw [busTest_pass.2 hidle]
  rfl

/-- DRAWIMG on a paged panel sends the rows of any predicate that tells the lit pixels of the image in the rectangle. -/
theorem exec_drawimg_paged_sends (hv : s.params.variant = .pagedMono) (hidle : s.te.st = .idle) {c : Rect}
    (hc : visible s = some c) (hin : imageInMem s) {isLit : Nat → Nat → Bool}
    (hlit : ∀ col row, c.x0 ≤ col → c.y0 ≤ row → imageLit s col row = isLit col row) :
    exec .drawimg s =
      .next (pagesSent (c.y0 / 8) (c.y1 / 8 - c.y0 / 8 + 1) c.x0 (pageRow isLit c) s) := by
  obtain ⟨-, -, -, -, hx, -⟩ := clipRect_some hc
  have hpass : firstFault [checkBuf s.params s.port.a.a4.toNat (imageBytes s) 2, busTest s] = none := by
    rw [(checkBuf_image hc hin.1).1 hin, firstFault_none, busTest_idle hidle]
  have hrow := pageRow_congr hx fun col row hcol _ hrow _ => hlit col row hcol hrow
  rw [exec_drawimg_paged_visible hv hc, guarded_pass hpass, complete_drawPages, hrow]

theorem exec_fillrect_paged_sends (hv : s.params.variant = .pagedMono) (hidle : s.te.st = .idle) {c : Rect}
    (hc : visible s = some c) :
    exec .fillrect s = .next (pagesSent (c.y0 / 8) (c.y1 / 8 - c.y0 / 8 + 1) c.x0
      (pageRow (fun _ _ => lit s.params (asColour s.port.a.a4)) c) s) := by
  rw [exec_fillrect_paged_visible hv hc, guarded_pass (busTest_idle hidle), complete_drawPages]

/-- CLEAR on a paged panel of at least one page. -/
theorem exec_clear_paged_sends (hv : s.params.variant = .pagedMono) (hidle : s.te.st = .idle)
    (hpages : 8 ≤ s.params.nativeH.toNat) :
    exec .clear s = .next (pagesSent 0 (s.params.nativeH.toNat / 8) 0
      (fun _ => List.replicate s.params.nativeW.toNat 0) s) := by
  have hn : 1 ≤ s.params.nativeH.toNat / 8 := Nat.div_pos hpages (by decide)
  rw [exec_clear_paged hv, clearPaged, guarded_pass (busTest_idle hidle), complete_sendPages hn]

end

end Sys2Proof.Machine

namespace Sys2Proof.Proofs

open Sys2Proof.Machine

/-- Settles O42: a page byte is a sum of distinct powers of 2, one for each row that shows. -/
theorem pageByteHoldsEightRows : Obligations.PageByteHoldsEightRows := by
  unfold Obligations.PageByteHoldsEightRows
  exact fun isLit c page col _ hk => pageByte_getLsbD isLit c page col hk

/-- Settles O43: the tests pass, and the pages go out in order; DRAWIMG reads the image's own pixels in the rectangle. -/
theorem pagedDrawingSendsPageRows : Obligations.PagedDrawingSendsPageRows := by
  unfold Obligations.PagedDrawingSendsPageRows
  refine fun s hv hidle => ⟨fun c hc hin => ?_, fun c hc => ?_, fun hpages => ?_⟩
  · exact exec_drawimg_paged_sends hv hidle hc hin fun _ _ hcol hrow => imageLit_visible hc hcol hrow
  · exact exec_fillrect_paged_sends hv hidle hc
  · rw [exec_clear_paged_sends hv hidle hpages]
    simp only [pagesSent, Nat.zero_add]

end Sys2Proof.Proofs

/-! # The frame loop at its poll (R312 to R316) -/

namespace Sys2Proof.Machine

section
variable {s : State}

/-- R128, R312: vsync, bit 31, is high in the words of the upper half. -/
theorem sampleVsync_eq_decide (w : Word) : sampleVsync w = decide (2 ^ 31 ≤ w.toNat) :=
  (BitVec.msb_eq_getLsbD_last w).symm.trans (BitVec.msb_eq_decide w)

/-- R311: the loop holds at its poll while the FIFO is empty. -/
theorem loopStep_poll_empty {l : FrameLoop} (hph : l.phase = .poll) (hfifo : s.host.fifo = []) :
    loopStep l s = .next s := by
  simp only [loopStep, hph, hfifo]

theorem loopStep_poll_word {l : FrameLoop} (hph : l.phase = .poll) {w : Word} {rest : List Word}
    (hfifo : s.host.fifo = w :: rest) : loopStep l s = .next (loopPoll l w (fifoPop rest s)) := by
  simp only [loopStep, hph, hfifo]

end

end Sys2Proof.Machine

namespace Sys2Proof.Proofs

open Sys2Proof.Machine

/-- Settles O58: by whether the FIFO has a word; the vsync level of the word polled is its bit 31. -/
theorem frameLoopWaitsForTheEdge : Obligations.FrameLoopWaitsForTheEdge := by
  unfold Obligations.FrameLoopWaitsForTheEdge
  refine fun s cfg hloop => ⟨fun hempty => ?_, fun w rest hword cur edge hcur hedge => ?_⟩
  · rw [step_frameLoop hloop]
    exact loopStep_poll_empty rfl (by rwa [turnTaken_host])
  · have hvsync : sampleVsync w = cur := by rw [sampleVsync_eq_decide, hcur]
    have hpop := loopStep_poll_word (s := turnTaken s) (l := { cfg := cfg, phase := .poll }) rfl (by rwa [turnTaken_host])
    rw [step_frameLoop hloop, hpop, hedge, loopPoll, fifoPop, hvsync, turnTaken_host]

end Sys2Proof.Proofs

/-! # A command that faults changes `FAULT` and `faulted` alone (R340, R343) -/

namespace Sys2Proof.Machine

/-- The two outcomes of a command at its issue on `s`, its opcode byte being `op`: it goes through and writes of the host port `RES`
alone, or it takes a fault on `s` as it stands. -/
inductive DoneOrFaulted (op : Byte) (s : State) : State → Prop where
  | done {t : State} (h : SameButRes s t) : DoneOrFaulted op s t
  | faulted (c : FaultCode) : DoneOrFaulted op s (raiseFault op c s)

section
variable {op : Byte} {s t : State}

/-- The command returns 1 and does nothing else. -/
theorem DoneOrFaulted.noOp : DoneOrFaulted op s (complete true s) := .done ((SameButRes.refl s).complete true)

/-- All tests of a guarded operation come before its effect. -/
theorem DoneOrFaulted.guarded {tests : List (Option FaultCode)} {f : State → State} (hf : SameButRes s (f s)) :
    DoneOrFaulted op s (guarded op tests f s) :=
  guarded_has (fun _ => .done hf) .faulted

/-- On a fresh fault register, an outcome with `faulted` set is the latched state. -/
theorem DoneOrFaulted.eq_latched (h : DoneOrFaulted op s t) (hfresh : s.port.faulted = false)
    (hfaulted : t.port.faulted = true) : ∃ c, t = latched op c s := by
  cases h with
  | done hsame =>
    rw [hsame.port, hfresh] at hfaulted
    cases hfaulted
  | faulted c => exact ⟨c, raiseFault_fresh hfresh op c⟩

/-! ## The surface operations -/

theorem setWinWindowed_doneOrFaulted (s : State) : DoneOrFaulted 0x20 s (setWinWindowed s) := by
  unfold setWinWindowed
  dsimp only
  split
  · exact .noOp
  · split
    · exact .noOp
    · exact .guarded ((armWindow_sameButRes _ s).complete true)

theorem drawImgWindowed_doneOrFaulted (s : State) : DoneOrFaulted 0x21 s (drawImgWindowed s) := by
  unfold drawImgWindowed
  split
  · exact .noOp
  · exact .guarded (drawBurst_sameButRes _ _ _ s)

theorem drawImgPaged_doneOrFaulted (s : State) : DoneOrFaulted 0x21 s (drawImgPaged s) := by
  unfold drawImgPaged
  split
  · exact .noOp
  · exact .guarded ((sendPages_sameButRes _ _ _ _ s).complete true)

theorem fillWindowed_doneOrFaulted (op : Byte) (clip : Option Rect) (col : Pixel) (s : State) :
    DoneOrFaulted op s (fillWindowed op clip col s) := by
  unfold fillWindowed
  split
  · exact .noOp
  · exact .guarded (drawBurst_sameButRes _ _ _ s)

theorem fillRectPaged_doneOrFaulted (s : State) : DoneOrFaulted 0x22 s (fillRectPaged s) := by
  unfold fillRectPaged
  split
  · exact .noOp
  · exact .guarded ((sendPages_sameButRes _ _ _ _ s).complete true)

theorem setRotWindowed_doneOrFaulted (r : BitVec 2) (s : State) : DoneOrFaulted 0x23 s (setRotWindowed r s) := by
  refine .guarded ?_
  dsimp only
  split <;> exact ⟨rfl, rfl, rfl⟩

theorem setRotPaged_doneOrFaulted (r : BitVec 2) (s : State) : DoneOrFaulted 0x23 s (setRotPaged r s) :=
  .guarded ((SameButRes.refl s).complete true)

theorem pushPixWindowed_doneOrFaulted (s : State) : DoneOrFaulted 0x24 s (pushPixWindowed s) :=
  .guarded (streamBurst_frame _ _ s).sameButRes

theorem clearPaged_doneOrFaulted (s : State) : DoneOrFaulted 0x25 s (clearPaged s) :=
  .guarded ((sendPages_sameButRes _ _ _ _ s).complete true)

/-! ## Every command -/

/-- The fault a command takes at its issue bears the command's own opcode byte and comes before any effect. -/
theorem exec_doneOrFaulted {i : Instr} (he : exec i s = .next t) : DoneOrFaulted i.opcode s t := by
  cases i <;> injection he with he <;> subst he
  case wrcmd b => exact .guarded ⟨rfl, rfl, rfl⟩
  case wrdat b => exact .guarded ⟨rfl, rfl, rfl⟩
  case wrbulk =>
    refine .guarded ?_
    split <;> exact ⟨rfl, rfl, rfl⟩
  case wrbulka =>
    refine .guarded ?_
    dsimp only
    split
    · exact ⟨rfl, rfl, rfl⟩
    · exact (disarm_sameButRes s).trans (bulkReturn_sameButRes _ false (disarm s))
  case wait ms => exact .done (waitOp_sameButRes _ _ s)
  case abort => exact .done ((abortTransfer_sameButRes s).complete true)
  case teinit =>
    refine .done ?_
    split <;> exact ⟨rfl, rfl, rfl⟩
  case tefree =>
    refine .done ((abortTransfer_sameButRes s).trans ?_)
    dsimp only
    split <;> exact ⟨rfl, rfl, rfl⟩
  case setwin =>
    split
    · exact setWinWindowed_doneOrFaulted s
    · exact .faulted .illegalCmd
  case drawimg =>
    split
    · exact drawImgWindowed_doneOrFaulted s
    · exact drawImgPaged_doneOrFaulted s
  case fillrect =>
    split
    · exact fillWindowed_doneOrFaulted _ _ _ s
    · exact fillRectPaged_doneOrFaulted s
  case setrot rot =>
    split
    · exact setRotWindowed_doneOrFaulted rot s
    · exact setRotPaged_doneOrFaulted rot s
  case pushpix =>
    split
    · exact pushPixWindowed_doneOrFaulted s
    · exact .faulted .illegalCmd
  case clear =>
    split
    · exact fillWindowed_doneOrFaulted _ _ _ s
    · exact clearPaged_doneOrFaulted s
  case surfinit => exact .guarded ((sendInit_sameButRes s.params.initSeq s).trans ⟨rfl, rfl, rfl⟩)
  case buildmaps => exact .guarded ⟨rfl, rfl, rfl⟩
  case resample => exact .guarded ⟨rfl, rfl, rfl⟩
  case dithb => exact .guarded ⟨rfl, rfl, rfl⟩
  case dithfs => exact .guarded ⟨rfl, rfl, rfl⟩

end

end Sys2Proof.Machine

namespace Sys2Proof.Proofs

open Sys2Proof.Machine

/-- Settles O6: a command goes through and keeps `faulted`, or its fault is taken on the state it was issued in. -/
theorem faultingCommandChangesOnlyFault : Obligations.FaultingCommandChangesOnlyFault := by
  unfold Obligations.FaultingCommandChangesOnlyFault
  exact fun i s t hfresh he hfaulted => (exec_doneOrFaulted he).eq_latched hfresh hfaulted

end Sys2Proof.Proofs
